-- ==== Sys2Proof/Word.lean ====
section
/-! DEFINITION. The word types of NBI-CORE: the 32-bit word (limb), the 64-bit double-word of the
datapath, and the word base B = 2^32 (00_scope.md R8). -/

namespace Sys2Proof

/-- A 32-bit unsigned unit of storage (R8, R24). -/
abbrev Word := BitVec 32

/-- A 64-bit intermediate value of the datapath (R7, R8). -/
abbrev DWord := BitVec 64

/-- A byte of the canonical memory list (`Host.Cell`). -/
abbrev Byte := BitVec 8

/-- The word base, written B in the spec (R8). -/
def wordBase : Nat := 2 ^ 32

end Sys2Proof
end

