-- ==== Sys2Proof/Config.lean ====
section
/-! DEFINITION. The build parameters of a block (00_scope.md R9, 10_state.md R124): what one implementation
fixes. No behaviour of this hardware leaves a value undefined, so there is no free value here. -/

namespace Sys2Proof

/-- The implementation parameters of R9. -/
structure Config where
  /-- `NBR`: number of big registers (D2). -/
  nbr  : Nat
  /-- `MAXW`: maximum magnitude length of a big register, in words (D3). -/
  maxw : Nat
  /-- `OMW`: operand memory size, in words (D4). -/
  omw  : Nat
  /-- `BASE`: byte address of the host aperture (D5, OPEN: the platform chooses it). -/
  base : Nat
  deriving DecidableEq, Repr

/-- The size of the host aperture in bytes, 512 KiB (R200). -/
abbrev Config.apertureBytes : Nat := 0x80000

/-- The legal ranges of R9. -/
abbrev Config.Legal (c : Config) : Prop :=
  2 ≤ c.nbr ∧ c.nbr ≤ 16 ∧ 1 ≤ c.maxw ∧ c.maxw ≤ 65535 ∧ 1 ≤ c.omw ∧ c.omw ≤ 65536 ∧
    c.base % Config.apertureBytes = 0

/-- The default build of R9. BASE has no default: 0 is the model's choice (DESIGN CHOICE, log 5; no rule
of the block reads it). -/
def Config.default : Config := ⟨16, 256, 4096, 0⟩

/-- The byte offset the platform's address decode hands the block for a byte address: the block answers
`[BASE, BASE + 512 KiB)` (R200, R211, R219); every other address is the platform's, and a host request carries the offset only (log 6). -/
def Config.offsetOf (c : Config) (addr : Nat) : Option (BitVec 19) :=
  if c.base ≤ addr ∧ addr < c.base + Config.apertureBytes then some (BitVec.ofNat 19 (addr - c.base)) else none

end Sys2Proof
end

