-- ==== Sys2Proof/Syntax.lean ====
section
/-! DEFINITION. The 33 commands of NBI-CORE as syntax (30_encoding.md R301 to R306), one constructor per row of
spec/opcode_table.json, and the pseudo-instructions of R311. -/

namespace Sys2Proof

/-- A register field: index i in 0..15, naming big register xi (R302). -/
abbrev Reg := Fin 16

/-- One command with its operands, in the assembler order of R305 and R310. -/
inductive Instr where
  /-- NOP (R401). -/
  | nop
  /-- LDI xd, simm (R402). -/
  | ldi (rd : Reg) (imm : BitVec 32)
  /-- LDMAG xd, addr, len, sign (R403). -/
  | ldmag (rd : Reg) (addr len : BitVec 16) (sg : BitVec 2)
  /-- STMAG xs, addr (R404). -/
  | stmag (rs1 : Reg) (addr : BitVec 16)
  /-- STTC xs, addr (R405). -/
  | sttc (rs1 : Reg) (addr : BitVec 16)
  /-- MOV xd, xs (R406). -/
  | mov (rd rs1 : Reg)
  /-- SIGNUM xs (R407). -/
  | signum (rs1 : Reg)
  /-- MAGLEN xs (R408). -/
  | maglen (rs1 : Reg)
  /-- LOWORD xs (R409). -/
  | loword (rs1 : Reg)
  /-- ADD xd, xs1, xs2 (R505). -/
  | add (rd rs1 rs2 : Reg)
  /-- SUB xd, xs1, xs2 (R506). -/
  | sub (rd rs1 rs2 : Reg)
  /-- MUL xd, xs1, xs2 (R603). -/
  | mul (rd rs1 rs2 : Reg)
  /-- SQR xd, xs (R604). -/
  | sqr (rd rs1 : Reg)
  /-- POW xd, xs, simm (R605). -/
  | pow (rd rs1 : Reg) (imm : BitVec 32)
  /-- DIV xd, xs1, xs2 (R712). -/
  | div (rd rs1 rs2 : Reg)
  /-- REM xd, xs1, xs2 (R713). -/
  | rem (rd rs1 rs2 : Reg)
  /-- DIVREM xq, xr, xs1, xs2 (R714). -/
  | divrem (rd rd2 rs1 rs2 : Reg)
  /-- MOD xd, xs1, xs2 (R715). -/
  | mod (rd rs1 rs2 : Reg)
  /-- MODPOW xd, xb, xe, xm (R807). -/
  | modpow (rd rs1 rs2 rs3 : Reg)
  /-- AND xd, xs1, xs2 (R903). -/
  | and (rd rs1 rs2 : Reg)
  /-- OR xd, xs1, xs2 (R904). -/
  | or (rd rs1 rs2 : Reg)
  /-- XOR xd, xs1, xs2 (R905). -/
  | xor (rd rs1 rs2 : Reg)
  /-- ANDNOT xd, xs1, xs2 (R906). -/
  | andnot (rd rs1 rs2 : Reg)
  /-- NOT xd, xs (R907). -/
  | not (rd rs1 : Reg)
  /-- CLRBIT xd, xs, simm (R908). -/
  | clrbit (rd rs1 : Reg) (imm : BitVec 32)
  /-- BITLEN xs (R909). -/
  | bitlen (rs1 : Reg)
  /-- BITCNT xs (R910). -/
  | bitcnt (rs1 : Reg)
  /-- SHL xd, xs, simm (R1004). -/
  | shl (rd rs1 : Reg) (imm : BitVec 32)
  /-- SHR xd, xs, simm (R1005). -/
  | shr (rd rs1 : Reg) (imm : BitVec 32)
  /-- CMP xs1, xs2 (R1100). -/
  | cmp (rs1 rs2 : Reg)
  /-- EQ xs1, xs2 (R1101). -/
  | eq (rs1 rs2 : Reg)
  /-- ABS xd, xs (R1102). -/
  | abs (rd rs1 : Reg)
  /-- NEG xd, xs (R1103). -/
  | neg (rd rs1 : Reg)
  deriving DecidableEq, Repr

/-- The opcodes of R306, by name. -/
inductive Opcode where
  | nop | ldi | ldmag | stmag | sttc | mov | signum | maglen | loword
  | add | sub | mul | sqr | pow
  | div | rem | divrem | mod | modpow
  | and | or | xor | andnot | not | clrbit | bitlen | bitcnt
  | shl | shr
  | cmp | eq | abs | neg
  deriving DecidableEq, Repr

/-- The formats of R305. -/
inductive Format where
  | N | LI | LM | SM | R1 | R2 | R3 | D2 | RI | Q1 | Q2
  deriving DecidableEq, Repr

/-- The pseudo-instructions of R311 (a tool convention, D43). -/
inductive Pseudo where
  /-- `CLR xd`. -/
  | clr (rd : Reg)
  /-- `LDONE xd`. -/
  | ldone (rd : Reg)
  /-- `SHLW xd, xs, k`. -/
  | shlw (rd rs : Reg) (k : Int)
  /-- `MODMUL xd, xa, xb, xm`. -/
  | modmul (rd ra rb rm : Reg)
  /-- `SETSIGN xd, xs, -1`. -/
  | setsign (rd rs : Reg)
  deriving DecidableEq, Repr

end Sys2Proof
end

