-- ==== Sys2Proof/WellFormed.lean ====
section
/-! DEFINITION. When a command is well-formed for a build (30_encoding.md R302, R307): every register field it
uses names an existing register, and DIVREM has two different destinations. The widths of the other fields
are in their types; an `sg` of 10 is no encoding error (R303). -/

namespace Sys2Proof

/-- The register fields a command uses, in the order of R312: rd, rd2, rs1, rs2, rs3 as used. -/
def Instr.regs : Instr → List Reg
  | .nop => []
  | .ldi rd _ => [rd]
  | .ldmag rd _ _ _ => [rd]
  | .stmag rs1 _ => [rs1]
  | .sttc rs1 _ => [rs1]
  | .mov rd rs1 => [rd, rs1]
  | .signum rs1 => [rs1]
  | .maglen rs1 => [rs1]
  | .loword rs1 => [rs1]
  | .add rd rs1 rs2 => [rd, rs1, rs2]
  | .sub rd rs1 rs2 => [rd, rs1, rs2]
  | .mul rd rs1 rs2 => [rd, rs1, rs2]
  | .sqr rd rs1 => [rd, rs1]
  | .pow rd rs1 _ => [rd, rs1]
  | .div rd rs1 rs2 => [rd, rs1, rs2]
  | .rem rd rs1 rs2 => [rd, rs1, rs2]
  | .divrem rd rd2 rs1 rs2 => [rd, rd2, rs1, rs2]
  | .mod rd rs1 rs2 => [rd, rs1, rs2]
  | .modpow rd rs1 rs2 rs3 => [rd, rs1, rs2, rs3]
  | .and rd rs1 rs2 => [rd, rs1, rs2]
  | .or rd rs1 rs2 => [rd, rs1, rs2]
  | .xor rd rs1 rs2 => [rd, rs1, rs2]
  | .andnot rd rs1 rs2 => [rd, rs1, rs2]
  | .not rd rs1 => [rd, rs1]
  | .clrbit rd rs1 _ => [rd, rs1]
  | .bitlen rs1 => [rs1]
  | .bitcnt rs1 => [rs1]
  | .shl rd rs1 _ => [rd, rs1]
  | .shr rd rs1 _ => [rd, rs1]
  | .cmp rs1 rs2 => [rs1, rs2]
  | .eq rs1 rs2 => [rs1, rs2]
  | .abs rd rs1 => [rd, rs1]
  | .neg rd rs1 => [rd, rs1]

/-- The commands whose two destinations are the same register (ILLEGAL(4), R307): DIVREM only. -/
def Instr.sameDest : Instr → Bool
  | .divrem rd rd2 _ _ => rd = rd2
  | _ => false

/-- Well-formed for a build with `nbr` big registers. -/
def Instr.wellFormed (nbr : Nat) (i : Instr) : Bool :=
  i.regs.all (fun r => r.val < nbr) && !i.sameDest

end Sys2Proof
end

