-- ==== Sys2Proof/Decode.lean ====
section
/-! DEFINITION. The decoder (30_encoding.md R312), total on every 64-bit word and rejecting by name, and after it
the encoder, both from the field layout of R301 and the tables R305 and R306. -/

namespace Sys2Proof

/-- Why a word is no command: the four cases of R307, in their order. -/
inductive Illegal where
  /-- ILLEGAL(1): the opcode is undefined. -/
  | undefinedOpcode
  /-- ILLEGAL(2): a field the format does not use, or a reserved bit, is nonzero. -/
  | unusedField
  /-- ILLEGAL(3): a used register field holds NBR or more. -/
  | badRegister
  /-- ILLEGAL(4): DIVREM with rd = rd2. -/
  | sameDest
  deriving DecidableEq, Repr

/-- The opcode byte of R306. -/
def Opcode.byte : Opcode → BitVec 8
  | .nop => 0x00 | .ldi => 0x01 | .ldmag => 0x02 | .stmag => 0x03 | .sttc => 0x04 | .mov => 0x05
  | .signum => 0x08 | .maglen => 0x09 | .loword => 0x0A
  | .add => 0x10 | .sub => 0x11 | .mul => 0x12 | .sqr => 0x13 | .pow => 0x14
  | .div => 0x18 | .rem => 0x19 | .divrem => 0x1A | .mod => 0x1B | .modpow => 0x1C
  | .and => 0x20 | .or => 0x21 | .xor => 0x22 | .andnot => 0x23 | .not => 0x24 | .clrbit => 0x25
  | .bitlen => 0x28 | .bitcnt => 0x29
  | .shl => 0x2C | .shr => 0x2D
  | .cmp => 0x30 | .eq => 0x31 | .abs => 0x32 | .neg => 0x33

/-- The format column of R306. -/
def Opcode.format : Opcode → Format
  | .nop => .N
  | .ldi => .LI
  | .ldmag => .LM
  | .stmag | .sttc => .SM
  | .mov | .sqr | .not | .abs | .neg => .R1
  | .add | .sub | .mul | .div | .rem | .mod | .and | .or | .xor | .andnot => .R2
  | .modpow => .R3
  | .divrem => .D2
  | .pow | .clrbit | .shl | .shr => .RI
  | .signum | .maglen | .loword | .bitlen | .bitcnt => .Q1
  | .cmp | .eq => .Q2

/-- The rows of R306, in its order. -/
def Opcode.all : List Opcode :=
  [.nop, .ldi, .ldmag, .stmag, .sttc, .mov, .signum, .maglen, .loword,
   .add, .sub, .mul, .sqr, .pow, .div, .rem, .divrem, .mod, .modpow,
   .and, .or, .xor, .andnot, .not, .clrbit, .bitlen, .bitcnt, .shl, .shr,
   .cmp, .eq, .abs, .neg]

/-- The row of R306 an opcode byte selects, if any. -/
def Opcode.ofByte (b : BitVec 8) : Option Opcode := Opcode.all.find? (fun o => o.byte == b)

/-- The mask of R305: the opcode bits and every must-be-zero bit of the format. -/
def Format.mask : Format → BitVec 64
  | .N  => 0xFFFFFFFFFFFFFFFF
  | .LI => 0xFF0FFFFF00000000
  | .LM => 0xFF0FFFFC00000000
  | .SM => 0xFFF0FFFFFFFF0000
  | .R1 => 0xFF00FFFFFFFFFFFF
  | .R2 => 0xFF000FFFFFFFFFFF
  | .R3 => 0xFF0000FFFFFFFFFF
  | .D2 => 0xFF0000FFFFFFFFFF
  | .RI => 0xFF00FFFF00000000
  | .Q1 => 0xFFF0FFFFFFFFFFFF
  | .Q2 => 0xFFF00FFFFFFFFFFF

/-- The match column of R306: the opcode in bits 63:56, every other bit 0. -/
def Opcode.matchWord (o : Opcode) : BitVec 64 := o.byte ++ (0 : BitVec 56)

/-- The fields of R301. -/
def Field.op (c : BitVec 64) : BitVec 8 := c.extractLsb' 56 8
def Field.rd (c : BitVec 64) : Reg := (c.extractLsb' 52 4).toFin
def Field.rs1 (c : BitVec 64) : Reg := (c.extractLsb' 48 4).toFin
def Field.rs2 (c : BitVec 64) : Reg := (c.extractLsb' 44 4).toFin
/-- Third source (MODPOW) or second destination (DIVREM). -/
def Field.rs3 (c : BitVec 64) : Reg := (c.extractLsb' 40 4).toFin
def Field.sg (c : BitVec 64) : BitVec 2 := c.extractLsb' 32 2
def Field.imm (c : BitVec 64) : BitVec 32 := c.extractLsb' 0 32
/-- imm32[15:0], the OM address (R304). -/
def Field.addr (c : BitVec 64) : BitVec 16 := c.extractLsb' 0 16
/-- imm32[31:16], the LDMAG length (R304). -/
def Field.len (c : BitVec 64) : BitVec 16 := c.extractLsb' 16 16

/-- The command a row's fields spell, each format reading the fields R305 lists for it. -/
def Opcode.build (o : Opcode) (c : BitVec 64) : Instr :=
  match o with
  | .nop => .nop
  | .ldi => .ldi (Field.rd c) (Field.imm c)
  | .ldmag => .ldmag (Field.rd c) (Field.addr c) (Field.len c) (Field.sg c)
  | .stmag => .stmag (Field.rs1 c) (Field.addr c)
  | .sttc => .sttc (Field.rs1 c) (Field.addr c)
  | .mov => .mov (Field.rd c) (Field.rs1 c)
  | .signum => .signum (Field.rs1 c)
  | .maglen => .maglen (Field.rs1 c)
  | .loword => .loword (Field.rs1 c)
  | .add => .add (Field.rd c) (Field.rs1 c) (Field.rs2 c)
  | .sub => .sub (Field.rd c) (Field.rs1 c) (Field.rs2 c)
  | .mul => .mul (Field.rd c) (Field.rs1 c) (Field.rs2 c)
  | .sqr => .sqr (Field.rd c) (Field.rs1 c)
  | .pow => .pow (Field.rd c) (Field.rs1 c) (Field.imm c)
  | .div => .div (Field.rd c) (Field.rs1 c) (Field.rs2 c)
  | .rem => .rem (Field.rd c) (Field.rs1 c) (Field.rs2 c)
  | .divrem => .divrem (Field.rd c) (Field.rs3 c) (Field.rs1 c) (Field.rs2 c)
  | .mod => .mod (Field.rd c) (Field.rs1 c) (Field.rs2 c)
  | .modpow => .modpow (Field.rd c) (Field.rs1 c) (Field.rs2 c) (Field.rs3 c)
  | .and => .and (Field.rd c) (Field.rs1 c) (Field.rs2 c)
  | .or => .or (Field.rd c) (Field.rs1 c) (Field.rs2 c)
  | .xor => .xor (Field.rd c) (Field.rs1 c) (Field.rs2 c)
  | .andnot => .andnot (Field.rd c) (Field.rs1 c) (Field.rs2 c)
  | .not => .not (Field.rd c) (Field.rs1 c)
  | .clrbit => .clrbit (Field.rd c) (Field.rs1 c) (Field.imm c)
  | .bitlen => .bitlen (Field.rs1 c)
  | .bitcnt => .bitcnt (Field.rs1 c)
  | .shl => .shl (Field.rd c) (Field.rs1 c) (Field.imm c)
  | .shr => .shr (Field.rd c) (Field.rs1 c) (Field.imm c)
  | .cmp => .cmp (Field.rs1 c) (Field.rs2 c)
  | .eq => .eq (Field.rs1 c) (Field.rs2 c)
  | .abs => .abs (Field.rd c) (Field.rs1 c)
  | .neg => .neg (Field.rd c) (Field.rs1 c)

/-- The decoder of R312 on a build with `nbr` registers: its four checks in their order. -/
def decode (nbr : Nat) (c : BitVec 64) : Except Illegal Instr :=
  match Opcode.ofByte (Field.op c) with
  | none => .error .undefinedOpcode
  | some o =>
    if c &&& o.format.mask ≠ o.matchWord then .error .unusedField
    else if (o.build c).regs.any (fun r => nbr ≤ r.val) then .error .badRegister
    else if (o.build c).sameDest then .error .sameDest
    else .ok (o.build c)

/-- The instruction the decoder reads from a table word on the default build: a command is one 64-bit word,
{CMDHI, CMDLO}, bits numbered as the table numbers them, so `w` is the command word itself. -/
def decodeTableWord (nbits w : Nat) : Option Instr :=
  match decode Config.default.nbr (BitVec.ofNat 64 (w % 2 ^ nbits)) with
  | .ok i => some i
  | .error _ => none

/-! The encoder. -/

/-- The opcode of a command. -/
def Instr.opcode : Instr → Opcode
  | .nop => .nop
  | .ldi .. => .ldi
  | .ldmag .. => .ldmag
  | .stmag .. => .stmag
  | .sttc .. => .sttc
  | .mov .. => .mov
  | .signum .. => .signum
  | .maglen .. => .maglen
  | .loword .. => .loword
  | .add .. => .add
  | .sub .. => .sub
  | .mul .. => .mul
  | .sqr .. => .sqr
  | .pow .. => .pow
  | .div .. => .div
  | .rem .. => .rem
  | .divrem .. => .divrem
  | .mod .. => .mod
  | .modpow .. => .modpow
  | .and .. => .and
  | .or .. => .or
  | .xor .. => .xor
  | .andnot .. => .andnot
  | .not .. => .not
  | .clrbit .. => .clrbit
  | .bitlen .. => .bitlen
  | .bitcnt .. => .bitcnt
  | .shl .. => .shl
  | .shr .. => .shr
  | .cmp .. => .cmp
  | .eq .. => .eq
  | .abs .. => .abs
  | .neg .. => .neg

/-- A register index as its 4-bit field. -/
def Reg.bits (r : Reg) : BitVec 4 := BitVec.ofFin r

/-- The layout of R301: op, rd, rs1, rs2, rs3/rd2, six reserved zeros, sg, imm32. -/
def pack (op : BitVec 8) (rd rs1 rs2 rs3 : Reg) (sg : BitVec 2) (imm : BitVec 32) : BitVec 64 :=
  op ++ Reg.bits rd ++ Reg.bits rs1 ++ Reg.bits rs2 ++ Reg.bits rs3 ++ (0 : BitVec 6) ++ sg ++ imm

/-- The command word of a command; every field its format does not use is 0 (R302, R305). -/
def encode (i : Instr) : BitVec 64 :=
  let op := i.opcode.byte
  match i with
  | .nop => pack op 0 0 0 0 0 0
  | .ldi rd imm => pack op rd 0 0 0 0 imm
  | .ldmag rd addr len sg => pack op rd 0 0 0 sg (len ++ addr)
  | .stmag rs1 addr => pack op 0 rs1 0 0 0 ((0 : BitVec 16) ++ addr)
  | .sttc rs1 addr => pack op 0 rs1 0 0 0 ((0 : BitVec 16) ++ addr)
  | .mov rd rs1 => pack op rd rs1 0 0 0 0
  | .signum rs1 => pack op 0 rs1 0 0 0 0
  | .maglen rs1 => pack op 0 rs1 0 0 0 0
  | .loword rs1 => pack op 0 rs1 0 0 0 0
  | .add rd rs1 rs2 => pack op rd rs1 rs2 0 0 0
  | .sub rd rs1 rs2 => pack op rd rs1 rs2 0 0 0
  | .mul rd rs1 rs2 => pack op rd rs1 rs2 0 0 0
  | .sqr rd rs1 => pack op rd rs1 0 0 0 0
  | .pow rd rs1 imm => pack op rd rs1 0 0 0 imm
  | .div rd rs1 rs2 => pack op rd rs1 rs2 0 0 0
  | .rem rd rs1 rs2 => pack op rd rs1 rs2 0 0 0
  | .divrem rd rd2 rs1 rs2 => pack op rd rs1 rs2 rd2 0 0
  | .mod rd rs1 rs2 => pack op rd rs1 rs2 0 0 0
  | .modpow rd rs1 rs2 rs3 => pack op rd rs1 rs2 rs3 0 0
  | .and rd rs1 rs2 => pack op rd rs1 rs2 0 0 0
  | .or rd rs1 rs2 => pack op rd rs1 rs2 0 0 0
  | .xor rd rs1 rs2 => pack op rd rs1 rs2 0 0 0
  | .andnot rd rs1 rs2 => pack op rd rs1 rs2 0 0 0
  | .not rd rs1 => pack op rd rs1 0 0 0 0
  | .clrbit rd rs1 imm => pack op rd rs1 0 0 0 imm
  | .bitlen rs1 => pack op 0 rs1 0 0 0 0
  | .bitcnt rs1 => pack op 0 rs1 0 0 0 0
  | .shl rd rs1 imm => pack op rd rs1 0 0 0 imm
  | .shr rd rs1 imm => pack op rd rs1 0 0 0 imm
  | .cmp rs1 rs2 => pack op 0 rs1 rs2 0 0 0
  | .eq rs1 rs2 => pack op 0 rs1 rs2 0 0 0
  | .abs rd rs1 => pack op rd rs1 0 0 0 0
  | .neg rd rs1 => pack op rd rs1 0 0 0 0

end Sys2Proof
end

