-- ==== Sys2Proof/Machine/State.lean ====
section
/-! DEFINITION. The state of the block as plain data (10_state.md), the events that reach it (20_memory.md R213,
R214, R219), the ways a command errs (60_exceptions.md R1201), and the state after reset (R120, R1302). -/

namespace Sys2Proof.Machine

/-- The sign of a big register: -1, 0 or +1 (R101). -/
inductive Sign where
  | neg | zero | pos
  deriving DecidableEq, Repr

/-- One big register: sign and magnitude list, most significant word first (R101). `len` of R101 is the
length of `mag`. -/
structure BigReg where
  sign : Sign
  mag  : List Word
  deriving DecidableEq, Repr

/-- The canonical zero: sign 0, len 0, mag [] (R105). -/
def BigReg.zero : BigReg := ⟨.zero, []⟩

/-- The STATUS bits (R112); bits 31:5 read 0 and are not stored. -/
structure Status where
  busy : Bool
  done : Bool
  err  : Bool
  ovr  : Bool
  herr : Bool
  deriving DecidableEq, Repr

/-- STATUS after reset: all 0 (R112, R120). -/
def Status.zero : Status := ⟨false, false, false, false, false⟩

/-- The LASTERR fields (R113); bits 31:24 read 0 and are not stored. -/
structure LastErr where
  sub  : BitVec 8
  op   : BitVec 8
  code : BitVec 8
  deriving DecidableEq, Repr

/-- LASTERR after reset: 0 (R113, R120). -/
def LastErr.zero : LastErr := ⟨0, 0, 0⟩

/-- The ten registers of the host register block (R110). -/
inductive HostReg where
  | id | version | cfg | omsize | ctrl | status | lasterr | res | cmdlo | cmdhi
  deriving DecidableEq, Repr

/-- The size of a host request (R219). -/
inductive Size where
  | b8 | b16 | b32
  deriving DecidableEq, Repr

/-- A host request: read or write, byte offset [18:0], size, write data (R219; log 6). -/
inductive HostReq where
  | read (off : BitVec 19) (size : Size)
  | write (off : BitVec 19) (size : Size) (data : Word)
  deriving DecidableEq, Repr

/-- What a host request reaches (R211): a register, an OM word, or nothing defined (R206). -/
inductive Target where
  | reg (r : HostReg)
  | om (a : Nat)
  | illegal
  deriving DecidableEq, Repr

/-- The block's answer to the last host request (R219): read data, or the bare answer to a write
(`none`: no request answered yet; log 7). -/
inductive Response where
  | none
  | data (w : Word)
  | ack
  deriving DecidableEq, Repr

/-- One event of the total order of R214, or of the reset pin (R1300). Log 1, log 9, log 10. -/
inductive Event where
  /-- a host transaction -/
  | host (q : HostReq)
  /-- the engine's completion step; not enabled while BUSY = 0 (R213) -/
  | complete
  /-- a host transaction and a completion in the same cycle (R1210) -/
  | sameCycle (q : HostReq)
  /-- rst_n falls: the block is held in reset -/
  | rstLow
  /-- rst_n rises, with the words the RAM happens to hold, as (word address, word) pairs (R1300, R1302) -/
  | rstHigh (om : List (Nat × Word))
  deriving DecidableEq, Repr

/-- Memory as bytes by address, in the canonical form of `Memory.wf`. -/
abbrev Memory := List Host.Cell

/-- The errors a command can raise, one per code and subcause of R1201. -/
inductive CmdError where
  /-- ILLEGAL(1..4): raised by the decoder for every command (R307). -/
  | illegal (why : Illegal)
  /-- CONSTRUCT(1): LDMAG, sg = 10 (R403). -/
  | constructSign
  /-- CONSTRUCT(2): LDMAG, sign 0 with a nonempty magnitude or a nonzero sign with an empty one (R403). -/
  | constructMismatch
  /-- DOMAIN(1): POW and MODPOW, negative exponent. -/
  | domainExponent
  /-- DOMAIN(2): MOD and MODPOW, modulus <= 0. -/
  | domainModulus
  /-- DOMAIN(3): DIV, REM and DIVREM, zero divisor. -/
  | domainDivisor
  /-- DOMAIN(4): CLRBIT, negative bit index. -/
  | domainBitIndex
  /-- RANGE(1): SHL and SHR, distance -2^31. -/
  | range
  /-- CAPACITY(1): a result magnitude needs more than MAXW words. -/
  | capacity
  /-- OMRANGE(1): an OM access would run past word OMW-1. -/
  | omRange
  deriving DecidableEq, Repr

/-- What stops the machine. No command does: an error is a completion (R1200). -/
inductive Fault where
  /-- Raised by the host's access, never by a command: a host transaction while rst_n is low, which "has no defined
  effect and no defined response" (R1300, D52). Safe: the model stops where the spec defines nothing (log 9). -/
  | accessInReset
  deriving DecidableEq, Repr

/-- Why a command has no meaning in the model. -/
inductive Refusal where
  /-- Raised by `exec` for a command the model gives no meaning; no arm raises it now. Safe. -/
  | notModelled (mnemonic : String)
  deriving DecidableEq, Repr

/-- The machine. `cfg`, `response` and `agenda` are the model's own (log 5, log 7, log 1); the rest is the spec's. -/
structure State where
  /-- the build parameters, which no step changes (R9, R124) -/
  cfg      : Config
  /-- the level of the rst_n input (R219) -/
  rstN     : Bool
  /-- x0..x15 (R101); slots NBR..15 are no registers (R104, log 17) -/
  x        : Vector BigReg 16
  /-- OM (R106), as bytes: byte j of OM[a] at key 4a + j (log 4) -/
  om       : Memory
  /-- the command latch (R107) -/
  cl       : BitVec 64
  /-- CTRL.IE (R111) -/
  ie       : Bool
  /-- STATUS (R112) -/
  status   : Status
  /-- LASTERR (R113) -/
  lasterr  : LastErr
  /-- RES (R114) -/
  res      : Word
  /-- CMDLO (R115) -/
  cmdLo    : Word
  /-- CMDHI (R116) -/
  cmdHi    : Word
  /-- the answer to the last host request (R219) -/
  response : Response
  /-- the events still to come, first to happen first (R214) -/
  agenda   : List Event
  deriving DecidableEq, Repr

/-- The state when rst_n has risen, on the default build (R120, R1302), with nothing listed in OM (log 3) and
nothing scheduled (log 1): the block waits for the host (R1303). -/
def State.reset : State where
  cfg      := Config.default
  rstN     := true
  x        := Vector.replicate 16 BigReg.zero
  om       := []
  cl       := 0
  ie       := false
  status   := Status.zero
  lasterr  := LastErr.zero
  res      := 0
  cmdLo    := 0
  cmdHi    := 0
  response := .none
  agenda   := []

end Sys2Proof.Machine
end

