-- ==== Sys2Proof/Machine/Flags.lean ====
section
/-! DEFINITION. The STATUS bits and their events (10_state.md R108, R112, 20_memory.md R213, 60_exceptions.md R1203,
R1210), CTRL, LASTERR and the interrupt output as the host sees them (R111, R113, R119). The block has no other
flags (R108). -/

namespace Sys2Proof.Machine

/-- A RW1C bit after one cycle: a set event wins over a write of 1 (R112, R1210). -/
def rw1c (cur set clear : Bool) : Bool := set || (cur && !clear)

/-- STATUS at issue: BUSY <- 1, DONE <- 0; ERR is kept (R213). -/
def Status.issue (st : Status) : Status := { st with busy := true, done := false }

/-- STATUS at completion: BUSY <- 0, DONE <- 1, and ERR <- 1 if the command erred; ERR is sticky (R213, R1203). -/
def Status.complete (st : Status) (erred : Bool) : Status :=
  { st with busy := false, done := rw1c st.done true false, err := rw1c st.err erred false }

/-- A host write to STATUS: each RW1C bit written 1 is cleared; BUSY and the reserved bits ignore it (R112). -/
def Status.write (st : Status) (data : Word) : Status :=
  { st with
    done := rw1c st.done false (data.getLsbD 1)
    err := rw1c st.err false (data.getLsbD 2)
    ovr := rw1c st.ovr false (data.getLsbD 3)
    herr := rw1c st.herr false (data.getLsbD 4) }

/-- A host access refused while BUSY: OVR <- 1 (R210, R1208). -/
def Status.refuse (st : Status) : Status := { st with ovr := rw1c st.ovr true false }

/-- An illegal host access: HERR <- 1 (R206, R1208). -/
def Status.illegalAccess (st : Status) : Status := { st with herr := rw1c st.herr true false }

/-- STATUS as read (R112). -/
def Status.word (st : Status) : Word :=
  (0 : BitVec 27) ++ BitVec.ofBool st.herr ++ BitVec.ofBool st.ovr ++ BitVec.ofBool st.err ++
    BitVec.ofBool st.done ++ BitVec.ofBool st.busy

/-- LASTERR as read (R113, R1202). -/
def LastErr.word (e : LastErr) : Word := (0 : BitVec 8) ++ e.sub ++ e.op ++ e.code

/-- CTRL as read: SRST and bits 31:2 read 0 (R111). -/
def ctrlWord (ie : Bool) : Word := (0 : BitVec 31) ++ BitVec.ofBool ie

/-- CFG as read: MAXW in bits 15:0, NBR in bits 20:16 (R118). -/
def cfgWord (c : Config) : Word := (0 : BitVec 11) ++ BitVec.ofNat 5 c.nbr ++ BitVec.ofNat 16 c.maxw

/-- OMSIZE as read: OMW in bits 16:0 (R118). -/
def omsizeWord (c : Config) : Word := (0 : BitVec 15) ++ BitVec.ofNat 17 c.omw

/-- The interrupt output: `IRQ = CTRL.IE AND STATUS.DONE` (R119, R1209). -/
def State.irq (s : State) : Bool := s.ie && s.status.done

end Sys2Proof.Machine
end

