-- ==== Sys2Proof/Machine/WordOps.lean ====
section
/-! DEFINITION. The integer functions and magnitude lists of 00_scope.md R12 to R14, the WordOps of R19 to R21 and
the double-word datapath of R7 and R22. -/

namespace Sys2Proof.Machine

/-! Integers (R12). `tdiv`, `tmod`, `fdiv`, `fmod` and `sgn` are `Int.tdiv`, `Int.tmod`, `Int.fdiv`, `Int.fmod`
and `Int.sign`. -/

/-- The number of bits of v ≥ 0: the least k with v < 2^k. -/
def natBits (v : Nat) : Nat := if v = 0 then 0 else v.log2 + 1

/-- `bitlen(v)`: the least k with -2^k ≤ v < 2^k (R12). For v = -(n+1) that is the bits of n. -/
def bitlen : Int → Nat
  | .ofNat n => natBits n
  | .negSucc n => natBits n

/-- `popcount(v)` for v ≥ 0: the number of 1 bits (R12). -/
def popcount (v : Nat) : Nat := (List.range (natBits v)).countP v.testBit

/-- `v[32k+31 : 32k]` of the infinite two's-complement form (R11). -/
def sliceWord (v : Int) (k : Nat) : Word := BitVec.ofInt 32 (v.fdiv (2 ^ (32 * k)))

/-! Magnitude lists, most significant word first (R13, R14). -/

/-- `val(X)` (R13). -/
def val : List Word → Nat
  | [] => 0
  | w :: ws => w.toNat * wordBase ^ ws.length + val ws

/-- The value of a list read least significant word first: the order in which the datapath's carry chains run. -/
def valLE : List Word → Nat
  | [] => 0
  | w :: ws => w.toNat + wordBase * valLE ws

/-- `lw(X, k)`: the k-th word from the least significant end, 0 beyond the list (R13). -/
def lw (X : List Word) (k : Nat) : Word := X.reverse.getD k 0

/-- The n low words of v, least significant first. -/
def wordsLE : Nat → Nat → List Word
  | 0, _ => []
  | n + 1, v => BitVec.ofNat 32 v :: wordsLE n (v / wordBase)

/-- `words_n(v)`: exactly n words with val = v, for v < B^n (R14). -/
def wordsN (n v : Nat) : List Word := (wordsLE n v).reverse

/-- `strip(X)`: X without its leading zero words (R14). -/
def strip (X : List Word) : List Word := X.dropWhile (· == 0)

/-- `words(v)`: the magnitude list of v with no leading zero word (R14). -/
def words (v : Nat) : List Word := strip (wordsN (v.log2 / 32 + 1) v)

/-- X padded with leading zero words to n words. -/
def padTo (n : Nat) (X : List Word) : List Word := List.replicate (n - X.length) 0 ++ X

/-! WordOps (R19). -/

/-- `nlz32(w)`: leading zero bits, 32 for 0. -/
def nlz32 (w : Word) : Nat := 32 - natBits w.toNat

/-- `ntz32(w)`: trailing zero bits, 32 for 0. -/
def ntz32 (w : Word) : Nat := ((List.range 32).find? w.getLsbD).getD 32

/-- `popcount32(w)`. -/
def popcount32 (w : Word) : Nat := popcount w.toNat

/-! Double-words (R7, R20, R22). -/

/-- A word on the 64-bit datapath, zero-extended. -/
def ext (w : Word) : DWord := w.setWidth 64

/-- `lo(p) = p[31:0]` (R20). -/
def lo (p : DWord) : Word := p.extractLsb' 0 32

/-- `hi(p) = p[63:32]` (R20). -/
def hi (p : DWord) : Word := p.extractLsb' 32 32

/-- `{h, l}` as a double-word (R11). -/
def cat (h l : Word) : DWord := h ++ l

/-- `mulAdd64(a, b, c, d)`: a·b + c + d, which fits a double-word (R20). -/
def mulAdd64 (a b c d : Word) : DWord := ext a * ext b + ext c + ext d

/-- The quotient of the 64/32 divide (R22), d ≠ 0. -/
def div64 (t : DWord) (d : Word) : DWord := t / ext d

/-- The remainder of the 64/32 divide (R22), d ≠ 0. -/
def rem64 (t : DWord) (d : Word) : DWord := t % ext d

/-- A carry bit as a word. -/
def carry (c : Bool) : Word := (BitVec.ofBool c).setWidth 32

end Sys2Proof.Machine
end

