-- ==== Sys2Proof/Machine/Operands.lean ====
section
/-! DEFINITION. The operand forms of 30_encoding.md R302 to R304 and the value of a big register (10_state.md R101,
R102). -/

namespace Sys2Proof.Machine

/-- The sign as an integer (R101). -/
def Sign.toInt : Sign → Int
  | .neg => -1
  | .zero => 0
  | .pos => 1

/-- The stored sign of an integer: sgn(v) (R101). -/
def Sign.of (v : Int) : Sign := if v < 0 then .neg else if v = 0 then .zero else .pos

/-- `x[i] = sign · val(mag)` (R102). -/
def BigReg.toInt (r : BigReg) : Int := r.sign.toInt * (val r.mag : Int)

/-- The canonical form of an integer: sign sgn(v), mag words(|v|) (R101). -/
def BigReg.ofInt (v : Int) : BigReg := ⟨Sign.of v, words v.natAbs⟩

/-- The integer a register operand names (R15, R302). -/
def State.xv (s : State) (r : Reg) : Int := (s.x.get r).toInt

/-- `x[rd] <- v` (R15, R101). -/
def State.setX (s : State) (r : Reg) (v : Int) : State := { s with x := s.x.set r (BigReg.ofInt v) }

/-- `simm = sext_32(imm32)` (R18, R304). -/
abbrev simm (imm : BitVec 32) : Int := imm.toInt

/-- The LDMAG sign: `sext_2(sg)` (R303). -/
abbrev signOf (sg : BitVec 2) : Int := sg.toInt

/-- The OM word address or length field, zero-extended (R304). -/
abbrev omField (f : BitVec 16) : Nat := f.toNat

/-- `RES <- v`: v mod 2^32 (R15). -/
def resWord (v : Int) : Word := BitVec.ofInt 32 v

end Sys2Proof.Machine
end

