-- ==== Sys2Proof/Machine/Ops.lean ====
section
/-! DEFINITION. The named operations over memory and registers: OM (00_scope.md R16, 20_memory.md R201 to R204), a
command's completion with or without an error (60_exceptions.md R1200 to R1203), issue (20_memory.md R213) and
the resets (70_reset_and_hazards.md R1300, R1301). -/

namespace Sys2Proof.Machine

/-! Operand memory. -/

/-- What an address nothing has written reads as (DESIGN CHOICE, log 3: the spec leaves OM's power-on content
unspecified; unsafe for a claim that needs it). -/
def Memory.unlisted : Byte := 0

/-- The canonical form: addresses strictly rising, no entry equal to what an unlisted address reads as. -/
abbrev Memory.wf (m : Memory) : Prop :=
  m.Pairwise (fun c d => c.1 < d.1) ∧ ∀ c ∈ m, c.2 ≠ Memory.unlisted

/-- Every listed byte belongs to a word below `n`: OM has no word from OMW on (R201). -/
abbrev Memory.below (m : Memory) (n : Nat) : Prop := ∀ c ∈ m, c.1 < 4 * n

/-- One byte of memory. -/
def Memory.readByte : Memory → Nat → Byte
  | [], _ => Memory.unlisted
  | c :: m, a => if c.1 = a then c.2 else Memory.readByte m a

/-- Store one byte, keeping the canonical form. -/
def Memory.writeByte : Memory → Nat → Byte → Memory
  | [], a, b => if b = Memory.unlisted then [] else [(a, b)]
  | c :: m, a, b =>
    if a < c.1 then (if b = Memory.unlisted then c :: m else (a, b) :: c :: m)
    else if a = c.1 then (if b = Memory.unlisted then m else (a, b) :: m)
    else c :: Memory.writeByte m a b

/-- `OM[a]` (R16, R201). The lanes inside a word are the model's (log 4): no access is narrower than a word (R205). -/
def Memory.readWord (m : Memory) (a : Nat) : Word :=
  Memory.readByte m (4 * a + 3) ++ Memory.readByte m (4 * a + 2) ++
    Memory.readByte m (4 * a + 1) ++ Memory.readByte m (4 * a)

/-- `OM[a] <- w`. -/
def Memory.writeWord (m : Memory) (a : Nat) (w : Word) : Memory :=
  let m := Memory.writeByte m (4 * a) (w.extractLsb' 0 8)
  let m := Memory.writeByte m (4 * a + 1) (w.extractLsb' 8 8)
  let m := Memory.writeByte m (4 * a + 2) (w.extractLsb' 16 8)
  Memory.writeByte m (4 * a + 3) (w.extractLsb' 24 8)

/-- `MemRead(a, n)` (R16): OM[a] first, the most significant word of a value (R204). -/
def Memory.read (m : Memory) (a : Nat) : Nat → List Word
  | 0 => []
  | n + 1 => Memory.readWord m a :: Memory.read m (a + 1) n

/-- `MemWrite(a, n, X)` with n = |X| (R16): X_k into OM[a + k]. -/
def Memory.write : Memory → Nat → List Word → Memory
  | m, _, [] => m
  | m, a, w :: ws => Memory.write (Memory.writeWord m a w) (a + 1) ws

/-- The memory that holds the given words and nothing else; a pair past the last word is no word of OM (log 18). -/
def Memory.ofContents (omw : Nat) (l : List (Nat × Word)) : Memory :=
  l.foldl (fun m p => if p.1 < omw then Memory.writeWord m p.1 p.2 else m) []

/-! The outcome of one step. -/

/-- The outcome type of every meaning. -/
abbrev Out := Host.Outcome State Fault Refusal

/-! Completion (R1200, R1202, R1203, R213). -/

/-- CODE of an error (R1201). -/
def CmdError.code : CmdError → BitVec 8
  | .illegal _ => 1
  | .constructSign | .constructMismatch => 2
  | .domainExponent | .domainModulus | .domainDivisor | .domainBitIndex => 3
  | .range => 4
  | .capacity => 5
  | .omRange => 6

/-- SUB of an error (R1201, R307). -/
def CmdError.sub : CmdError → BitVec 8
  | .illegal .undefinedOpcode => 1
  | .illegal .unusedField => 2
  | .illegal .badRegister => 3
  | .illegal .sameDest => 4
  | .constructSign => 1
  | .constructMismatch => 2
  | .domainExponent => 1
  | .domainModulus => 2
  | .domainDivisor => 3
  | .domainBitIndex => 4
  | .range => 1
  | .capacity => 1
  | .omRange => 1

/-- The completion of a command that commits: LASTERR = {0x00, OP, 0x00}, DONE <- 1, BUSY <- 0 (R1200,
R1202; OP is read from CL: log 11). -/
def State.commit (s : State) : State :=
  { s with lasterr := ⟨0, Field.op s.cl, 0⟩, status := s.status.complete false }

/-- A command errs: `raise CODE(sub)` (R17). Nothing of the command is written; LASTERR = {SUB, OP, CODE},
DONE <- 1, ERR <- 1, BUSY <- 0 (R1200, R1202, R1203). There is no trap and nothing to return from (R1206, R1207). -/
def State.raise (s : State) (e : CmdError) : State :=
  { s with lasterr := ⟨e.sub, Field.op s.cl, e.code⟩, status := s.status.complete true }

/-- An erring command's outcome. -/
def State.err (s : State) (e : CmdError) : Out := .next (s.raise e)

/-- Commit `x[rd] <- v`. -/
def State.commitX (s : State) (rd : Reg) (v : Int) : Out := .next (s.setX rd v).commit

/-- `if |words(|v|)| > MAXW: raise CAPACITY(1)`, else commit `x[rd] <- v` (R1201). -/
def State.commitBounded (s : State) (rd : Reg) (v : Int) : Out :=
  if s.cfg.maxw < (words v.natAbs).length then s.err .capacity else s.commitX rd v

/-- Commit `RES <- v`. -/
def State.commitRes (s : State) (v : Int) : Out := .next ({ s with res := resWord v } : State).commit

/-- `if a + |X| > OMW: raise OMRANGE(1)`, else commit `MemWrite(a, |X|, X); RES <- |X|` (R202, R404, R405). -/
def State.commitStore (s : State) (a : Nat) (X : List Word) : Out :=
  if s.cfg.omw < a + X.length then s.err .omRange
  else .next ({ s with om := Memory.write s.om a X, res := resWord X.length } : State).commit

/-! Issue and reset. -/

/-- Issue: CMDHI takes the value written, CL <- {CMDHI, CMDLO}, BUSY <- 1, DONE <- 0 (R116, R213). -/
def State.issue (s : State) (hi : Word) : State :=
  { s with cmdHi := hi, cl := hi ++ s.cmdLo, status := s.status.issue }

/-- Every piece of state but OM at the value of R120: the soft reset of R1301. A running command is aborted and
writes nothing (R1310). The build, the pin level and what the environment still does are not the block's state. -/
def State.softReset (s : State) : State :=
  { s with
    x := Vector.replicate 16 BigReg.zero
    cl := 0
    ie := false
    status := Status.zero
    lasterr := LastErr.zero
    res := 0
    cmdLo := 0
    cmdHi := 0 }

/-- rst_n falls: the block is held in reset (R1300; OM is unspecified from here on and is left as it is, log 9). -/
def State.powerDown (s : State) : State := { s.softReset with rstN := false }

/-- rst_n rises: the reset state of R120, with OM holding whatever the RAM holds (R1300, R1302). -/
def State.powerOn (s : State) (om : List (Nat × Word)) : State :=
  { s.softReset with rstN := true, om := Memory.ofContents s.cfg.omw om }

end Sys2Proof.Machine
end

