-- ==== Sys2Proof/Machine/Aperture.lean ====
section
/-! DEFINITION. The host aperture: the register block (10_state.md R110 to R119), the host's view of OM, and what a
host access does while the engine is busy or where it is illegal (20_memory.md R200 to R212, 60_exceptions.md
R1208). -/

namespace Sys2Proof.Machine

/-- The byte offset of a register (R110). -/
def HostReg.offset : HostReg → Nat
  | .id => 0x000
  | .version => 0x004
  | .cfg => 0x008
  | .omsize => 0x00C
  | .ctrl => 0x010
  | .status => 0x014
  | .lasterr => 0x018
  | .res => 0x01C
  | .cmdlo => 0x020
  | .cmdhi => 0x024

/-- The registers in the order of R110. -/
def HostReg.all : List HostReg :=
  [.id, .version, .cfg, .omsize, .ctrl, .status, .lasterr, .res, .cmdlo, .cmdhi]

/-- Byte offset of the host's view of OM (R201). -/
abbrev omOffset : Nat := 0x40000

/-- What an aligned 32-bit access at a byte offset reaches (R211). -/
def mapOffset (c : Config) (off : Nat) : Target :=
  match HostReg.all.find? (fun r => r.offset == off) with
  | some r => .reg r
  | none => if omOffset ≤ off ∧ off < omOffset + 4 * c.omw then .om ((off - omOffset) / 4) else .illegal

/-- What a request of a size at an offset reaches: only a 32-bit access at a multiple of 4 is defined (R203, R206). -/
def target (c : Config) (off : BitVec 19) (size : Size) : Target :=
  if size = .b32 ∧ off.toNat % 4 = 0 then mapOffset c off.toNat else .illegal

/-- What a register reads (R111 to R118). Reading has no side effect (R110, R208). -/
def State.readReg (s : State) : HostReg → Word
  | .id => 0x4E424943
  | .version => 0x00000001
  | .cfg => cfgWord s.cfg
  | .omsize => omsizeWord s.cfg
  | .ctrl => ctrlWord s.ie
  | .status => s.status.word
  | .lasterr => s.lasterr.word
  | .res => s.res
  | .cmdlo => s.cmdLo
  | .cmdhi => s.cmdHi

/-- What a write to a register does: CTRL (R111; SRST = 1 resets and the IE of the same write is ignored, R1301, D53),
STATUS (R112), CMDLO always (R115), CMDHI issues, or is refused while BUSY (R116, R210); the read-only registers
ignore it (R110). -/
def State.writeReg (s : State) (r : HostReg) (data : Word) : State :=
  match r with
  | .ctrl => if data.getLsbD 1 then s.softReset else { s with ie := data.getLsbD 0 }
  | .status => { s with status := s.status.write data }
  | .cmdlo => { s with cmdLo := data }
  | .cmdhi => if s.status.busy then { s with status := s.status.refuse } else s.issue data
  | .id | .version | .cfg | .omsize | .lasterr | .res => s

/-- A host read: the state it leaves and the word it returns. An illegal one sets HERR and returns 0 (R206); one of OM
while BUSY sets OVR and returns 0 (R210). Which of the two an access that is both sets: log 8; that a read sets a
flag at all, against R208's first sentence: log 13. -/
def State.hostRead (s : State) (off : BitVec 19) (size : Size) : State × Word :=
  match target s.cfg off size with
  | .reg r => (s, s.readReg r)
  | .om a =>
    if s.status.busy then ({ s with status := s.status.refuse }, 0) else (s, Memory.readWord s.om a)
  | .illegal => ({ s with status := s.status.illegalAccess }, 0)

/-- A host write. -/
def State.hostWrite (s : State) (off : BitVec 19) (size : Size) (data : Word) : State :=
  match target s.cfg off size with
  | .reg r => s.writeReg r data
  | .om a =>
    if s.status.busy then { s with status := s.status.refuse }
    else { s with om := Memory.writeWord s.om a data }
  | .illegal => { s with status := s.status.illegalAccess }

/-- One host transaction: every request gets a response and never a bus error (R219, R206). -/
def State.serve (s : State) (q : HostReq) : State :=
  match q with
  | .read off size => { (s.hostRead off size).1 with response := .data (s.hostRead off size).2 }
  | .write off size data => { s.hostWrite off size data with response := .ack }

end Sys2Proof.Machine
end

