-- ==== Sys2Proof/Machine/AddSub.lean ====
section
/-! DEFINITION. The multi-word adder/subtractor and its commands ADD and SUB (41_addsub.md R500 to R506). -/

namespace Sys2Proof.Machine

/-- The carry chain of R500 over words, least significant first; Y is padded with zero words, and a carry out of
the top word grows the result by one word. -/
def addLoop : List Word → List Word → Bool → List Word
  | [], _, c => if c then [1] else []
  | x :: xs, ys, c =>
    let s := ext x + ext (ys.headD 0) + ext (carry c)
    lo s :: addLoop xs ys.tail (s.getLsbD 32)

/-- `addMag(X, Y)` (R500): X is the longer operand after the swap. -/
def addMag (X Y : List Word) : List Word :=
  if X.length < Y.length then (addLoop Y.reverse X.reverse false).reverse
  else (addLoop X.reverse Y.reverse false).reverse

/-- Two lists of equal length compared word by word from the most significant word, unsigned (R501). -/
def cmpWords : List Word → List Word → Int
  | x :: xs, y :: ys => if x.toNat < y.toNat then -1 else if y.toNat < x.toNat then 1 else cmpWords xs ys
  | _, _ => 0

/-- `compareMag(X, Y)` (R501): by length first, then by word value. -/
def compareMag (X Y : List Word) : Int :=
  if X.length < Y.length then -1 else if Y.length < X.length then 1 else cmpWords X Y

/-- The borrow chain of R502 over words, least significant first; d is an exact integer. -/
def subLoop : List Word → List Word → Bool → List Word
  | [], _, _ => []
  | x :: xs, ys, b =>
    let d : Int := (x.toNat : Int) - ((ys.headD 0).toNat : Int) - (b.toNat : Int)
    BitVec.ofInt 32 d :: subLoop xs ys.tail (decide (d < 0))

/-- `subMag(X, Y)`, for val(X) > val(Y) (R502). -/
def subMag (X Y : List Word) : List Word := strip (subLoop X.reverse Y.reverse false).reverse

/-- `sadd(a, b)` (R504), by its case split. -/
def sadd (a b : Int) : Int :=
  if b = 0 then a
  else if a = 0 then b
  else if a.sign = b.sign then a.sign * (val (addMag (words a.natAbs) (words b.natAbs)) : Int)
  else
    let c := compareMag (words a.natAbs) (words b.natAbs)
    if c = 0 then 0
    else if 0 < c then a.sign * (val (subMag (words a.natAbs) (words b.natAbs)) : Int)
    else b.sign * (val (subMag (words b.natAbs) (words a.natAbs)) : Int)

/-- ADD xd, xs1, xs2 (R505). -/
def execAdd (rd rs1 rs2 : Reg) (s : State) : Out := s.commitBounded rd (sadd (s.xv rs1) (s.xv rs2))

/-- SUB xd, xs1, xs2 (R506; 90_conflicts.md C1: exactly a - b). -/
def execSub (rd rs1 rs2 : Reg) (s : State) : Out := s.commitBounded rd (sadd (s.xv rs1) (-s.xv rs2))

end Sys2Proof.Machine
end

