-- ==== Sys2Proof/Machine/Bitwise.lean ====
section
/-! DEFINITION. The two's-complement bitwise unit and the commands AND, OR, XOR, ANDNOT, NOT, CLRBIT, BITLEN and
BITCNT (45_bitwise.md R900 to R910). -/

namespace Sys2Proof.Machine

/-- The least index k with lw(X, k) ≠ 0: "index of first nonzero word from the least-significant end" (R900, R122). -/
def firstNonzero (X : List Word) : Nat := X.reverse.findIdx (· != 0)

/-- `tcw(x, k)` (R900): word k of the infinite two's-complement form, derived from sign and magnitude. -/
def tcw (x : Int) (k : Nat) : Word :=
  let X := words x.natAbs
  if X.length ≤ k then (if x < 0 then BitVec.allOnes 32 else 0)
  else
    let w := lw X k
    if 0 ≤ x then w
    else if k < firstNonzero X then 0
    else if k = firstNonzero X then -w
    else ~~~w

/-- The loop of `makePositive` (R901), least significant word first: complement and add the carry. -/
def negLoop : List Word → Bool → List Word
  | [], _ => []
  | w :: ws, c =>
    let t := ext (~~~w) + ext (carry c)
    lo t :: negLoop ws (t.getLsbD 32)

/-- `makePositive(T)` (R901; 90_conflicts.md C8). -/
def makePositive (T : List Word) : List Word := (negLoop T.reverse true).reverse

/-- `valueOf(T)`, for a two's-complement pattern T of at least one word (R901). -/
def valueOf (T : List Word) : Int :=
  if (T.headD 0).getLsbD 31 then -(val (makePositive T) : Int) else (val T : Int)

/-- `L(x)`: the two's-complement length in words (R902). -/
def tcLen (x : Int) : Nat := bitlen x / 32 + 1

/-- The K words T_0 .. T_(K-1) of a pattern given word by word from the least significant end. -/
def pattern (K : Nat) (f : Nat → Word) : List Word := ((List.range K).map f).reverse

/-- `bitwise2(op, a, b)` (R902). -/
def bitwise2 (op : Word → Word → Word) (a b : Int) : Int :=
  valueOf (pattern (max (tcLen a) (tcLen b)) (fun k => op (tcw a k) (tcw b k)))

/-- AND xd, xs1, xs2 (R903). -/
def execAnd (rd rs1 rs2 : Reg) (s : State) : Out :=
  s.commitBounded rd (bitwise2 (fun p q => p &&& q) (s.xv rs1) (s.xv rs2))

/-- OR xd, xs1, xs2 (R904). -/
def execOr (rd rs1 rs2 : Reg) (s : State) : Out :=
  s.commitBounded rd (bitwise2 (fun p q => p ||| q) (s.xv rs1) (s.xv rs2))

/-- XOR xd, xs1, xs2 (R905). -/
def execXor (rd rs1 rs2 : Reg) (s : State) : Out :=
  s.commitBounded rd (bitwise2 (fun p q => p ^^^ q) (s.xv rs1) (s.xv rs2))

/-- ANDNOT xd, xs1, xs2 (R906). -/
def execAndnot (rd rs1 rs2 : Reg) (s : State) : Out :=
  s.commitBounded rd (bitwise2 (fun p q => p &&& ~~~q) (s.xv rs1) (s.xv rs2))

/-- The complement of R907: K = L(a) complemented words. -/
def tcNot (a : Int) : Int := valueOf (pattern (tcLen a) (fun k => ~~~(tcw a k)))

/-- NOT xd, xs (R907; 90_conflicts.md C2: one operand). -/
def execNot (rd rs1 : Reg) (s : State) : Out := s.commitBounded rd (tcNot (s.xv rs1))

/-- `a & ~(2^i)` by R908's words, K = max(L(a), fdiv(i+1, 32) + 1) (R902; 90_conflicts.md C5). -/
def tcClrbit (a : Int) (i : Nat) : Int :=
  valueOf (pattern (max (tcLen a) ((i + 1) / 32 + 1)) (fun k =>
    if k = i / 32 then tcw a k &&& ~~~((1 : Word) <<< (i % 32)) else tcw a k))

/-- CLRBIT xd, xs, simm (R908). An index at or above 32·L(a) reads the sign: there the bit of a ≥ 0 is already 0 and a is
unchanged, and for a < 0 the result a - 2^i needs more than MAXW words once i ≥ 32·MAXW; both outcomes are the
rule's, decided without forming i / 32 words (log 12). -/
def execClrbit (rd rs1 : Reg) (imm : BitVec 32) (s : State) : Out :=
  if simm imm < 0 then s.err .domainBitIndex
  else
    let a := s.xv rs1
    let i := (simm imm).toNat
    if 32 * tcLen a ≤ i ∧ 0 ≤ a then s.commitBounded rd a
    else if 32 * tcLen a ≤ i ∧ 32 * s.cfg.maxw ≤ i then s.err .capacity
    else s.commitBounded rd (tcClrbit a i)

/-- BITLEN xs (R909). -/
def execBitlen (rs1 : Reg) (s : State) : Out := s.commitRes (bitlen (s.xv rs1))

/-- The count of R910: for a negative value, the bits that differ from the sign bit (D25). -/
def bitcnt (v : Int) : Nat := if 0 ≤ v then popcount v.toNat else popcount (-v - 1).toNat

/-- BITCNT xs (R910). -/
def execBitcnt (rs1 : Reg) (s : State) : Out := s.commitRes (bitcnt (s.xv rs1))

end Sys2Proof.Machine
end

