-- ==== Sys2Proof/Machine/Compare.lean ====
section
/-! DEFINITION. The compare and sign unit: CMP, EQ, ABS and NEG (47_compare.md R1100 to R1103). -/

namespace Sys2Proof.Machine

/-- The three-way compare of R1100 (90_conflicts.md C7: two negatives order the other way round). -/
def scmp (a b : Int) : Int :=
  if a.sign = b.sign then
    let c := compareMag (words a.natAbs) (words b.natAbs)
    if 0 ≤ a.sign then c else -c
  else if b.sign < a.sign then 1 else -1

/-- CMP xs1, xs2 (R1100). -/
def execCmp (rs1 rs2 : Reg) (s : State) : Out := s.commitRes (scmp (s.xv rs1) (s.xv rs2))

/-- The equality of R1101: equal signs and identical magnitude words. -/
def sameValue (a b : Int) : Bool := a.sign = b.sign ∧ words a.natAbs = words b.natAbs

/-- EQ xs1, xs2 (R1101). -/
def execEq (rs1 rs2 : Reg) (s : State) : Out := s.commitRes (if sameValue (s.xv rs1) (s.xv rs2) then 1 else 0)

/-- ABS xd, xs (R1102). -/
def execAbs (rd rs1 : Reg) (s : State) : Out := s.commitX rd (s.xv rs1).natAbs

/-- NEG xd, xs (R1103). -/
def execNeg (rd rs1 : Reg) (s : State) : Out := s.commitX rd (-s.xv rs1)

end Sys2Proof.Machine
end

