-- ==== Sys2Proof/Machine/Shift.lean ====
section
/-! DEFINITION. The limb shifter and the commands SHL and SHR (46_shift.md R1000 to R1006). -/

namespace Sys2Proof.Machine

/-- The loop of R1001, least significant word first, with the bits carried into the next word. -/
def shlLoop (nb : Nat) : List Word → Word → List Word
  | [], c => [c]
  | w :: ws, c => ((w <<< nb) ||| c) :: shlLoop nb ws (w >>> (32 - nb))

/-- `shlBits(X, nb)`, for 1 ≤ nb ≤ 31 (R1001). -/
def shlBits (X : List Word) (nb : Nat) : List Word := strip (shlLoop nb X.reverse 0).reverse

/-- The loop of R1002, least significant word first: each word takes the low bits of the next. -/
def shrLoop (nb : Nat) : List Word → List Word
  | [] => []
  | w :: ws => ((w >>> nb) ||| (ws.headD 0 <<< (32 - nb))) :: shrLoop nb ws

/-- `shrBits(X, nb)`, for 1 ≤ nb ≤ 31 (R1002). -/
def shrBits (X : List Word) (nb : Nat) : List Word := strip (shrLoop nb X.reverse).reverse

/-- `shlMag(X, n)` (R1003), split as R1000 says: n / 32 whole words, then n mod 32 bits. -/
def shlMag (X : List Word) (n : Nat) : List Word :=
  if X = [] then []
  else
    let Y := X ++ List.replicate (n / 32) 0
    if n % 32 = 0 then Y else shlBits Y (n % 32)

/-- `shrMag(X, n)` (R1003). -/
def shrMag (X : List Word) (n : Nat) : List Word :=
  if X.length ≤ n / 32 then []
  else
    let Y := X.take (X.length - n / 32)
    if n % 32 = 0 then Y else shrBits Y (n % 32)

/-- `lost(X, n)` (R1003): some 1 bit is shifted off, that is, val(X) mod 2^n ≠ 0; read from the words removed and
the low bits of the next. -/
def lost (X : List Word) (n : Nat) : Bool :=
  let R := X.reverse
  (R.take (n / 32)).any (· != 0) || (((R.drop (n / 32)).headD 0).toNat % 2 ^ (n % 32) != 0)

/-- `sshr(a, n)` (R1003): floor(a / 2^n). -/
def sshr (a : Int) (n : Nat) : Int :=
  if 0 ≤ a then (val (shrMag (words a.toNat) n) : Int)
  else
    let m := val (shrMag (words (-a).toNat) n)
    Int.neg (if lost (words (-a).toNat) n then m + 1 else m : Nat)

/-- `sgn(a)·val(shlMag(words(|a|), n))` (R1004): a·2^n. -/
def sshl (a : Int) (n : Nat) : Int := a.sign * (val (shlMag (words a.natAbs) n) : Int)

/-- The left shift of R1004 and R1005: CAPACITY is decided from the bit length and the distance, "without forming the
product", and a zero value never raises it (D51). -/
def State.commitShl (s : State) (rd : Reg) (a : Int) (n : Nat) : Out :=
  if a ≠ 0 ∧ 32 * s.cfg.maxw < natBits a.natAbs + n then s.err .capacity else s.commitX rd (sshl a n)

/-- SHL xd, xs, simm (R1004): RANGE(1) for -2^31 whatever the value (D50); a negative distance shifts right. -/
def execShl (rd rs1 : Reg) (imm : BitVec 32) (s : State) : Out :=
  if simm imm = -2 ^ 31 then s.err .range
  else if 0 ≤ simm imm then s.commitShl rd (s.xv rs1) (simm imm).toNat
  else s.commitBounded rd (sshr (s.xv rs1) (-simm imm).toNat)

/-- SHR xd, xs, simm (R1005): a negative distance shifts left. -/
def execShr (rd rs1 : Reg) (imm : BitVec 32) (s : State) : Out :=
  if simm imm = -2 ^ 31 then s.err .range
  else if 0 ≤ simm imm then s.commitBounded rd (sshr (s.xv rs1) (simm imm).toNat)
  else s.commitShl rd (s.xv rs1) (-simm imm).toNat

end Sys2Proof.Machine
end

