-- ==== Sys2Proof/Machine/Divide.lean ====
section
/-! DEFINITION. The long-division engine (Knuth Algorithm D) and the commands DIV, REM, DIVREM and MOD
(43_divide.md R700 to R715). In this file lists are most significant word first, as in the rules. -/

namespace Sys2Proof.Machine

/-! Working buffers (R121, R700 to R702): they live within one command and are no part of State (log 19). -/

/-- A working buffer: a backing array, and the window that holds its value (R700). -/
structure WorkBuf where
  words  : List Word
  offset : Nat
  length : Nat
  deriving DecidableEq, Repr

/-- The active window (R700). -/
def WorkBuf.window (wb : WorkBuf) : List Word := (wb.words.drop wb.offset).take wb.length

/-- `load` (R700), with no slack. -/
def WorkBuf.load (X : List Word) : WorkBuf := ⟨X, 0, X.length⟩

/-- `clear` (R700). -/
def WorkBuf.clear (wb : WorkBuf) : WorkBuf := { wb with offset := 0, length := 0 }

/-- The loop of `normalize`, over the length: skip leading zero words; an empty window goes back to offset 0. -/
def normLoop (ws : List Word) : Nat → Nat → WorkBuf
  | _, 0 => ⟨ws, 0, 0⟩
  | off, n + 1 => if ws.getD off 0 = 0 then normLoop ws (off + 1) n else ⟨ws, off, n + 1⟩

/-- `normalize` (R700). -/
def WorkBuf.normalize (wb : WorkBuf) : WorkBuf := normLoop wb.words wb.offset wb.length

/-- `toValue` (R700): the canonical magnitude copied out of the window. -/
def WorkBuf.toValue (wb : WorkBuf) : List Word := strip wb.window

/-- `leftShift` (R701): by the primitive shifts of 46_shift.md, then normalize. -/
def WorkBuf.leftShift (wb : WorkBuf) (k : Nat) : WorkBuf := (WorkBuf.load (shlMag wb.window k)).normalize

/-- `rightShift` (R701). -/
def WorkBuf.rightShift (wb : WorkBuf) (k : Nat) : WorkBuf := (WorkBuf.load (shrMag wb.window k)).normalize

/-- Working-buffer compare (R702). -/
def WorkBuf.compare (a b : WorkBuf) : Int := compareMag a.toValue b.toValue

/-! The division datapath. -/

/-- The loop of R704, most significant word first, with the running remainder word r < d. -/
def divOneLoop (d : Word) : List Word → Word → List Word × Word
  | [], r => ([], r)
  | u :: us, r =>
    let t := cat r u
    let rest := divOneLoop d us (lo (rem64 t d))
    (lo (div64 t d) :: rest.1, rest.2)

/-- `divOneWord(U, d)`, for d ≠ 0 (R704). -/
def divOneWord (U : List Word) (d : Word) : List Word × List Word :=
  let r := divOneLoop d U 0
  (strip r.1, words r.2.toNat)

/-- The digit estimate of R706 with the one-iteration correction of R707, from the top three words of the window and the
top two of the divisor. -/
def estimate (nh nm nl dh dl : Word) : Word :=
  let capped := nh = dh
  let qhat : Word := if capped then BitVec.allOnes 32 else lo (div64 (cat nh nm) dh)
  let rhat : DWord := if capped then ext nh + ext nm else rem64 (cat nh nm) dh
  let skip := capped ∧ 2 ^ 32 ≤ rhat.toNat
  if ¬ skip ∧ (cat (lo rhat) nl).toNat < (ext qhat * ext dl).toNat then qhat - 1 else qhat

/-- The loop of R708, least significant word first: subtract qhat·Vn with the carry-and-borrow word c, 0 ≤ c ≤ B. -/
def mulSubLoop (qhat : Word) : List Word → List Word → DWord → List Word × DWord
  | v :: vs, u :: us, c =>
    let p := ext qhat * ext v + c
    let rest := mulSubLoop qhat vs us (ext (hi p) + ext (carry (decide (u.toNat < (lo p).toNat))))
    ((u - lo p) :: rest.1, rest.2)
  | _, _, c => ([], c)

/-- The loop of R709, least significant word first: add the divisor back; the last carry is returned. -/
def addBackLoop : List Word → List Word → Bool → List Word × Bool
  | v :: vs, u :: us, c =>
    let t := ext u + ext v + ext (carry c)
    let rest := addBackLoop vs us (t.getLsbD 32)
    (lo t :: rest.1, rest.2)
  | _, _, c => ([], c)

/-- R706 to R709 for one quotient digit: the window is u0 above the words W; the digit and the words left below the
window's top word, which is then 0. -/
def knuthDigit (Vn : List Word) (u0 : Word) (W : List Word) : Word × List Word :=
  let qhat := estimate u0 (W.getD 0 0) (W.getD 1 0) (Vn.getD 0 0) (Vn.getD 1 0)
  let ms := mulSubLoop qhat Vn.reverse W.reverse 0
  if u0.toNat < ms.2.toNat then
    (qhat - 1, (addBackLoop Vn.reverse ms.1 false).1.reverse)
  else (qhat, ms.1.reverse)

/-- The digit loop, j = 0 .. m: R holds Un[j .. j+n-1], and the next word of Un completes the window. -/
def knuthLoop (Vn : List Word) : List Word → List Word → List Word × List Word
  | R, [] => ([], R)
  | R, u :: us =>
    let d := knuthDigit Vn (R.headD 0) (R.tail ++ [u])
    let rest := knuthLoop Vn d.2 us
    (d.1 :: rest.1, rest.2)

/-- `divKnuth(U, V)`, for |V| ≥ 2 and val(U) > val(V) (R705 to R710): normalize by s, run the digits, shift the
remainder back. -/
def divKnuth (U V : List Word) : List Word × List Word :=
  let n := V.length
  let s := nlz32 (V.headD 0)
  let Vn := padTo n ((WorkBuf.load V).leftShift s).toValue
  let Un := padTo (U.length + 1) ((WorkBuf.load U).leftShift s).toValue
  let r := knuthLoop Vn (Un.take n) (Un.drop n)
  (strip r.1, ((WorkBuf.load r.2).rightShift s).toValue)

/-- `divMag(U, V)` (R703), in the order of its cases; `none` is `raise DOMAIN(3)`. -/
def divMag (U V : List Word) : Option (List Word × List Word) :=
  if V = [] then none
  else if U = [] then some ([], [])
  else
    let c := (WorkBuf.load U).compare (WorkBuf.load V)
    if c < 0 then some ([], U)
    else if c = 0 then some ([1], [])
    else if V.length = 1 then some (divOneWord U (V.headD 0))
    else some (divKnuth U V)

/-- `sdiv(a, b)` (R711): quotient and remainder; `none` is `raise DOMAIN(3)`. -/
def sdiv (a b : Int) : Option (Int × Int) :=
  match divMag (words a.natAbs) (words b.natAbs) with
  | none => none
  | some (Q, R) => some (a.sign * b.sign * (val Q : Int), a.sign * (val R : Int))

/-! Commands. -/

/-- DIV xd, xs1, xs2 (R712). -/
def execDiv (rd rs1 rs2 : Reg) (s : State) : Out :=
  match sdiv (s.xv rs1) (s.xv rs2) with
  | none => s.err .domainDivisor
  | some (q, _) => s.commitX rd q

/-- REM xd, xs1, xs2 (R713). -/
def execRem (rd rs1 rs2 : Reg) (s : State) : Out :=
  match sdiv (s.xv rs1) (s.xv rs2) with
  | none => s.err .domainDivisor
  | some (_, r) => s.commitX rd r

/-- DIVREM xq, xr, xs1, xs2 (R714): both destinations at commit; the sources are read first (R400). -/
def execDivrem (rd rd2 rs1 rs2 : Reg) (s : State) : Out :=
  match sdiv (s.xv rs1) (s.xv rs2) with
  | none => s.err .domainDivisor
  | some (q, r) => .next ((s.setX rd q).setX rd2 r).commit

/-- MOD xd, xs1, xs2 (R715; 90_conflicts.md C6: m = 0 raises DOMAIN(2)). -/
def execMod (rd rs1 rs2 : Reg) (s : State) : Out :=
  if s.xv rs2 ≤ 0 then s.err .domainModulus
  else
    match sdiv (s.xv rs1) (s.xv rs2) with
    | none => s.err .domainDivisor
    | some (_, r) => s.commitX rd (if r < 0 then r + s.xv rs2 else r)

end Sys2Proof.Machine
end

