-- ==== Sys2Proof/Machine/Multiply.lean ====
section
/-! DEFINITION. The word-by-word multiplier and squarer and the commands MUL, SQR and POW (42_multiply.md R600 to
R605). The loops run on lists least significant word first; a word no later row touches is emitted as it becomes
final, which is the in-place loop of the rule (log 14). -/

namespace Sys2Proof.Machine

/-- One row of R600 and R601: multiply the words of Y by x into Z with carry, and write the last carry at the word
after them. -/
def mulRow (x : Word) : List Word → List Word → Word → List Word
  | _, [], _ => []
  | [], _ :: zs, c => c :: zs
  | y :: ys, z :: zs, c =>
    let p := mulAdd64 x y z c
    lo p :: mulRow x ys zs (hi p)

/-- The row loop of R600: word i of the shorter operand into Z from position i on. -/
def mulLoop : List Word → List Word → List Word → List Word
  | [], _, Z => Z
  | x :: xs, ys, Z =>
    match mulRow x ys Z 0 with
    | [] => []
    | w :: Z' => w :: mulLoop xs ys Z'

/-- `mulMag(X, Y)` (R600), the shorter operand outside. -/
def mulMag (X Y : List Word) : List Word :=
  let Z := List.replicate (X.length + Y.length) 0
  if X.length > Y.length then strip (mulLoop Y.reverse X.reverse Z).reverse
  else strip (mulLoop X.reverse Y.reverse Z).reverse

/-- R601 step 1, the upper triangle: row i adds x_i·x_j for j > i at word i + j. -/
def sqrTriangle : List Word → List Word → List Word
  | [], Z => Z
  | x :: xs, z :: Z =>
    match mulRow x xs Z 0 with
    | [] => [z]
    | r :: Z' => z :: r :: sqrTriangle xs Z'
  | _ :: _, [] => []

/-- R601 step 2, doubling: a one-bit left shift across all words. -/
def sqrDouble : List Word → Bool → List Word
  | [], _ => []
  | z :: Z, c =>
    let t := 2 * ext z + ext (carry c)
    lo t :: sqrDouble Z (t.getLsbD 32)

/-- R601 step 3, adding the diagonal x_i² at word 2i. -/
def sqrDiagonal : List Word → List Word → Bool → List Word
  | x :: xs, z0 :: z1 :: Z, c =>
    let p := mulAdd64 x x z0 (carry c)
    let t := ext z1 + ext (hi p)
    lo p :: lo t :: sqrDiagonal xs Z (t.getLsbD 32)
  | _, Z, _ => Z

/-- `sqrMag(X)` (R601). -/
def sqrMag (X : List Word) : List Word :=
  let xs := X.reverse
  let Z := List.replicate (2 * X.length) 0
  strip (sqrDiagonal xs (sqrDouble (sqrTriangle xs Z) false) false).reverse

/-- The loop of R602; `fuel` is at least the number of bits of e, so it never runs out first. -/
def powLoop : Nat → List Word → List Word → Nat → List Word
  | 0, R, _, _ => R
  | fuel + 1, R, P, e =>
    if e = 0 then R
    else
      let R' := if e % 2 = 1 then mulMag R P else R
      powLoop fuel R' (if 0 < e / 2 then sqrMag P else P) (e / 2)

/-- `powMag(X, e)` (R602): the accumulator starts at 1 (D24). -/
def powMag (X : List Word) (e : Nat) : List Word := powLoop (natBits e) [1] X e

/-- The signed product of R603. -/
def smul (a b : Int) : Int :=
  if a = 0 ∨ b = 0 then 0 else a.sign * b.sign * (val (mulMag (words a.natAbs) (words b.natAbs)) : Int)

/-- MUL xd, xs1, xs2 (R603). -/
def execMul (rd rs1 rs2 : Reg) (s : State) : Out := s.commitBounded rd (smul (s.xv rs1) (s.xv rs2))

/-- The square of R604. -/
def ssqr (a : Int) : Int := if a = 0 then 0 else (val (sqrMag (words a.natAbs)) : Int)

/-- SQR xd, xs (R604). -/
def execSqr (rd rs1 : Reg) (s : State) : Out := s.commitBounded rd (ssqr (s.xv rs1))

/-- The signed power of R605 for e ≥ 0. -/
def spow (a : Int) (e : Nat) : Int :=
  let m : Int := val (powMag (words a.natAbs) e)
  if a < 0 ∧ e % 2 = 1 then -m else m

/-- POW xd, xs, simm (R605). CAPACITY is decided from the bit length where |a|^e ≥ 2^((bits-1)·e) ≥ B^MAXW already
settles it; the outcome is the rule's (log 12). -/
def execPow (rd rs1 : Reg) (imm : BitVec 32) (s : State) : Out :=
  if simm imm < 0 then s.err .domainExponent
  else if 32 * s.cfg.maxw ≤ (natBits (s.xv rs1).natAbs - 1) * (simm imm).toNat then s.err .capacity
  else s.commitBounded rd (spow (s.xv rs1) (simm imm).toNat)

end Sys2Proof.Machine
end

