-- ==== Sys2Proof/Machine/ModPow.lean ====
section
/-! DEFINITION. The Montgomery multiplier, the modular-exponentiation pipeline and the command MODPOW (44_modpow.md
R800 to R807). The Montgomery loops run on lists least significant word first. -/

namespace Sys2Proof.Machine

/-- One Newton step of R800. -/
def newtonStep (v t : Word) : Word := t * (2 - v * t)

/-- `inverseMod32(v)`, for odd v (R800): seed v, four steps (D45). -/
def inverseMod32 (v : Word) : Word := newtonStep v (newtonStep v (newtonStep v (newtonStep v v)))

/-- The Montgomery multiplier word n' = -inverseMod32(m0) (R801; 90_conflicts.md C3). -/
def montWord (m0 : Word) : Word := -inverseMod32 m0

/-- "propagating carry" of R802: add the carry word into the words above, while it is not 0. -/
def carryLoop : List Word → Word → List Word
  | [], _ => []
  | z :: Z, c =>
    if c = 0 then z :: Z
    else
      let t := ext z + ext c
      lo t :: carryLoop Z (carry (t.getLsbD 32))

/-- One multiply-accumulate of R802: u·M into Z, and the carry above it. -/
def montRow (u : Word) : List Word → List Word → Word → List Word
  | [], Z, c => carryLoop Z c
  | _ :: _, [], _ => []
  | m :: ms, z :: Z, c =>
    let p := mulAdd64 u m z c
    lo p :: montRow u ms Z (hi p)

/-- The loop of R802 for the low words: each row clears the low word, which is dropped: the shift right by one word of
"shift the result right by modulusLength words" (log 14). -/
def montLoop (M : List Word) (n' : Word) : Nat → List Word → List Word
  | 0, Z => Z
  | i + 1, Z => montLoop M n' i (montRow (Z.headD 0 * n') M Z 0).tail

/-- `montReduce(T, M, n, n')` (R802), M most significant word first and n = |M|. -/
def montReduce (T : Nat) (M : List Word) (n' : Word) : Nat :=
  let n := M.length
  let Y := valLE (montLoop M.reverse n' n (wordsLE (2 * n + 1) T))
  if val M ≤ Y then Y - val M else Y

/-- `mm(x, y)` (R804). -/
def mm (M : List Word) (n' : Word) (x y : Nat) : Nat := montReduce (val (mulMag (words x) (words y))) M n'

/-- `msq(x)` (R804). -/
def msq (M : List Word) (n' : Word) (x : Nat) : Nat := montReduce (val (sqrMag (words x))) M n'

/-- `fmod(val X, m)` for m > 0, by the division engine; the engine's `none` (an empty divisor) cannot come up. -/
def engineMod (X : List Word) (m : Nat) : Nat :=
  match divMag X (words m) with
  | none => 0
  | some (_, R) => val R

/-- The loop of R805 over the exponent bits i-1 .. 0, most significant first. -/
def montPow (M : List Word) (n' : Word) (bm e : Nat) : Nat → Nat → Nat
  | 0, acc => acc
  | i + 1, acc =>
    let a := msq M n' acc
    montPow M n' bm e i (if e.testBit i then mm M n' a bm else a)

/-- `oddModPow(b, e, m)`, for odd m ≥ 1 and b in [0, m) (R805). -/
def oddModPow (b e m : Nat) : Nat :=
  let M := words m
  let n' := montWord (lw M 0)
  let bm := engineMod (words (b * wordBase ^ M.length)) m
  let acc := engineMod (words (wordBase ^ M.length)) m
  montReduce (montPow M n' bm e (natBits e) acc) M n'

/-- The loop of R806; `fuel` is at least the number of bits of e. -/
def genLoop (m : Nat) : Nat → Nat → Nat → Nat → Nat
  | 0, r, _, _ => r
  | fuel + 1, r, p, e =>
    if e = 0 then r
    else
      let r' := if e % 2 = 1 then engineMod (mulMag (words r) (words p)) m else r
      genLoop m fuel r' (if 0 < e / 2 then engineMod (sqrMag (words p)) m else p) (e / 2)

/-- `genModPow(b, e, m)`, for even m ≥ 2 and b in [0, m) (R806). -/
def genModPow (b e m : Nat) : Nat := genLoop m (natBits e) 1 b e

/-- The non-negative residue of an integer by the division engine, as R715 computes it, for m > 0. -/
def residue (a m : Int) : Int :=
  match sdiv a m with
  | none => 0
  | some (_, r) => if r < 0 then r + m else r

/-- MODPOW xd, xb, xe, xm (R807): the modulus is checked first (D21), then the exponent; the parity of the modulus
chooses the path (U1). -/
def execModpow (rd rs1 rs2 rs3 : Reg) (s : State) : Out :=
  if s.xv rs3 ≤ 0 then s.err .domainModulus
  else if s.xv rs2 < 0 then s.err .domainExponent
  else
    let m := (s.xv rs3).toNat
    let e := (s.xv rs2).toNat
    let bb := (residue (s.xv rs1) (s.xv rs3)).toNat
    s.commitX rd ((if m % 2 = 1 then oddModPow bb e m else genModPow bb e m : Nat) : Int)

end Sys2Proof.Machine
end

