-- ==== Sys2Proof/Machine/Transfer.lean ====
section
/-! DEFINITION. The transfer and conversion commands (40_transfer.md R401 to R409). Every source is read before
anything is written (R400): each meaning computes its results from `s` and then commits. -/

namespace Sys2Proof.Machine

/-- NOP (R401): nothing but the completion. -/
def execNop (s : State) : Out := .next s.commit

/-- LDI xd, simm (R402). -/
def execLdi (rd : Reg) (imm : BitVec 32) (s : State) : Out := s.commitX rd (simm imm)

/-- LDMAG xd, addr, len, sign (R403), its four checks in their order. -/
def execLdmag (rd : Reg) (addr len : BitVec 16) (sg : BitVec 2) (s : State) : Out :=
  let a := omField addr
  let n := omField len
  let sign := signOf sg
  let X := strip (Memory.read s.om a n)
  if s.cfg.omw < a + n then s.err .omRange
  else if sign < -1 then s.err .constructSign
  else if (sign = 0) ≠ (X = []) then s.err .constructMismatch
  else if s.cfg.maxw < X.length then s.err .capacity
  else s.commitX rd (sign * (val X : Int))

/-- STMAG xs, addr (R404): the magnitude to OM, its length to RES. -/
def execStmag (rs1 : Reg) (addr : BitVec 16) (s : State) : Out :=
  s.commitStore (omField addr) (words (s.xv rs1).natAbs)

/-- The minimal two's-complement word form of R405: k = fdiv(bitlen(v), 32) + 1 words through the accessor of R900. -/
def tcForm (v : Int) : List Word := pattern (tcLen v) (tcw v)

/-- STTC xs, addr (R405). -/
def execSttc (rs1 : Reg) (addr : BitVec 16) (s : State) : Out :=
  s.commitStore (omField addr) (tcForm (s.xv rs1))

/-- MOV xd, xs (R406). -/
def execMov (rd rs1 : Reg) (s : State) : Out := s.commitX rd (s.xv rs1)

/-- SIGNUM xs (R407). -/
def execSignum (rs1 : Reg) (s : State) : Out := s.commitRes (s.xv rs1).sign

/-- MAGLEN xs (R408). -/
def execMaglen (rs1 : Reg) (s : State) : Out := s.commitRes (words (s.xv rs1).natAbs).length

/-- LOWORD xs (R409): the low word of the infinite two's-complement form. -/
def execLoword (rs1 : Reg) (s : State) : Out := s.commitRes (s.xv rs1)

end Sys2Proof.Machine
end

