-- ==== Sys2Proof/Machine/Dispatch.lean ====
section
/-! DEFINITION. The dispatch: one arm per command, one meaning per arm. -/

namespace Sys2Proof.Machine

/-- The completion step of one well-formed command (20_memory.md R213): it commits or errs (R1200). -/
def exec (i : Instr) (s : State) : Host.Outcome State Fault Refusal :=
  match i with
  | .nop => Sys2Proof.Machine.execNop s
  | .ldi rd imm => Sys2Proof.Machine.execLdi rd imm s
  | .ldmag rd addr len sg => Sys2Proof.Machine.execLdmag rd addr len sg s
  | .stmag rs1 addr => Sys2Proof.Machine.execStmag rs1 addr s
  | .sttc rs1 addr => Sys2Proof.Machine.execSttc rs1 addr s
  | .mov rd rs1 => Sys2Proof.Machine.execMov rd rs1 s
  | .signum rs1 => Sys2Proof.Machine.execSignum rs1 s
  | .maglen rs1 => Sys2Proof.Machine.execMaglen rs1 s
  | .loword rs1 => Sys2Proof.Machine.execLoword rs1 s
  | .add rd rs1 rs2 => Sys2Proof.Machine.execAdd rd rs1 rs2 s
  | .sub rd rs1 rs2 => Sys2Proof.Machine.execSub rd rs1 rs2 s
  | .mul rd rs1 rs2 => Sys2Proof.Machine.execMul rd rs1 rs2 s
  | .sqr rd rs1 => Sys2Proof.Machine.execSqr rd rs1 s
  | .pow rd rs1 imm => Sys2Proof.Machine.execPow rd rs1 imm s
  | .div rd rs1 rs2 => Sys2Proof.Machine.execDiv rd rs1 rs2 s
  | .rem rd rs1 rs2 => Sys2Proof.Machine.execRem rd rs1 rs2 s
  | .divrem rd rd2 rs1 rs2 => Sys2Proof.Machine.execDivrem rd rd2 rs1 rs2 s
  | .mod rd rs1 rs2 => Sys2Proof.Machine.execMod rd rs1 rs2 s
  | .modpow rd rs1 rs2 rs3 => Sys2Proof.Machine.execModpow rd rs1 rs2 rs3 s
  | .and rd rs1 rs2 => Sys2Proof.Machine.execAnd rd rs1 rs2 s
  | .or rd rs1 rs2 => Sys2Proof.Machine.execOr rd rs1 rs2 s
  | .xor rd rs1 rs2 => Sys2Proof.Machine.execXor rd rs1 rs2 s
  | .andnot rd rs1 rs2 => Sys2Proof.Machine.execAndnot rd rs1 rs2 s
  | .not rd rs1 => Sys2Proof.Machine.execNot rd rs1 s
  | .clrbit rd rs1 imm => Sys2Proof.Machine.execClrbit rd rs1 imm s
  | .bitlen rs1 => Sys2Proof.Machine.execBitlen rs1 s
  | .bitcnt rs1 => Sys2Proof.Machine.execBitcnt rs1 s
  | .shl rd rs1 imm => Sys2Proof.Machine.execShl rd rs1 imm s
  | .shr rd rs1 imm => Sys2Proof.Machine.execShr rd rs1 imm s
  | .cmp rs1 rs2 => Sys2Proof.Machine.execCmp rs1 rs2 s
  | .eq rs1 rs2 => Sys2Proof.Machine.execEq rs1 rs2 s
  | .abs rd rs1 => Sys2Proof.Machine.execAbs rd rs1 s
  | .neg rd rs1 => Sys2Proof.Machine.execNeg rd rs1 s

end Sys2Proof.Machine
end

