-- ==== Sys2Proof/Machine/Engine.lean ====
section
/-! DEFINITION. The two agents' steps and the reset pin (10_state.md R100, 20_memory.md R213, R214,
70_reset_and_hazards.md R1300). -/

namespace Sys2Proof.Machine

/-- Executing CL: the decoder's verdict (R312), then the command or its ILLEGAL error (R307). -/
def State.execLatch (s : State) : Out :=
  match decode s.cfg.nbr s.cl with
  | .ok i => exec i s
  | .error why => s.err (.illegal why)

/-- The engine's completion step, enabled exactly while BUSY = 1 (R213); held in reset, the block does nothing
(R1300). -/
def State.engineStep (s : State) : Out := if s.rstN && s.status.busy then s.execLatch else .next s

/-- A host transaction. While rst_n is low it has no defined effect and no defined response (R1300, D52): the model
stops (log 9). -/
def State.hostStep (s : State) (q : HostReq) : Out := if s.rstN then .next (s.serve q) else .fault .accessInReset

/-- One event of the agenda. In the same cycle the host's transaction comes first, so that the completion's set wins
over a write of 1 (R1210, log 10). A fall or rise of rst_n that is none changes nothing. -/
def State.onEvent (s : State) (e : Event) : Out :=
  match e with
  | .host q => s.hostStep q
  | .complete => s.engineStep
  | .sameCycle q => if s.rstN then (s.serve q).engineStep else .fault .accessInReset
  | .rstLow => if s.rstN then .next s.powerDown else .next s
  | .rstHigh om => if s.rstN then .next s else .next (s.powerOn om)

/-- The next event happens; with none left the engine acts if it is busy, and an idle block waits (R213, R1303,
log 2). -/
def State.advance (s : State) : Out :=
  match s.agenda with
  | [] => s.engineStep
  | e :: rest => ({ s with agenda := rest } : State).onEvent e

/-- The issue of a command word by the host's two writes, CMDLO then CMDHI (R300, R1306), with the engine to complete
it before anything else that is scheduled (log 15). -/
def State.issueWord (s : State) (c : BitVec 64) : State :=
  let t := ({ s with cmdLo := c.extractLsb' 0 32 } : State).issue (c.extractLsb' 32 32)
  { t with rstN := true, agenda := if s.agenda = [] then [] else .complete :: s.agenda }

end Sys2Proof.Machine
end

