-- ==== Sys2Proof/Machine/Step.lean ====
section
/-! DEFINITION. One step of the machine, and a command placed where the next step runs it. -/

namespace Sys2Proof.Machine

/-- One step: the next event of the total order (20_memory.md R214). -/
def step (s : State) : Host.Outcome State Fault Refusal := s.advance

/-- The command word whose bits are `w`, issued so that the very next step runs it (log 15). -/
def State.withFetchWord (s : State) (nbits w : Nat) : State := s.issueWord (BitVec.ofNat 64 (w % 2 ^ nbits))

end Sys2Proof.Machine
end

