-- ==== Sys2Proof/Machine/Assembler.lean ====
section
/-! DEFINITION. The assembler syntax and the pseudo-instructions (30_encoding.md R310, R311): one line of text to the
commands it stands for. It is a tool convention (D43): no rule of the block reads it, and no step runs it. Where R310 does
not say how blanks, letter case or leading zeros are read: log 16. -/

namespace Sys2Proof

/-! Pseudo-instructions. -/

/-- The expansion of a pseudo-instruction, or none where its constraint in R311 fails: 32·k must fit simm;
MODMUL's destination must not be its modulus. Each command of it is issued and completes on its own. -/
def Pseudo.expand : Pseudo → Option (List Instr)
  | .clr rd => some [.ldi rd 0]
  | .ldone rd => some [.ldi rd 1]
  | .shlw rd rs k =>
    if -2 ^ 31 ≤ 32 * k ∧ 32 * k < 2 ^ 31 then some [.shl rd rs (BitVec.ofInt 32 (32 * k))] else none
  | .modmul rd ra rb rm => if rd = rm then none else some [.mul rd ra rb, .mod rd rd rm]
  | .setsign rd rs => some [.abs rd rs, .neg rd rd]

namespace Asm

/-! Characters and tokens. -/

/-- A line up to its comment. -/
def stripComment (l : List Char) : List Char := l.takeWhile (· != ';')

/-- Blanks cut off both ends. -/
def trim (l : List Char) : List Char := ((l.dropWhile (· == ' ')).reverse.dropWhile (· == ' ')).reverse

/-- The pieces between commas; an empty text has none. -/
def splitCommas : List Char → List (List Char)
  | [] => []
  | c :: cs =>
    match splitCommas cs with
    | [] => if c = ',' then [[], []] else [[c]]
    | p :: ps => if c = ',' then [] :: p :: ps else (c :: p) :: ps

/-- The value of a digit in base 16. -/
def digit (c : Char) : Option Nat :=
  if '0' ≤ c ∧ c ≤ '9' then some (c.toNat - 48)
  else if 'a' ≤ c ∧ c ≤ 'f' then some (c.toNat - 87)
  else if 'A' ≤ c ∧ c ≤ 'F' then some (c.toNat - 55)
  else none

/-- Digits of a base, most significant first, after the value read so far. -/
def digits (base : Nat) : List Char → Nat → Option Nat
  | [], v => some v
  | c :: cs, v =>
    match digit c with
    | some d => if d < base then digits base cs (v * base + d) else none
    | none => none

/-- A nonempty number in a base. -/
def number (base : Nat) (l : List Char) : Option Nat := if l = [] then none else digits base l 0

/-- An immediate as written: its value, and whether it was hexadecimal (R310). -/
def integer (l : List Char) : Option (Int × Bool) :=
  match l with
  | '-' :: ds => (number 10 ds).map (fun v => (-(v : Int), false))
  | '0' :: 'x' :: ds => (number 16 ds).map (fun v => ((v : Int), true))
  | ds => (number 10 ds).map (fun v => ((v : Int), false))

/-- An LI or RI immediate: in [-2^31, 2^31), or in [2^31, 2^32) when written in hex. -/
def imm32 (l : List Char) : Option (BitVec 32) :=
  match integer l with
  | some (v, hex) =>
    if (-2 ^ 31 ≤ v ∧ v < 2 ^ 31) ∨ (hex = true ∧ 2 ^ 31 ≤ v ∧ v < 2 ^ 32) then some (BitVec.ofInt 32 v) else none
  | none => none

/-- addr and len lie in [0, 65535]. -/
def imm16 (l : List Char) : Option (BitVec 16) :=
  match integer l with
  | some (v, _) => if 0 ≤ v ∧ v ≤ 65535 then some (BitVec.ofInt 16 v) else none
  | none => none

/-- A register `x0` to `x15`. -/
def reg (l : List Char) : Option Reg :=
  match l with
  | ['x', a] => (number 10 [a]).bind (fun v => if h : v < 16 then some ⟨v, h⟩ else none)
  | ['x', '1', a] => (number 10 [a]).bind (fun v => if h : 10 + v < 16 then some ⟨10 + v, h⟩ else none)
  | _ => none

/-- The sign operand of LDMAG. -/
def sign (l : List Char) : Option (BitVec 2) :=
  match l with
  | ['-', '1'] => some 0b11
  | ['0'] => some 0b00
  | ['+', '1'] => some 0b01
  | ['-', '2'] => some 0b10
  | _ => none

/-! Lines. -/

/-- The mnemonics of R306. -/
def mnemonic : Opcode → String
  | .nop => "NOP" | .ldi => "LDI" | .ldmag => "LDMAG" | .stmag => "STMAG" | .sttc => "STTC" | .mov => "MOV"
  | .signum => "SIGNUM" | .maglen => "MAGLEN" | .loword => "LOWORD" | .add => "ADD" | .sub => "SUB" | .mul => "MUL"
  | .sqr => "SQR" | .pow => "POW" | .div => "DIV" | .rem => "REM" | .divrem => "DIVREM" | .mod => "MOD"
  | .modpow => "MODPOW" | .and => "AND" | .or => "OR" | .xor => "XOR" | .andnot => "ANDNOT" | .not => "NOT"
  | .clrbit => "CLRBIT" | .bitlen => "BITLEN" | .bitcnt => "BITCNT" | .shl => "SHL" | .shr => "SHR" | .cmp => "CMP"
  | .eq => "EQ" | .abs => "ABS" | .neg => "NEG"

/-- The word of an opcode with its operands, in the order of the "assembler operands" column of R305. -/
def word (o : Opcode) (ops : List (List Char)) : Option (BitVec 64) :=
  match o.format, ops with
  | .N, [] => some (pack o.byte 0 0 0 0 0 0)
  | .LI, [d, i] => do some (pack o.byte (← reg d) 0 0 0 0 (← imm32 i))
  | .LM, [d, a, n, g] => do
    let a ← imm16 a
    let n ← imm16 n
    some (pack o.byte (← reg d) 0 0 0 (← sign g) (n ++ a))
  | .SM, [s, a] => do
    let a ← imm16 a
    some (pack o.byte 0 (← reg s) 0 0 0 ((0 : BitVec 16) ++ a))
  | .R1, [d, s] => do some (pack o.byte (← reg d) (← reg s) 0 0 0 0)
  | .R2, [d, s, t] => do some (pack o.byte (← reg d) (← reg s) (← reg t) 0 0 0)
  | .R3, [d, b, e, m] => do some (pack o.byte (← reg d) (← reg b) (← reg e) (← reg m) 0 0)
  | .D2, [q, r, s, t] => do some (pack o.byte (← reg q) (← reg s) (← reg t) (← reg r) 0 0)
  | .RI, [d, s, i] => do some (pack o.byte (← reg d) (← reg s) 0 0 0 (← imm32 i))
  | .Q1, [s] => do some (pack o.byte 0 (← reg s) 0 0 0 0)
  | .Q2, [s, t] => do some (pack o.byte 0 (← reg s) (← reg t) 0 0 0)
  | _, _ => none

/-- A pseudo-instruction with its operands (R311). -/
def pseudo (name : List Char) (ops : List (List Char)) : Option Pseudo :=
  if name = "CLR".toList then
    match ops with
    | [d] => do some (.clr (← reg d))
    | _ => none
  else if name = "LDONE".toList then
    match ops with
    | [d] => do some (.ldone (← reg d))
    | _ => none
  else if name = "SHLW".toList then
    match ops with
    | [d, s, k] => do some (.shlw (← reg d) (← reg s) (← integer k).1)
    | _ => none
  else if name = "MODMUL".toList then
    match ops with
    | [d, a, b, m] => do some (.modmul (← reg d) (← reg a) (← reg b) (← reg m))
    | _ => none
  else if name = "SETSIGN".toList then
    match ops with
    | [d, s, v] => if v = "-1".toList then do some (.setsign (← reg d) (← reg s)) else none
    | _ => none
  else none

/-- One line: nothing for a blank or a comment, one command for a mnemonic, the expansion for a pseudo-instruction; none
where the line is not of R310 or R311. Register indices are checked against NBR only when the command runs (R307). -/
def line (l : List Char) : Option (List Instr) :=
  let t := trim (stripComment l)
  let name := t.takeWhile (· != ' ')
  let ops := (splitCommas (trim (t.dropWhile (· != ' ')))).map trim
  if t = [] then some []
  else
    match Opcode.all.find? (fun o => (mnemonic o).toList == name) with
    | some o => (word o ops).map (fun w => [o.build w])
    | none => (pseudo name ops).bind Pseudo.expand

end Asm

end Sys2Proof
end

