-- ==== Sys2Proof/Safety.lean ====
section
/-! DEFINITION. What a safe state of the block is: the invariant that every step keeps, and the completion record in
the spec's own terms, which the claims use. -/

namespace Sys2Proof.Machine

/-- A canonical big register of at most `n` words: sign 0 exactly for the empty list, no leading zero word, at most n
words (10_state.md R101, R102). -/
def BigReg.Canonical (n : Nat) (r : BigReg) : Prop :=
  (r.sign = .zero ↔ r.mag = []) ∧ r.mag.head? ≠ some 0 ∧ r.mag.length ≤ n

/-- A LASTERR some completion can leave: code and subcause 0, or a row of R1201 (60_exceptions.md). -/
def LastErr.Legal (e : LastErr) : Prop := (e.code = 0 ∧ e.sub = 0) ∨ ∃ c : CmdError, e.code = c.code ∧ e.sub = c.sub

/-- The invariant of the block. -/
structure State.Inv (s : State) : Prop where
  /-- the build parameters are legal (R9) -/
  cfg : s.cfg.Legal
  /-- every big register is canonical and within its capacity (R101, R103) -/
  regs : ∀ r : Reg, (s.x.get r).Canonical s.cfg.maxw
  /-- no slot from NBR on is a register (R104): it holds what reset left -/
  slots : ∀ r : Reg, s.cfg.nbr ≤ r.val → s.x.get r = BigReg.zero
  /-- the memory keeps its canonical form -/
  memWf : Memory.wf s.om
  /-- and holds no word from OMW on (R106, R201) -/
  memBelow : Memory.below s.om s.cfg.omw
  /-- BUSY and DONE are never both 1 (R213) -/
  busyDone : s.status.busy = true → s.status.done = false
  /-- while BUSY the upper half of the latch is what CMDHI reads (R116, R210) -/
  latch : s.status.busy = true → s.cl.extractLsb' 32 32 = s.cmdHi
  /-- LASTERR is 0 or a row of R1201 -/
  lasterr : s.lasterr.Legal
  /-- while rst_n is low the block is held at the reset values (R1300) -/
  held : s.rstN = false → s.softReset = s

/-- STATUS after a command completed: BUSY 0, DONE 1, ERR set if it erred and else kept, OVR and HERR kept
(20_memory.md R213, 60_exceptions.md R1203). -/
def Status.after (st : Status) (erred : Bool) : Status :=
  ⟨false, true, st.err || erred, st.ovr, st.herr⟩

/-- The completion record without an error: LASTERR = {0x00, OP, 0x00} with OP = CL[63:56] (R1200, R1202). -/
def State.completed (s : State) : State :=
  { s with lasterr := ⟨0, s.cl.extractLsb' 56 8, 0⟩, status := s.status.after false }

/-- The completion record of an error: LASTERR = {SUB, OP, CODE}; nothing else changes (R1200, R1202). -/
def State.erred (s : State) (code sub : BitVec 8) : State :=
  { s with lasterr := ⟨sub, s.cl.extractLsb' 56 8, code⟩, status := s.status.after true }

/-- The completion record of a command that writes a big register. -/
def State.wrote (s : State) (rd : Reg) (v : Int) : State :=
  ({ s with x := s.x.set rd (BigReg.ofInt v) } : State).completed

/-- The completion record of a command that writes RES: v mod 2^32 (00_scope.md R15). -/
def State.resulted (s : State) (v : Int) : State := ({ s with res := BitVec.ofInt 32 v } : State).completed

/-- The command writes v to rd where |v| fits MAXW words, that is |v| < B^MAXW, and raises CAPACITY(1) where it does
not (R14, R101, R1201). -/
def WritesOrCapacity (i : Instr) (s : State) (rd : Reg) (v : Int) : Prop :=
  (v.natAbs < wordBase ^ s.cfg.maxw → exec i s = .next (s.wrote rd v)) ∧
    (wordBase ^ s.cfg.maxw ≤ v.natAbs → exec i s = .next (s.erred 5 1))

/-- OM[a..a+n-1] read as one number, the first word most significant (00_scope.md R13, 20_memory.md R204). -/
def State.omValue (s : State) (a n : Nat) : Nat :=
  (List.range n).foldl (fun v k => v * 2 ^ 32 + (Memory.readWord s.om (a + k)).toNat) 0

end Sys2Proof.Machine

namespace Sys2Proof

open Sys2Proof.Machine

/-- The "Encoding" line of a command's rule: its opcode byte in the word, and its format (R305, R306). -/
def Instr.Coded (i : Instr) (op : BitVec 8) (f : Format) : Prop :=
  (encode i).extractLsb' 56 8 = op ∧ i.opcode.format = f

/-! Which state each command names (the "Written" lines of the command rules, 10_state.md R114, 40_transfer.md R400). -/

/-- The destination registers of a command. -/
def Instr.dests : Instr → List Reg
  | .ldi rd _ | .ldmag rd _ _ _ | .mov rd _ | .add rd _ _ | .sub rd _ _ | .mul rd _ _ | .sqr rd _ | .pow rd _ _
  | .div rd _ _ | .rem rd _ _ | .mod rd _ _ | .modpow rd _ _ _ | .and rd _ _ | .or rd _ _ | .xor rd _ _
  | .andnot rd _ _ | .not rd _ | .clrbit rd _ _ | .shl rd _ _ | .shr rd _ _ | .abs rd _ | .neg rd _ => [rd]
  | .divrem rd rd2 _ _ => [rd, rd2]
  | .nop | .stmag _ _ | .sttc _ _ | .signum _ | .maglen _ | .loword _ | .bitlen _ | .bitcnt _ | .cmp _ _ | .eq _ _ => []

/-- The commands that write RES (R114). -/
def Instr.writesRes : Instr → Bool
  | .stmag _ _ | .sttc _ _ | .signum _ | .maglen _ | .loword _ | .bitlen _ | .bitcnt _ | .cmp _ _ | .eq _ _ => true
  | _ => false

/-- The OM words a command stores to: first word address and number of words, by the expressions its meaning uses; none
for a command that stores nothing (R404, R405; 20_memory.md R200). -/
def Instr.span (s : State) : Instr → Option (Nat × Nat)
  | .stmag rs1 addr => some (omField addr, (words (s.xv rs1).natAbs).length)
  | .sttc rs1 addr => some (omField addr, (tcForm (s.xv rs1)).length)
  | _ => none

/-- The errors a command can raise after ILLEGAL, as (CODE, SUB): the table of 60_exceptions.md R1204. -/
def Instr.errors : Instr → List (BitVec 8 × BitVec 8)
  | .nop | .ldi _ _ | .mov _ _ | .signum _ | .maglen _ | .loword _ => []
  | .ldmag _ _ _ _ => [(6, 1), (2, 1), (2, 2), (5, 1)]
  | .stmag _ _ | .sttc _ _ => [(6, 1)]
  | .add _ _ _ | .sub _ _ _ | .mul _ _ _ | .sqr _ _ => [(5, 1)]
  | .pow _ _ _ => [(3, 1), (5, 1)]
  | .div _ _ _ | .rem _ _ _ | .divrem _ _ _ _ => [(3, 3)]
  | .mod _ _ _ => [(3, 2)]
  | .modpow _ _ _ _ => [(3, 2), (3, 1)]
  | .and _ _ _ | .xor _ _ _ | .andnot _ _ _ | .not _ _ => [(5, 1)]
  | .or _ _ _ => []
  | .clrbit _ _ _ => [(3, 4), (5, 1)]
  | .bitlen _ | .bitcnt _ => []
  | .shl _ _ _ | .shr _ _ _ => [(4, 1), (5, 1)]
  | .cmp _ _ | .eq _ _ | .abs _ _ | .neg _ _ => []

end Sys2Proof
end

