-- ==== Sys2Proof/Certificates/Slice0/Obligations.lean ====
section
/-! DEFINITION. The statements for the provers. Each docstring names the rule it states; a clause that rests on the model's
own choice says so and names its log entry. -/

section

open Sys2Proof Sys2Proof.Machine

/-! Encoding. -/

/-- R313: the two worked encodings, with the halves written to CMDLO and CMDHI for the first. -/
def Obligations.WorkedEncodings : Prop :=
  decode 16 0x1031200000000000 = .ok (.add 3 1 2) ∧ encode (.add 3 1 2) = 0x1031200000000000 ∧
    (encode (.add 3 1 2)).extractLsb' 0 32 = 0x00000000 ∧ (encode (.add 3 1 2)).extractLsb' 32 32 = 0x10312000 ∧
    decode 16 0x2C440000FFFFFFFB = .ok (.shl 4 4 (BitVec.ofInt 32 (-5))) ∧
    encode (.shl 4 4 (BitVec.ofInt 32 (-5))) = 0x2C440000FFFFFFFB

/-- R305, R306: one word of each format, written out from the table, decodes to its command. -/
def Obligations.FormatWords : Prop :=
  decode 16 0x0000000000000000 = .ok .nop ∧
    decode 16 0x01100000FFFFFFF9 = .ok (.ldi 1 0xFFFFFFF9) ∧
    decode 16 0x0220000300030010 = .ok (.ldmag 2 16 3 0b11) ∧
    decode 16 0x0302000000000020 = .ok (.stmag 2 32) ∧
    decode 16 0x3221000000000000 = .ok (.abs 2 1) ∧
    decode 16 0x1841250000000000 = .error .unusedField ∧
    decode 16 0x1B51200000000000 = .ok (.mod 5 1 2) ∧
    decode 16 0x1C41230000000000 = .ok (.modpow 4 1 2 3) ∧
    decode 16 0x1A31240000000000 = .ok (.divrem 3 4 1 2) ∧
    decode 16 0x2531000000000028 = .ok (.clrbit 3 1 40) ∧
    decode 16 0x2801000000000000 = .ok (.bitlen 1) ∧
    decode 16 0x3001200000000000 = .ok (.cmp 1 2)

/-- R301, R302, R305, R312: on any build, the word of every well-formed command decodes to that command. -/
def Obligations.DecodeOfEncode : Prop :=
  ∀ (nbr : Nat) (i : Instr), i.wellFormed nbr = true → decode nbr (encode i) = .ok i

/-- R301, R302, R305: the decoder drops no bit: a word it accepts is the word of the command it reads, and that command is
well-formed. -/
def Obligations.EncodeOfDecode : Prop :=
  ∀ (nbr : Nat) (c : BitVec 64) (i : Instr), decode nbr c = .ok i → encode i = c ∧ i.wellFormed nbr = true

/-- R307: the four cases of ILLEGAL, in their order, in terms of the bits: the opcode table, the bits the format leaves
unused, the used register fields, and DIVREM's two destinations. -/
def Obligations.IllegalOrder : Prop :=
  ∀ (nbr : Nat) (c : BitVec 64),
    ((∀ o : Opcode, o.byte ≠ c.extractLsb' 56 8) → decode nbr c = .error .undefinedOpcode) ∧
    (∀ o : Opcode, o.byte = c.extractLsb' 56 8 →
      (c &&& o.format.mask &&& 0x00FFFFFFFFFFFFFF ≠ 0 → decode nbr c = .error .unusedField) ∧
      (c &&& o.format.mask &&& 0x00FFFFFFFFFFFFFF = 0 →
        ((∃ r ∈ (o.build c).regs, nbr ≤ r.val) → decode nbr c = .error .badRegister) ∧
        ((∀ r ∈ (o.build c).regs, r.val < nbr) →
          (o = .divrem ∧ c.extractLsb' 52 4 = c.extractLsb' 40 4 → decode nbr c = .error .sameDest) ∧
          (¬ (o = .divrem ∧ c.extractLsb' 52 4 = c.extractLsb' 40 4) → decode nbr c = .ok (o.build c)))))

/-- R306, R308: an opcode byte outside the 33 of the table is ILLEGAL(1), whatever the other bits; and the all-zero word
is the only one that decodes to NOP. -/
def Obligations.UndefinedOpcodes : Prop :=
  (∀ (nbr : Nat) (c : BitVec 64), decode nbr c = .error .undefinedOpcode ↔
    c.extractLsb' 56 8 ∉ ([0x00, 0x01, 0x02, 0x03, 0x04, 0x05, 0x08, 0x09, 0x0A, 0x10, 0x11, 0x12, 0x13, 0x14, 0x18,
      0x19, 0x1A, 0x1B, 0x1C, 0x20, 0x21, 0x22, 0x23, 0x24, 0x25, 0x28, 0x29, 0x2C, 0x2D, 0x30, 0x31, 0x32, 0x33]
      : List (BitVec 8))) ∧
  (∀ (nbr : Nat) (c : BitVec 64), decode nbr c = .ok .nop ↔ c = 0)

/-! The step. -/

/-- R213: a busy block with nothing else to come completes the latched command: when CL decodes to i, the step is exec i.
So it is when the next event is the completion; exec then runs in the state whose agenda has moved past it (the agenda is
the model's own, log 1 and log 2). -/
def Obligations.StepRunsDecoded : Prop :=
  ∀ (s : State) (i : Instr), s.rstN = true → s.status.busy = true → decode s.cfg.nbr s.cl = .ok i →
    (s.agenda = [] → step s = exec i s) ∧
    (∀ rest, s.agenda = .complete :: rest → step s = exec i { s with agenda := rest })

/-- R307, R1201, R1202: a word the decoder refuses completes with ILLEGAL and its subcause, and writes nothing else. -/
def Obligations.IllegalCompletes : Prop :=
  ∀ (s : State), s.rstN = true → s.status.busy = true → s.agenda = [] →
    (decode s.cfg.nbr s.cl = .error .undefinedOpcode → step s = .next (s.erred 1 1)) ∧
    (decode s.cfg.nbr s.cl = .error .unusedField → step s = .next (s.erred 1 2)) ∧
    (decode s.cfg.nbr s.cl = .error .badRegister → step s = .next (s.erred 1 3)) ∧
    (decode s.cfg.nbr s.cl = .error .sameDest → step s = .next (s.erred 1 4))

/-- The model's placement of a program (log 15): the command word of a well-formed command, placed with withFetchWord, is
what the very next step runs, whatever was scheduled; what was scheduled is still to come. -/
def Obligations.PlacedWordRuns : Prop :=
  ∀ (s : State) (i : Instr), i.wellFormed s.cfg.nbr = true →
    step (s.withFetchWord 64 (encode i).toNat) = exec i { s.withFetchWord 64 (encode i).toNat with agenda := s.agenda }

/-- R213, R1303: with BUSY = 0 and nothing scheduled the block only waits (log 2: the wait is a step that changes
nothing), and a completion event is not enabled. -/
def Obligations.IdleWaits : Prop :=
  ∀ (s : State), s.status.busy = false →
    (s.agenda = [] → step s = .next s) ∧
    (∀ rest, s.agenda = .complete :: rest → step s = .next { s with agenda := rest })

/-- R1200, R1202, R1203: a command always completes: BUSY 0, DONE 1, ERR set if it erred and else kept, LASTERR with the
opcode of CL, SUB 0 with CODE 0; one that errs changes no big register, no OM word and not RES. -/
def Obligations.CommandCompletes : Prop :=
  ∀ (i : Instr) (s : State), s.cfg.Legal →
    ∃ t, exec i s = .next t ∧ t.status.busy = false ∧ t.status.done = true ∧
      t.status.err = (s.status.err || decide (t.lasterr.code ≠ 0)) ∧
      t.lasterr.op = s.cl.extractLsb' 56 8 ∧ (t.lasterr.code = 0 → t.lasterr.sub = 0) ∧
      (t.lasterr.code ≠ 0 → t.x = s.x ∧ t.om = s.om ∧ t.res = s.res)

/-- R1204: the errors a command raises are those its row of the table lists. Stated of states that meet the invariant: OR
never raises CAPACITY because its operands fit (R904). -/
def Obligations.ErrorTable : Prop :=
  ∀ (i : Instr) (s t : State), s.Inv → exec i s = .next t → t.lasterr.code ≠ 0 →
    (t.lasterr.code, t.lasterr.sub) ∈ i.errors

/-! Transfer commands. -/

/-- R401, R402: NOP writes nothing but its completion record, whose LASTERR is 0 since the opcode is 0x00, and LDI writes
the sign-extended immediate. Any other word with the opcode of NOP is ILLEGAL(2). -/
def Obligations.NopAndLoadImmediate : Prop :=
  ∀ (s : State) (rd : Reg) (imm : BitVec 32),
    Instr.nop.Coded 0x00 .N ∧ exec .nop s = .next s.completed ∧
    (s.cl = encode .nop → s.completed.lasterr.word = 0) ∧
    (∀ (nbr : Nat) (c : BitVec 64), c.extractLsb' 56 8 = 0x00 → c ≠ 0 → decode nbr c = .error .unusedField) ∧
    (Instr.ldi rd imm).Coded 0x01 .LI ∧ exec (.ldi rd imm) s = .next (s.wrote rd imm.toInt)

/-- R403: LDMAG's four checks in their order, each with its record, and what it loads. -/
def Obligations.LoadMagnitude : Prop :=
  ∀ (s : State) (rd : Reg) (addr len : BitVec 16) (sg : BitVec 2),
    let a := addr.toNat
    let n := len.toNat
    (Instr.ldmag rd addr len sg).Coded 0x02 .LM ∧
    (s.cfg.omw < a + n → exec (.ldmag rd addr len sg) s = .next (s.erred 6 1)) ∧
    (a + n ≤ s.cfg.omw →
      (sg = 0b10 → exec (.ldmag rd addr len sg) s = .next (s.erred 2 1)) ∧
      (sg ≠ 0b10 →
        ((sg = 0b00 ∧ s.omValue a n ≠ 0) ∨ (sg ≠ 0b00 ∧ s.omValue a n = 0) →
          exec (.ldmag rd addr len sg) s = .next (s.erred 2 2)) ∧
        ((sg = 0b00 ↔ s.omValue a n = 0) →
          WritesOrCapacity (.ldmag rd addr len sg) s rd (sg.toInt * (s.omValue a n : Int)))))

/-- R404: STMAG stores the words of |v|, most significant first, and their number to RES, or raises OMRANGE(1). -/
def Obligations.StoreMagnitude : Prop :=
  ∀ (s : State) (rs1 : Reg) (addr : BitVec 16), Memory.wf s.om →
    let v := (s.xv rs1).natAbs
    let a := addr.toNat
    (Instr.stmag rs1 addr).Coded 0x03 .SM ∧ ∃ n, v < wordBase ^ n ∧ (∀ k, v < wordBase ^ k → n ≤ k) ∧
      (s.cfg.omw < a + n → exec (.stmag rs1 addr) s = .next (s.erred 6 1)) ∧
      (a + n ≤ s.cfg.omw → ∃ t, exec (.stmag rs1 addr) s = .next t ∧
        (∀ k, k < n → Memory.readWord t.om (a + k) = BitVec.ofNat 32 (v / wordBase ^ (n - 1 - k))) ∧
        (∀ b, b < 4 * a ∨ 4 * (a + n) ≤ b → Memory.readByte t.om b = Memory.readByte s.om b) ∧
        t = { s.completed with om := t.om, res := BitVec.ofNat 32 n })

/-- R405: STTC stores the minimal two's-complement words of v, most significant first, and their number
k = fdiv(bitlen(v), 32) + 1 to RES, or raises OMRANGE(1). -/
def Obligations.StoreTwosComplement : Prop :=
  ∀ (s : State) (rs1 : Reg) (addr : BitVec 16), Memory.wf s.om →
    let v := s.xv rs1
    let a := addr.toNat
    let n := bitlen v / 32 + 1
    (Instr.sttc rs1 addr).Coded 0x04 .SM ∧
    (s.cfg.omw < a + n → exec (.sttc rs1 addr) s = .next (s.erred 6 1)) ∧
    (a + n ≤ s.cfg.omw → ∃ t, exec (.sttc rs1 addr) s = .next t ∧
      (∀ k, k < n → Memory.readWord t.om (a + k) = BitVec.ofInt 32 (v.fdiv (2 ^ (32 * (n - 1 - k))))) ∧
      (∀ b, b < 4 * a ∨ 4 * (a + n) ≤ b → Memory.readByte t.om b = Memory.readByte s.om b) ∧
      t = { s.completed with om := t.om, res := BitVec.ofNat 32 n })

/-- R404, R403: a magnitude stored with STMAG and loaded back from there with LDMAG and the register's sign gives back
the value. -/
def Obligations.StoreThenLoad : Prop :=
  ∀ (s t u : State) (rs1 rd : Reg) (addr : BitVec 16), s.Inv → t.lasterr.code = 0 → exec (.stmag rs1 addr) s = .next t →
    exec (.ldmag rd addr (BitVec.ofNat 16 (words (s.xv rs1).natAbs).length) (BitVec.ofInt 2 (s.xv rs1).sign)) t = .next u →
    u.lasterr.code = 0 ∧ u.xv rd = s.xv rs1

/-- R406, R1102, R1103: MOV copies a register, ABS keeps its magnitude with the sign 0 or +1, NEG keeps its magnitude with
the sign negated. Stated of canonical registers. -/
def Obligations.MoveAbsNeg : Prop :=
  ∀ (s : State) (rd rs1 : Reg), s.Inv →
    let r := s.x.get rs1
    let absSign : Sign := if r.sign = .neg then .pos else r.sign
    let negSign : Sign := match r.sign with | .neg => .pos | .zero => .zero | .pos => .neg
    (Instr.mov rd rs1).Coded 0x05 .R1 ∧ (Instr.abs rd rs1).Coded 0x32 .R1 ∧ (Instr.neg rd rs1).Coded 0x33 .R1 ∧
    exec (.mov rd rs1) s = .next ({ s with x := s.x.set rd r } : State).completed ∧
    exec (.abs rd rs1) s = .next ({ s with x := s.x.set rd ⟨absSign, r.mag⟩ } : State).completed ∧
    exec (.neg rd rs1) s = .next ({ s with x := s.x.set rd ⟨negSign, r.mag⟩ } : State).completed

/-- R407, R408, R409: SIGNUM, MAGLEN and LOWORD to RES. Stated of canonical registers, where the length of the magnitude
is the register's own. -/
def Obligations.ReadQueries : Prop :=
  ∀ (s : State) (rs1 : Reg), s.Inv →
    (Instr.signum rs1).Coded 0x08 .Q1 ∧ (Instr.maglen rs1).Coded 0x09 .Q1 ∧ (Instr.loword rs1).Coded 0x0A .Q1 ∧
    exec (.signum rs1) s = .next (s.resulted (match (s.x.get rs1).sign with | .neg => -1 | .zero => 0 | .pos => 1)) ∧
    exec (.maglen rs1) s = .next (s.resulted (s.x.get rs1).mag.length) ∧
    exec (.loword rs1) s = .next (s.resulted (s.xv rs1 % 2 ^ 32))

/-! Arithmetic. -/

/-- R505, R506: ADD and SUB are exact, or raise CAPACITY(1). -/
def Obligations.AddSub : Prop :=
  ∀ (s : State) (rd rs1 rs2 : Reg),
    (Instr.add rd rs1 rs2).Coded 0x10 .R2 ∧ (Instr.sub rd rs1 rs2).Coded 0x11 .R2 ∧
    WritesOrCapacity (.add rd rs1 rs2) s rd (s.xv rs1 + s.xv rs2) ∧
    WritesOrCapacity (.sub rd rs1 rs2) s rd (s.xv rs1 - s.xv rs2)

/-- R603, R604: MUL and SQR are exact, or raise CAPACITY(1). -/
def Obligations.MulSqr : Prop :=
  ∀ (s : State) (rd rs1 rs2 : Reg),
    (Instr.mul rd rs1 rs2).Coded 0x12 .R2 ∧ (Instr.sqr rd rs1).Coded 0x13 .R1 ∧
    WritesOrCapacity (.mul rd rs1 rs2) s rd (s.xv rs1 * s.xv rs2) ∧
    WritesOrCapacity (.sqr rd rs1) s rd (s.xv rs1 * s.xv rs1)

/-- R605: POW raises DOMAIN(1) for a negative exponent, and else is exact (a^0 = 1) or raises CAPACITY(1). -/
def Obligations.Power : Prop :=
  ∀ (s : State) (rd rs1 : Reg) (imm : BitVec 32), s.cfg.Legal →
    (Instr.pow rd rs1 imm).Coded 0x14 .RI ∧
    (imm.toInt < 0 → exec (.pow rd rs1 imm) s = .next (s.erred 3 1)) ∧
    (0 ≤ imm.toInt → WritesOrCapacity (.pow rd rs1 imm) s rd (s.xv rs1 ^ imm.toInt.toNat))

/-- R712, R713, R714: DIV, REM and DIVREM raise DOMAIN(3) for a zero divisor, and else write the truncated quotient, the
truncated remainder, or both. A DIVREM with one destination is ILLEGAL(4). -/
def Obligations.Division : Prop :=
  ∀ (s : State) (rd rd2 rs1 rs2 : Reg),
    (Instr.div rd rs1 rs2).Coded 0x18 .R2 ∧ (Instr.rem rd rs1 rs2).Coded 0x19 .R2 ∧
    (Instr.divrem rd rd2 rs1 rs2).Coded 0x1A .D2 ∧ decode 16 (encode (.divrem rd rd rs1 rs2)) = .error .sameDest ∧
    (s.xv rs2 = 0 →
      exec (.div rd rs1 rs2) s = .next (s.erred 3 3) ∧ exec (.rem rd rs1 rs2) s = .next (s.erred 3 3) ∧
      exec (.divrem rd rd2 rs1 rs2) s = .next (s.erred 3 3)) ∧
    (s.xv rs2 ≠ 0 →
      exec (.div rd rs1 rs2) s = .next (s.wrote rd ((s.xv rs1).tdiv (s.xv rs2))) ∧
      exec (.rem rd rs1 rs2) s = .next (s.wrote rd ((s.xv rs1).tmod (s.xv rs2))) ∧
      exec (.divrem rd rd2 rs1 rs2) s = .next
        (({ s with x := s.x.set rd (BigReg.ofInt ((s.xv rs1).tdiv (s.xv rs2))) } : State).wrote rd2
          ((s.xv rs1).tmod (s.xv rs2))))

/-- R716, R711: after a DIVREM with a nonzero divisor, quotient times divisor plus remainder gives the dividend, the
remainder is smaller than the divisor, and it has the dividend's sign or is zero. -/
def Obligations.DivisionIdentity : Prop :=
  ∀ (s : State) (rd rd2 rs1 rs2 : Reg), rd ≠ rd2 → s.xv rs2 ≠ 0 →
    ∃ t, exec (.divrem rd rd2 rs1 rs2) s = .next t ∧ t.lasterr.code = 0 ∧
      s.xv rs1 = s.xv rs2 * t.xv rd + t.xv rd2 ∧ (t.xv rd2).natAbs < (s.xv rs2).natAbs ∧
      (t.xv rd2 = 0 ∨ (t.xv rd2).sign = (s.xv rs1).sign)

/-- R715: MOD raises DOMAIN(2) for a modulus ≤ 0, and else writes the residue, which lies in [0, m). -/
def Obligations.Residue : Prop :=
  ∀ (s : State) (rd rs1 rs2 : Reg),
    (Instr.mod rd rs1 rs2).Coded 0x1B .R2 ∧
    (s.xv rs2 ≤ 0 → exec (.mod rd rs1 rs2) s = .next (s.erred 3 2)) ∧
    (0 < s.xv rs2 → exec (.mod rd rs1 rs2) s = .next (s.wrote rd ((s.xv rs1).fmod (s.xv rs2))) ∧
      0 ≤ (s.xv rs1).fmod (s.xv rs2) ∧ (s.xv rs1).fmod (s.xv rs2) < s.xv rs2)

/-- R807: MODPOW raises DOMAIN(2) for a modulus ≤ 0, then DOMAIN(1) for a negative exponent, and else writes fmod(b^e, m),
whatever the parity of the modulus. -/
def Obligations.ModularPower : Prop :=
  ∀ (s : State) (rd rs1 rs2 rs3 : Reg),
    (Instr.modpow rd rs1 rs2 rs3).Coded 0x1C .R3 ∧
    (s.xv rs3 ≤ 0 → exec (.modpow rd rs1 rs2 rs3) s = .next (s.erred 3 2)) ∧
    (0 < s.xv rs3 →
      (s.xv rs2 < 0 → exec (.modpow rd rs1 rs2 rs3) s = .next (s.erred 3 1)) ∧
      (0 ≤ s.xv rs2 → exec (.modpow rd rs1 rs2 rs3) s =
        .next (s.wrote rd ((s.xv rs1 ^ (s.xv rs2).toNat).fmod (s.xv rs3)))))

/-- R311: MODMUL, executed as its two commands in order, leaves the product's residue in xd where neither command errs; xd
is not the modulus. -/
def Obligations.ModmulExpansion : Prop :=
  ∀ (s t u : State) (rd ra rb rm : Reg), rd ≠ rm →
    Pseudo.expand (.modmul rd ra rb rm) = some [.mul rd ra rb, .mod rd rd rm] ∧
    (exec (.mul rd ra rb) s = .next t → t.lasterr.code = 0 → exec (.mod rd rd rm) t = .next u → u.lasterr.code = 0 →
      u.xv rd = (s.xv ra * s.xv rb).fmod (s.xv rm))

/-! Bitwise commands. -/

/-- R903, R904, R905, R906: AND, OR, XOR and ANDNOT on the infinite two's-complement form, or CAPACITY(1), which OR never
raises where its operands fit. -/
def Obligations.BitwiseTwo : Prop :=
  ∀ (s : State) (rd rs1 rs2 : Reg),
    (Instr.and rd rs1 rs2).Coded 0x20 .R2 ∧ (Instr.or rd rs1 rs2).Coded 0x21 .R2 ∧
    (Instr.xor rd rs1 rs2).Coded 0x22 .R2 ∧ (Instr.andnot rd rs1 rs2).Coded 0x23 .R2 ∧
    WritesOrCapacity (.and rd rs1 rs2) s rd ((s.xv rs1).land (s.xv rs2)) ∧
    WritesOrCapacity (.or rd rs1 rs2) s rd ((s.xv rs1).lor (s.xv rs2)) ∧
    WritesOrCapacity (.xor rd rs1 rs2) s rd ((s.xv rs1).xor (s.xv rs2)) ∧
    WritesOrCapacity (.andnot rd rs1 rs2) s rd ((s.xv rs1).land (s.xv rs2).lnot) ∧
    (s.Inv → ((s.xv rs1).lor (s.xv rs2)).natAbs < wordBase ^ s.cfg.maxw)

/-- R907, R908: NOT writes -a - 1, or raises CAPACITY(1); CLRBIT raises DOMAIN(4) for a negative index, and else writes
a & ~(2^i), or raises CAPACITY(1). -/
def Obligations.NotAndClearBit : Prop :=
  ∀ (s : State) (rd rs1 : Reg) (imm : BitVec 32),
    (Instr.not rd rs1).Coded 0x24 .R1 ∧ (Instr.clrbit rd rs1 imm).Coded 0x25 .RI ∧
    WritesOrCapacity (.not rd rs1) s rd (-s.xv rs1 - 1) ∧
    (imm.toInt < 0 → exec (.clrbit rd rs1 imm) s = .next (s.erred 3 4)) ∧
    (0 ≤ imm.toInt → WritesOrCapacity (.clrbit rd rs1 imm) s rd ((s.xv rs1).land (2 ^ imm.toInt.toNat : Int).lnot))

/-- R909, R910: BITLEN gives the least k with -2^k ≤ v < 2^k, and BITCNT the number of bits below it that differ from the
sign bit; the bit length of a register that fits is at most 32·MAXW. -/
def Obligations.BitCounts : Prop :=
  ∀ (s : State) (rs1 : Reg), (Instr.bitlen rs1).Coded 0x28 .Q1 ∧ (Instr.bitcnt rs1).Coded 0x29 .Q1 ∧ ∃ k : Nat,
    (-2 ^ k ≤ s.xv rs1 ∧ s.xv rs1 < 2 ^ k) ∧ (∀ j : Nat, -2 ^ j ≤ s.xv rs1 ∧ s.xv rs1 < 2 ^ j → k ≤ j) ∧
    (s.Inv → k ≤ 32 * s.cfg.maxw) ∧
    exec (.bitlen rs1) s = .next (s.resulted k) ∧
    exec (.bitcnt rs1) s = .next (s.resulted
      ((List.range k).countP (fun j => (s.xv rs1).testBit j != decide (s.xv rs1 < 0))))

/-! Shifts. -/

/-- R1004, R1005: SHL and SHR raise RANGE(1) for the distance -2^31; a left shift is a·2^n or CAPACITY(1), a right shift
is floor(a / 2^n); a negative distance is the opposite shift. -/
def Obligations.Shifts : Prop :=
  ∀ (s : State) (rd rs1 : Reg) (imm : BitVec 32),
    (Instr.shl rd rs1 imm).Coded 0x2C .RI ∧ (Instr.shr rd rs1 imm).Coded 0x2D .RI ∧
    (imm.toInt = -2 ^ 31 →
      exec (.shl rd rs1 imm) s = .next (s.erred 4 1) ∧ exec (.shr rd rs1 imm) s = .next (s.erred 4 1)) ∧
    (0 ≤ imm.toInt →
      WritesOrCapacity (.shl rd rs1 imm) s rd (s.xv rs1 * 2 ^ imm.toInt.toNat) ∧
      WritesOrCapacity (.shr rd rs1 imm) s rd ((s.xv rs1).fdiv (2 ^ imm.toInt.toNat))) ∧
    (-2 ^ 31 < imm.toInt ∧ imm.toInt < 0 →
      WritesOrCapacity (.shl rd rs1 imm) s rd ((s.xv rs1).fdiv (2 ^ (-imm.toInt).toNat)) ∧
      WritesOrCapacity (.shr rd rs1 imm) s rd (s.xv rs1 * 2 ^ (-imm.toInt).toNat))

/-- R1006: SHR by n after an SHL by n ≥ 0 that raised no error gives back the value, and SHL by n is SHR by -n, SHR by n
is SHL by -n, for every n ≠ -2^31. -/
def Obligations.ShiftInverse : Prop :=
  ∀ (s t : State) (rd rs1 rd2 : Reg) (imm : BitVec 32), s.Inv →
    (0 ≤ imm.toInt → exec (.shl rd rs1 imm) s = .next t → t.lasterr.code = 0 →
      ∃ u, exec (.shr rd2 rd imm) t = .next u ∧ u.lasterr.code = 0 ∧ u.xv rd2 = s.xv rs1) ∧
    (imm.toInt ≠ -2 ^ 31 →
      exec (.shl rd rs1 imm) s = exec (.shr rd rs1 (-imm)) s ∧ exec (.shr rd rs1 imm) s = exec (.shl rd rs1 (-imm)) s)

/-! Compare. -/

/-- R1100, R1101: CMP gives the sign of a - b, and EQ whether the two registers hold the same integer. -/
def Obligations.Compare : Prop :=
  ∀ (s : State) (rs1 rs2 : Reg),
    (Instr.cmp rs1 rs2).Coded 0x30 .Q2 ∧ (Instr.eq rs1 rs2).Coded 0x31 .Q2 ∧
    exec (.cmp rs1 rs2) s = .next (s.resulted (s.xv rs1 - s.xv rs2).sign) ∧
    (s.xv rs1 = s.xv rs2 → exec (.eq rs1 rs2) s = .next (s.resulted 1)) ∧
    (s.xv rs1 ≠ s.xv rs2 → exec (.eq rs1 rs2) s = .next (s.resulted 0))

/-! Frames. -/

/-- The register frame (R400, and the "Written" line of each command): every big register but the command's destinations
is unchanged, and RES is unchanged unless R114 lists the command. -/
def Obligations.RegisterFrame : Prop :=
  ∀ (i : Instr) (s t : State), exec i s = .next t →
    (∀ r : Reg, r ∉ i.dests → t.x.get r = s.x.get r) ∧ (i.writesRes = false → t.res = s.res)

/-- The memory frame (20_memory.md R200, R404, R405): for every command, every byte outside the words it stores to reads
as before; the span is the one its meaning computes, and a command that stores nothing has none. -/
def Obligations.MemoryFrame : Prop :=
  ∀ (i : Instr) (s t : State), Memory.wf s.om → exec i s = .next t →
    (i.span s = none → ∀ b, Memory.readByte t.om b = Memory.readByte s.om b) ∧
    (∀ a n, i.span s = some (a, n) →
      ∀ b, b < 4 * a ∨ 4 * (a + n) ≤ b → Memory.readByte t.om b = Memory.readByte s.om b)

/-- The frame of the rest (R108, R112, R1208): no command changes the latch, CTRL.IE, CMDLO, CMDHI, OVR, HERR, the build,
the reset pin, the last response or what is still to come; ERR stays set once set. -/
def Obligations.ControlFrame : Prop :=
  ∀ (i : Instr) (s t : State), exec i s = .next t →
    t.cl = s.cl ∧ t.ie = s.ie ∧ t.cmdLo = s.cmdLo ∧ t.cmdHi = s.cmdHi ∧ t.status.ovr = s.status.ovr ∧
      t.status.herr = s.status.herr ∧ t.cfg = s.cfg ∧ t.rstN = s.rstN ∧ t.response = s.response ∧
      t.agenda = s.agenda ∧ (s.status.err = true → t.status.err = true)

/-- R114: a command outside the list of R114, or one that errs, leaves RES unchanged (what the listed ones write their own
statements say); a rule that writes -1 writes 0xFFFF_FFFF; a read returns RES and a write is ignored; it resets to 0. -/
def Obligations.ResRegister : Prop :=
  (∀ (i : Instr) (s t : State), exec i s = .next t → i.writesRes = false ∨ t.lasterr.code ≠ 0 → t.res = s.res) ∧
    (∀ s : State, (s.resulted (-1)).res = 0xFFFFFFFF) ∧
    (∀ (s : State) (d : Word), s.serve (.read 0x01C .b32) = { s with response := .data s.res } ∧
      s.serve (.write 0x01C .b32 d) = { s with response := .ack }) ∧
    State.reset.res = 0

/-- R103: every big register is below B^MAXW in magnitude, and no command creates a larger value. -/
def Obligations.RegistersBounded : Prop :=
  ∀ (s : State), s.Inv →
    (∀ r : Reg, (s.xv r).natAbs < wordBase ^ s.cfg.maxw) ∧
    (∀ (i : Instr) (t : State), exec i s = .next t → ∀ r : Reg, (t.xv r).natAbs < wordBase ^ t.cfg.maxw)

/-! The host register block. -/

/-- R111: CTRL reads IE in bit 0 and 0 elsewhere; a write with SRST = 0 sets IE and nothing else, and one with SRST = 1
resets; it is accepted whatever BUSY is; with IE = 1 the interrupt output follows DONE; it resets to 0. -/
def Obligations.CtrlRegister : Prop :=
  (∀ (s : State) (d : Word),
    s.serve (.read 0x010 .b32) = { s with response := .data (if s.ie then 1 else 0) } ∧
    (d.getLsbD 1 = false → s.serve (.write 0x010 .b32 d) = { s with ie := d.getLsbD 0, response := .ack }) ∧
    (d.getLsbD 1 = true → s.serve (.write 0x010 .b32 d) = { s.softReset with response := .ack }) ∧
    (s.ie = true → s.irq = s.status.done)) ∧
  State.reset.ie = false

/-- R1301: a write to CTRL with SRST = 1 resets every piece of state to the value of R120, except OM; the IE of the same
write is not taken. -/
def Obligations.SoftReset : Prop :=
  ∀ (s : State) (d : Word), d.getLsbD 1 = true →
    s.serve (.write 0x010 .b32 d) =
      { s with x := Vector.replicate 16 ⟨.zero, []⟩, cl := 0, ie := false, status := ⟨false, false, false, false, false⟩,
               lasterr := ⟨0, 0, 0⟩, res := 0, cmdLo := 0, cmdHi := 0, response := .ack } ∧
    (s.serve (.write 0x010 .b32 d)).readReg .ctrl = 0

/-- R1310: a soft reset while BUSY aborts the running command: the engine's step that would have completed it does nothing,
and DONE, ERR, RES and LASTERR are 0. -/
def Obligations.SoftResetAborts : Prop :=
  ∀ (s : State) (d : Word), d.getLsbD 1 = true → s.rstN = true →
    s.agenda = [.host (.write 0x010 .b32 d), .complete] →
      ∃ t u, step s = .next t ∧ step t = .next u ∧ u.om = s.om ∧ u.x = Vector.replicate 16 ⟨.zero, []⟩ ∧ u.res = 0 ∧
        u.lasterr.word = 0 ∧ u.status.word = 0 ∧ u.agenda = []

/-- R112: STATUS reads its five bits and 0 above; a write clears each RW1C bit written 1 and changes nothing else. -/
def Obligations.StatusRegister : Prop :=
  ∀ (s : State) (d : Word),
    (∃ w, s.serve (.read 0x014 .b32) = { s with response := .data w } ∧ w.getLsbD 0 = s.status.busy ∧
      w.getLsbD 1 = s.status.done ∧ w.getLsbD 2 = s.status.err ∧ w.getLsbD 3 = s.status.ovr ∧
      w.getLsbD 4 = s.status.herr ∧ ∀ k, 5 ≤ k → w.getLsbD k = false) ∧
    s.serve (.write 0x014 .b32 d) =
      { s with status := ⟨s.status.busy, s.status.done && !d.getLsbD 1, s.status.err && !d.getLsbD 2,
                 s.status.ovr && !d.getLsbD 3, s.status.herr && !d.getLsbD 4⟩, response := .ack }

/-- R113, R110: LASTERR reads CODE, OP and SUB in their bits and 0 above, resets to 0, and ignores a write. -/
def Obligations.LasterrRegister : Prop :=
  (∀ (s : State) (d : Word),
    (∃ w, s.serve (.read 0x018 .b32) = { s with response := .data w } ∧ w.extractLsb' 0 8 = s.lasterr.code ∧
      w.extractLsb' 8 8 = s.lasterr.op ∧ w.extractLsb' 16 8 = s.lasterr.sub ∧ w.extractLsb' 24 8 = 0) ∧
    s.serve (.write 0x018 .b32 d) = { s with response := .ack }) ∧
  State.reset.lasterr.word = 0

/-- R115: a write to CMDLO is always accepted, even while BUSY, and changes CMDLO alone; a read returns the last value
written; it resets to 0. -/
def Obligations.CmdloRegister : Prop :=
  (∀ (s : State) (d : Word),
    s.serve (.write 0x020 .b32 d) = { s with cmdLo := d, response := .ack } ∧
    (s.serve (.write 0x020 .b32 d)).serve (.read 0x020 .b32) = { s with cmdLo := d, response := .data d }) ∧
  State.reset.cmdLo = 0

/-- R116, R213: a write to CMDHI while BUSY = 0 issues in one step: CL <- CMDHI above CMDLO, BUSY <- 1, DONE <- 0; ERR,
LASTERR and RES are kept. While BUSY = 1 it is discarded and sets OVR. A read returns the last accepted value. -/
def Obligations.CmdhiRegister : Prop :=
  (∀ (s : State) (d : Word),
    (s.status.busy = false → s.serve (.write 0x024 .b32 d) =
      { s with cmdHi := d, cl := d ++ s.cmdLo, status := { s.status with busy := true, done := false }, response := .ack }) ∧
    (s.status.busy = true → s.serve (.write 0x024 .b32 d) =
      { s with status := { s.status with ovr := true }, response := .ack }) ∧
    s.serve (.read 0x024 .b32) = { s with response := .data s.cmdHi }) ∧
  State.reset.cmdHi = 0

/-- R117, R118: ID and VERSION read their constants; CFG reads MAXW and NBR, and OMSIZE reads OMW, in their bits and 0
above, on every legal build. -/
def Obligations.ConstantRegisters : Prop :=
  ∀ s : State, s.cfg.Legal →
    s.serve (.read 0x000 .b32) = { s with response := .data 0x4E424943 } ∧
    s.serve (.read 0x004 .b32) = { s with response := .data 0x00000001 } ∧
    ∃ w v, s.serve (.read 0x008 .b32) = { s with response := .data w } ∧
      (w.extractLsb' 0 16).toNat = s.cfg.maxw ∧ (w.extractLsb' 16 5).toNat = s.cfg.nbr ∧ w.extractLsb' 21 11 = 0 ∧
      s.serve (.read 0x00C .b32) = { s with response := .data v } ∧
      (v.extractLsb' 0 17).toNat = s.cfg.omw ∧ v.extractLsb' 17 15 = 0

/-- R110: a write to a register marked RO has no effect (the answer to the host apart), and reading any register has no
side effect. -/
def Obligations.ReadOnlyRegisters : Prop :=
  (∀ (s : State) (d : Word) (off : BitVec 19), off ∈ ([0x000, 0x004, 0x008, 0x00C, 0x018, 0x01C] : List (BitVec 19)) →
    s.serve (.write off .b32 d) = { s with response := .ack }) ∧
  (∀ (s : State) (k : Nat), k < 10 → ∃ w, s.serve (.read (BitVec.ofNat 19 (4 * k)) .b32) = { s with response := .data w })

/-- R119 (and the events of R1209): IRQ is CTRL.IE and STATUS.DONE, 0 after reset: a completion raises it exactly where IE
is 1, an issue, a write of 1 to DONE, clearing IE and a soft reset lower it, and no read changes it. -/
def Obligations.Interrupt : Prop :=
  State.reset.irq = false ∧ (∀ s : State, s.irq = (s.ie && s.status.done)) ∧
  (∀ (s : State) (off : BitVec 19) (size : Size), (s.serve (.read off size)).irq = s.irq) ∧
  (∀ (i : Instr) (s t : State), exec i s = .next t → t.irq = s.ie) ∧
  (∀ (s : State) (d : Word), s.status.busy = false → (s.serve (.write 0x024 .b32 d)).irq = false) ∧
  (∀ (s : State) (d : Word), d.getLsbD 1 = true → (s.serve (.write 0x014 .b32 d)).irq = false) ∧
  (∀ (s : State) (d : Word), (s.serve (.write 0x010 .b32 d)).irq =
    (d.getLsbD 0 && !d.getLsbD 1 && s.status.done))

/-! The aperture. -/

/-- R201: while BUSY = 0 a host read at 0x4_0000 + 4a returns OM[a], and a host write there sets OM[a] and no other word. -/
def Obligations.HostOperandMemory : Prop :=
  ∀ (s : State) (off : BitVec 19) (a : Nat) (d : Word), s.status.busy = false → Memory.wf s.om → a < s.cfg.omw →
    off.toNat = 0x40000 + 4 * a →
    s.serve (.read off .b32) = { s with response := .data (Memory.readWord s.om a) } ∧
    ∃ m, s.serve (.write off .b32 d) = { s with om := m, response := .ack } ∧ Memory.readWord m a = d ∧
      ∀ b, b ≠ a → Memory.readWord m b = Memory.readWord s.om b

/-- R206, R211: an access that is not 32 bits wide at a multiple of 4, or that falls on an unmapped offset, changes nothing
but HERR; a read returns 0. (Where such an access is also one R210 refuses, the model sets HERR only: log 8.) -/
def Obligations.IllegalHostAccess : Prop :=
  ∀ (s : State) (off : BitVec 19) (size : Size) (d : Word),
    (size ≠ .b32 ∨ off.toNat % 4 ≠ 0 ∨ (0x28 ≤ off.toNat ∧ off.toNat < 0x40000) ∨ 0x40000 + 4 * s.cfg.omw ≤ off.toNat) →
    s.serve (.read off size) = { s with status := { s.status with herr := true }, response := .data 0 } ∧
    s.serve (.write off size d) = { s with status := { s.status with herr := true }, response := .ack }

/-- R210: while BUSY = 1 an access to OM changes nothing but OVR, and a read returns 0; a write to CMDHI is discarded and
sets OVR; every register still reads as it does, and CTRL, STATUS and CMDLO are still written. -/
def Obligations.RefusedWhileBusy : Prop :=
  ∀ (s : State) (off : BitVec 19) (a : Nat) (d : Word), s.status.busy = true →
    (a < s.cfg.omw → off.toNat = 0x40000 + 4 * a →
      s.serve (.read off .b32) = { s with status := { s.status with ovr := true }, response := .data 0 } ∧
      s.serve (.write off .b32 d) = { s with status := { s.status with ovr := true }, response := .ack }) ∧
    s.serve (.write 0x024 .b32 d) = { s with status := { s.status with ovr := true }, response := .ack } ∧
    (∀ r : HostReg, s.serve (.read (BitVec.ofNat 19 r.offset) .b32) = { s with response := .data (s.readReg r) }) ∧
    (d.getLsbD 1 = false → s.serve (.write 0x010 .b32 d) = { s with ie := d.getLsbD 0, response := .ack }) ∧
    (d.getLsbD 1 = true → s.serve (.write 0x010 .b32 d) = { s.softReset with response := .ack }) ∧
    s.serve (.write 0x014 .b32 d) =
      { s with status := ⟨true, s.status.done && !d.getLsbD 1, s.status.err && !d.getLsbD 2,
                 s.status.ovr && !d.getLsbD 3, s.status.herr && !d.getLsbD 4⟩, response := .ack } ∧
    s.serve (.write 0x020 .b32 d) = { s with cmdLo := d, response := .ack }

/-- R219, R206: with rst_n high, every host request gets its answer: data to a read, the bare answer to a write. -/
def Obligations.EveryRequestAnswered : Prop :=
  ∀ (s : State) (q : HostReq) (rest : List Event), s.rstN = true → s.agenda = .host q :: rest →
    ∃ t, step s = .next t ∧ t.agenda = rest ∧
      (∀ off size, q = .read off size → ∃ w, t.response = .data w) ∧
      (∀ off size d, q = .write off size d → t.response = .ack)

/-- R1203: ERR is sticky: a step clears it only where its event is a host write of 1 to ERR, a soft reset, or a change of
rst_n. -/
def Obligations.ErrIsSticky : Prop :=
  ∀ (s t : State), s.status.err = true → step s = .next t → t.status.err = false →
    ∃ e rest, s.agenda = e :: rest ∧
      (e = .rstLow ∨ (∃ om, e = .rstHigh om) ∨
        ∃ d : Word, (d.getLsbD 2 = true ∧
            (e = .host (.write 0x014 .b32 d) ∨ e = .sameCycle (.write 0x014 .b32 d))) ∨
          (d.getLsbD 1 = true ∧ (e = .host (.write 0x010 .b32 d) ∨ e = .sameCycle (.write 0x010 .b32 d))))

/-- R1210: where a completion and a host write to STATUS fall in the same cycle, DONE reads 1 afterwards, whatever the
write, and ERR reads 1 if the command erred. (How the model orders the two: log 10.) -/
def Obligations.SameCycleSetWins : Prop :=
  ∀ (s : State) (d : Word) (rest : List Event), s.cfg.Legal → s.rstN = true → s.status.busy = true →
    s.agenda = .sameCycle (.write 0x014 .b32 d) :: rest →
    ∃ t, step s = .next t ∧ t.status.busy = false ∧ t.status.done = true ∧ (t.lasterr.code ≠ 0 → t.status.err = true)

/-! Reset and the invariant. -/

/-- R120, R1302: the state after reset: the big registers, CL, CTRL.IE, STATUS, LASTERR, RES, CMDLO, CMDHI, IRQ, ID and
VERSION at the values of the table (what CFG and OMSIZE read on any build is ConstantRegisters). (The build, the listed
memory, the response and the agenda are the model's choices: log 5, log 3, log 7, log 1.) -/
def Obligations.ResetValues : Prop :=
  (∀ r : Reg, (State.reset.x.get r).sign = .zero ∧ (State.reset.x.get r).mag = [] ∧ State.reset.xv r = 0) ∧
    State.reset.cl = 0 ∧ State.reset.ie = false ∧ State.reset.status.word = 0 ∧ State.reset.lasterr.word = 0 ∧
    State.reset.res = 0 ∧ State.reset.cmdLo = 0 ∧ State.reset.cmdHi = 0 ∧ State.reset.irq = false ∧
    State.reset.readReg .id = 0x4E424943 ∧ State.reset.readReg .version = 1

/-- R1300, R1302: when rst_n rises every piece of state holds its reset value and the block is idle, and OM may hold any
content. -/
def Obligations.PowerOn : Prop :=
  ∀ (s : State) (f : Nat → Word) (rest : List Event), s.rstN = false →
    s.agenda = .rstHigh ((List.range s.cfg.omw).map (fun a => (a, f a))) :: rest →
    ∃ t, step s = .next t ∧ t.rstN = true ∧ (∀ r : Reg, t.xv r = 0) ∧ t.cl = 0 ∧ t.ie = false ∧ t.status.word = 0 ∧
      t.lasterr.word = 0 ∧ t.res = 0 ∧ t.cmdLo = 0 ∧ t.cmdHi = 0 ∧ t.irq = false ∧
      ∀ a, a < s.cfg.omw → Memory.readWord t.om a = f a

/-- R1300 (D52): while rst_n is low a host access has no defined effect: the model stops there and nowhere else (log 9). -/
def Obligations.OnlyResetAccessStops : Prop :=
  ∀ (s : State), s.cfg.Legal →
    ((∃ t, step s = .next t) ∨
      (step s = .fault .accessInReset ∧ s.rstN = false ∧
        ∃ q rest, s.agenda = .host q :: rest ∨ s.agenda = .sameCycle q :: rest)) ∧
    (∀ q rest, s.rstN = false → s.agenda = .host q :: rest ∨ s.agenda = .sameCycle q :: rest →
      step s = .fault .accessInReset)

/-- R124: no step changes the build parameters. -/
def Obligations.ConfigurationFixed : Prop := ∀ (s t : State), step s = .next t → t.cfg = s.cfg

/-- The invariant of Safety.lean holds after reset. -/
def Obligations.ResetMeetsInvariant : Prop := State.reset.Inv

/-- The invariant of Safety.lean (canonical registers within MAXW, slots past NBR untouched, the memory's canonical form,
BUSY and DONE exclusive, the latch and CMDHI agreeing while BUSY, a legal LASTERR, the block held in reset while rst_n is
low) is kept by every step. -/
def Obligations.StepKeepsInvariant : Prop := ∀ (s t : State), s.Inv → step s = .next t → t.Inv

end
end

