-- ==== Sys2Proof/Laws/WordOps.lean ====
section
/-! SUPPORT. What the magnitude lists and the double-word datapath compute: the derived sentences of
00_scope.md R13, R14, R20 and R22. -/

namespace Sys2Proof.Machine

theorem wordBase_eq : wordBase = 4294967296 := rfl

theorem wordBase_pos : 0 < wordBase := by decide

theorem one_lt_wordBase : 1 < wordBase := by decide

theorem wordBase_pow (n : Nat) : wordBase ^ n = 2 ^ (32 * n) := by rw [wordBase, pow_mul]

/-! Bits of a natural number. -/

theorem lt_two_pow_natBits (v : Nat) : v < 2 ^ natBits v := by
  unfold natBits
  split
  · simp_all
  · exact Nat.lt_log2_self

theorem two_pow_le_of_natBits {v k : Nat} (h : k < natBits v) : 2 ^ k ≤ v := by
  unfold natBits at h
  split at h
  · omega
  · rename_i h0
    exact (Nat.le_log2 h0).1 (by omega)

theorem natBits_le_iff (v k : Nat) : natBits v ≤ k ↔ v < 2 ^ k := by
  constructor
  · intro h
    exact (lt_two_pow_natBits v).trans_le (Nat.pow_le_pow_right (by decide) h)
  · intro h
    by_contra hc
    exact absurd (two_pow_le_of_natBits (Nat.lt_of_not_le hc)) (by omega)

/-! Values of lists. -/

theorem toNat_lt_base (w : Word) : w.toNat < wordBase := w.isLt

theorem val_append (X Y : List Word) : val (X ++ Y) = val X * wordBase ^ Y.length + val Y := by
  induction X with
  | nil => simp [val]
  | cons x xs ih => simp only [List.cons_append, val, ih, List.length_append, pow_add]; ring

theorem valLE_append (X Y : List Word) : valLE (X ++ Y) = valLE X + wordBase ^ X.length * valLE Y := by
  induction X with
  | nil => simp [valLE]
  | cons x xs ih => simp only [List.cons_append, valLE, ih, List.length_cons, pow_succ]; ring

theorem valLE_reverse (X : List Word) : valLE X.reverse = val X := by
  induction X with
  | nil => rfl
  | cons x xs ih => simp [valLE_append, valLE, val, ih]; ring

theorem val_reverse (X : List Word) : val X.reverse = valLE X := by
  rw [← valLE_reverse, List.reverse_reverse]

theorem valLE_lt (X : List Word) : valLE X < wordBase ^ X.length := by
  induction X with
  | nil => simp [valLE]
  | cons x xs ih =>
    have hx := toNat_lt_base x
    simp only [valLE, List.length_cons, pow_succ]
    nlinarith

theorem val_lt (X : List Word) : val X < wordBase ^ X.length := by
  rw [← valLE_reverse]; simpa using valLE_lt X.reverse

theorem valLE_head_tail (X : List Word) : valLE X = (X.headD 0).toNat + wordBase * valLE X.tail := by
  cases X <;> simp [valLE]

theorem valLE_replicate_zero (n : Nat) : valLE (List.replicate n 0) = 0 := by
  induction n with
  | zero => rfl
  | succ n ih => rw [List.replicate_succ, valLE, ih]; rfl

theorem val_replicate_zero (n : Nat) : val (List.replicate n 0) = 0 := by
  rw [← valLE_reverse, List.reverse_replicate, valLE_replicate_zero]

@[simp] theorem wordsLE_length (n v : Nat) : (wordsLE n v).length = n := by
  induction n generalizing v with
  | zero => rfl
  | succ n ih => simp [wordsLE, ih]

theorem valLE_wordsLE (n v : Nat) : valLE (wordsLE n v) = v % wordBase ^ n := by
  induction n generalizing v with
  | zero => simp [wordsLE, valLE, Nat.mod_one]
  | succ n ih =>
    rw [wordsLE, valLE, ih, BitVec.toNat_ofNat, pow_succ' wordBase n]
    exact (Nat.mod_mul (x := v) (a := wordBase) (b := wordBase ^ n)).symm

theorem valLE_wordsLE_of_lt {n v : Nat} (h : v < wordBase ^ n) : valLE (wordsLE n v) = v := by
  rw [valLE_wordsLE, Nat.mod_eq_of_lt h]

theorem val_wordsN {n v : Nat} (h : v < wordBase ^ n) : val (wordsN n v) = v := by
  rw [wordsN, val_reverse, valLE_wordsLE_of_lt h]

/-! Canonical lists: no leading zero word. -/

/-- No leading zero word (R14). -/
abbrev Canon (X : List Word) : Prop := X.head? ≠ some 0

theorem canon_strip (X : List Word) : Canon (strip X) := by
  intro h
  have := List.head?_dropWhile_not (fun w : Word => w == 0) X
  unfold strip at h
  rw [h] at this
  simp at this

theorem val_strip (X : List Word) : val (strip X) = val X := by
  induction X with
  | nil => rfl
  | cons x xs ih =>
    by_cases hx : x = 0
    · subst hx
      have h : strip (0 :: xs) = strip xs := by simp [strip]
      rw [h, ih]
      simp [val]
    · have h : strip (x :: xs) = x :: xs := List.dropWhile_cons_of_neg (by simpa using hx)
      rw [h]

theorem strip_length_le (X : List Word) : (strip X).length ≤ X.length :=
  (List.dropWhile_sublist _).length_le

theorem strip_of_canon {X : List Word} (h : Canon X) : strip X = X := by
  cases X with
  | nil => rfl
  | cons x xs =>
    have hx : x ≠ 0 := by simpa [Canon] using h
    exact List.dropWhile_cons_of_neg (by simpa using hx)

/-- A canonical list of n words is at least B^(n-1). -/
theorem le_val_of_canon {x : Word} {xs : List Word} (h : Canon (x :: xs)) :
    wordBase ^ xs.length ≤ val (x :: xs) := by
  have hx : x ≠ 0 := by simpa [Canon] using h
  have h1 : 1 ≤ x.toNat := by
    rcases Nat.eq_zero_or_pos x.toNat with h0 | h0
    · exact absurd (BitVec.eq_of_toNat_eq (by simpa using h0)) hx
    · exact h0
  have := Nat.mul_le_mul_right (wordBase ^ xs.length) h1
  simp only [val]
  omega

theorem length_le_iff_of_canon {X : List Word} (h : Canon X) (n : Nat) :
    X.length ≤ n ↔ val X < wordBase ^ n := by
  constructor
  · intro hn
    exact (val_lt X).trans_le (Nat.pow_le_pow_right wordBase_pos hn)
  · intro hv
    cases X with
    | nil => simp
    | cons x xs =>
      have h1 := (le_val_of_canon h).trans_lt hv
      have := (Nat.pow_lt_pow_iff_right one_lt_wordBase).1 h1
      simpa using this

theorem length_eq_of_canon {X Y : List Word} (hX : Canon X) (hY : Canon Y) (h : val X = val Y) :
    X.length = Y.length := by
  apply le_antisymm
  · exact (length_le_iff_of_canon hX _).2 (h ▸ val_lt Y)
  · exact (length_le_iff_of_canon hY _).2 (h ▸ val_lt X)

theorem eq_of_val_eq {X Y : List Word} (hl : X.length = Y.length) (h : val X = val Y) : X = Y := by
  induction X generalizing Y with
  | nil => cases Y with
    | nil => rfl
    | cons y ys => simp at hl
  | cons x xs ih =>
    cases Y with
    | nil => simp at hl
    | cons y ys =>
      have hl' : xs.length = ys.length := by simpa using hl
      have hx := val_lt xs
      have hy := val_lt ys
      rw [← hl'] at hy
      simp only [val, ← hl'] at h
      have hp : 0 < wordBase ^ xs.length := Nat.pow_pos wordBase_pos
      have h1 := congrArg (· / wordBase ^ xs.length) h
      simp only [Nat.mul_comm _ (wordBase ^ xs.length), Nat.mul_add_div hp, Nat.div_eq_of_lt hx,
        Nat.div_eq_of_lt hy, Nat.add_zero] at h1
      have hxy : x = y := BitVec.eq_of_toNat_eq h1
      subst hxy
      rw [ih hl' (by omega)]

/-- The canonical list of a value is unique (R14). -/
theorem canon_unique {X Y : List Word} (hX : Canon X) (hY : Canon Y) (h : val X = val Y) : X = Y :=
  eq_of_val_eq (length_eq_of_canon hX hY h) h

theorem canon_words (v : Nat) : Canon (words v) := canon_strip _

theorem lt_words_bound (v : Nat) : v < wordBase ^ (v.log2 / 32 + 1) := by
  have h : v < 2 ^ (v.log2 + 1) := Nat.lt_log2_self
  refine h.trans_le ?_
  rw [wordBase_pow]
  exact Nat.pow_le_pow_right (by decide) (by omega)

@[simp] theorem val_words (v : Nat) : val (words v) = v := by
  rw [words, val_strip, val_wordsN (lt_words_bound v)]

theorem words_of_canon {X : List Word} (h : Canon X) : words (val X) = X :=
  canon_unique (canon_words _) h (val_words _)

/-- `strip(X) = words(val(X))` (R14). -/
theorem strip_eq_words (X : List Word) : strip X = words (val X) := by
  rw [← val_strip X, words_of_canon (canon_strip X)]

theorem words_length_le_iff (v n : Nat) : (words v).length ≤ n ↔ v < wordBase ^ n := by
  rw [length_le_iff_of_canon (canon_words v), val_words]

@[simp] theorem words_zero : words 0 = [] := by decide

theorem words_eq_nil_iff (v : Nat) : words v = [] ↔ v = 0 := by
  constructor
  · intro h
    have := val_words v
    rw [h] at this
    simpa [val] using this.symm
  · rintro rfl; rfl

theorem words_inj {u v : Nat} (h : words u = words v) : u = v := by
  rw [← val_words u, h, val_words]

theorem words_length_lt_iff (v n : Nat) : n < (words v).length ↔ wordBase ^ n ≤ v := by
  rw [← not_le, words_length_le_iff, not_lt]

@[simp] theorem padTo_length {n : Nat} {X : List Word} (h : X.length ≤ n) : (padTo n X).length = n := by
  simp [padTo]; omega

@[simp] theorem val_padTo (n : Nat) (X : List Word) : val (padTo n X) = val X := by
  rw [padTo, val_append, val_replicate_zero]; simp

/-! The double-word datapath. -/

@[simp] theorem ext_toNat (w : Word) : (ext w).toNat = w.toNat := by
  have := w.isLt
  simp only [ext, BitVec.toNat_setWidth]
  omega

theorem lo_toNat (p : DWord) : (lo p).toNat = p.toNat % wordBase := by
  simp [lo, BitVec.extractLsb'_toNat, wordBase_eq]

theorem hi_toNat (p : DWord) : (hi p).toNat = p.toNat / wordBase := by
  have := p.isLt
  simp only [hi, BitVec.extractLsb'_toNat, Nat.shiftRight_eq_div_pow, wordBase_eq]
  omega

theorem lo_add_hi (p : DWord) : (lo p).toNat + wordBase * (hi p).toNat = p.toNat := by
  rw [lo_toNat, hi_toNat]
  exact Nat.mod_add_div _ _

@[simp] theorem cat_toNat (h l : Word) : (cat h l).toNat = h.toNat * wordBase + l.toNat := by
  have hl := l.isLt
  rw [cat, BitVec.toNat_append, ← Nat.shiftLeft_add_eq_or_of_lt hl, Nat.shiftLeft_eq, wordBase]

/-- R20: the multiply-accumulate fits one double-word. -/
theorem mulAdd64_toNat (a b c d : Word) :
    (mulAdd64 a b c d).toNat = a.toNat * b.toNat + c.toNat + d.toNat := by
  have ha := a.isLt
  have hb := b.isLt
  have hc := c.isLt
  have hd := d.isLt
  have hab : a.toNat * b.toNat ≤ (2 ^ 32 - 1) * (2 ^ 32 - 1) :=
    Nat.mul_le_mul (by omega) (by omega)
  simp only [mulAdd64, BitVec.toNat_add, BitVec.toNat_mul, ext_toNat]
  omega

theorem mulAdd64_lo_hi (a b c d : Word) :
    (lo (mulAdd64 a b c d)).toNat + wordBase * (hi (mulAdd64 a b c d)).toNat
      = a.toNat * b.toNat + c.toNat + d.toNat := by
  rw [lo_add_hi, mulAdd64_toNat]

@[simp] theorem carry_toNat (c : Bool) : (carry c).toNat = c.toNat := by cases c <;> rfl

/-- A 33-bit sum as its low word and its carry bit. -/
theorem lo_add_bit32 {p : DWord} (h : p.toNat < 2 ^ 33) :
    (lo p).toNat + wordBase * (p.getLsbD 32).toNat = p.toNat := by
  rw [lo_toNat, BitVec.getLsbD, Nat.testBit_eq_decide_div_mod_eq, wordBase_eq]
  have h2 : p.toNat / 2 ^ 32 < 2 := by omega
  rcases Nat.lt_or_ge p.toNat (2 ^ 32) with h1 | h1
  · have : p.toNat / 2 ^ 32 = 0 := by omega
    rw [this]; simp; omega
  · have : p.toNat / 2 ^ 32 = 1 := by omega
    rw [this]; simp; omega

end Sys2Proof.Machine
end

