-- ==== Sys2Proof/Laws/AddSub.lean ====
section
/-! SUPPORT. The adder/subtractor computes what 41_addsub.md says: addMag adds, subMag subtracts, compareMag is the
order of the values, and sadd(a, b) = a + b exactly (R500 to R504). -/

namespace Sys2Proof.Machine

theorem canon_of_le {X : List Word} (h : wordBase ^ (X.length - 1) ≤ val X) : Canon X := by
  cases X with
  | nil => simp
  | cons x xs =>
    intro h0
    have hx : x = 0 := by simpa using h0
    subst hx
    have := val_lt xs
    simp [val] at h
    omega

/-! Addition. -/

theorem valLE_addLoop (xs ys : List Word) (c : Bool) (h : ys.length ≤ xs.length) :
    valLE (addLoop xs ys c) = valLE xs + valLE ys + c.toNat := by
  induction xs generalizing ys c with
  | nil =>
    have : ys = [] := by simpa using h
    subst this
    cases c <;> simp [addLoop, valLE]
  | cons x xs ih =>
    have ht : ys.tail.length ≤ xs.length := by simp at h ⊢; omega
    have hs : (ext x + ext (ys.headD 0) + ext (carry c)).toNat = x.toNat + (ys.headD 0).toNat + c.toNat := by
      have h1 := x.isLt
      have h2 := (ys.headD 0).isLt
      have h3 := c.toNat_lt
      simp only [BitVec.toNat_add, ext_toNat, carry_toNat]
      omega
    have hb := lo_add_bit32 (p := ext x + ext (ys.headD 0) + ext (carry c)) (by
      have h1 := x.isLt
      have h2 := (ys.headD 0).isLt
      have h3 := c.toNat_lt
      omega)
    rw [addLoop, valLE, ih _ _ ht, valLE, valLE_head_tail ys]
    rw [hs] at hb
    linarith

theorem addLoop_length (xs ys : List Word) (c : Bool) :
    xs.length ≤ (addLoop xs ys c).length ∧ (addLoop xs ys c).length ≤ xs.length + 1 := by
  induction xs generalizing ys c with
  | nil => cases c <;> simp [addLoop]
  | cons x xs ih => have := ih ys.tail ((ext x + ext (ys.headD 0) + ext (carry c)).getLsbD 32)
                    simp only [addLoop, List.length_cons]; omega

/-- The value of R500's result. -/
theorem val_addMag (X Y : List Word) : val (addMag X Y) = val X + val Y := by
  unfold addMag
  split
  · rw [val_reverse, valLE_addLoop _ _ _ (by simp; omega), valLE_reverse, valLE_reverse]
    simp [Nat.add_comm]
  · rw [val_reverse, valLE_addLoop _ _ _ (by simp; omega), valLE_reverse, valLE_reverse]
    simp

/-- R500: one more word appears exactly on a carry out, with the word 1 on top. -/
theorem addLoop_grows {xs ys : List Word} {c : Bool} (h : (addLoop xs ys c).length = xs.length + 1) :
    wordBase ^ xs.length ≤ valLE (addLoop xs ys c) := by
  induction xs generalizing ys c with
  | nil => cases c <;> simp_all [addLoop, valLE]
  | cons x xs ih =>
    simp only [addLoop, List.length_cons, Nat.add_right_cancel_iff] at h
    have := ih h
    simp only [addLoop, List.length_cons, valLE, pow_succ]
    nlinarith [wordBase_pos]

/-- R500: for canonical operands the result has no leading zero word. -/
theorem addMag_eq_words {X Y : List Word} (hX : Canon X) (hY : Canon Y) :
    addMag X Y = words (val X + val Y) := by
  have key : ∀ P Q : List Word, Canon P → Q.length ≤ P.length → Canon (addLoop P.reverse Q.reverse false).reverse := by
    intro P Q hP hl
    cases P with
    | nil => simp [addLoop, Canon]
    | cons p ps =>
      apply canon_of_le
      have ⟨h1, h2⟩ := addLoop_length (p :: ps).reverse Q.reverse false
      rw [val_reverse, List.length_reverse]
      rcases Nat.lt_or_ge (p :: ps).reverse.length (addLoop (p :: ps).reverse Q.reverse false).length with h3 | h3
      · have h4 : (addLoop (p :: ps).reverse Q.reverse false).length = (p :: ps).reverse.length + 1 := by omega
        rw [h4]; exact addLoop_grows h4
      · have h4 : (addLoop (p :: ps).reverse Q.reverse false).length = ps.length + 1 := by
          simp only [List.length_reverse, List.length_cons] at *; omega
        have := le_val_of_canon hP
        rw [h4, valLE_addLoop _ _ _ (by simpa using hl), valLE_reverse]
        exact this.trans (by omega)
  apply canon_unique _ (canon_words _)
  · rw [val_addMag, val_words]
  · unfold addMag
    split
    · exact key Y X hY (by omega)
    · exact key X Y hX (by omega)

/-! Comparison. -/

theorem cmpWords_eq {X Y : List Word} (h : X.length = Y.length) :
    cmpWords X Y = ((val X : Int) - val Y).sign := by
  induction X generalizing Y with
  | nil =>
    have : Y = [] := by simpa using h.symm
    subst this; rfl
  | cons x xs ih =>
    cases Y with
    | nil => simp at h
    | cons y ys =>
      have hl : xs.length = ys.length := by simpa using h
      have hx := val_lt xs
      have hy := val_lt ys
      rw [← hl] at hy
      simp only [cmpWords, val, ← hl]
      split
      · rename_i hlt
        have : (x.toNat + 1) * wordBase ^ xs.length ≤ y.toNat * wordBase ^ xs.length := Nat.mul_le_mul_right _ hlt
        symm
        rw [Int.sign_eq_neg_one_iff_neg]
        push_cast
        have h2 : x.toNat * wordBase ^ xs.length + val xs < y.toNat * wordBase ^ xs.length + val ys := by linarith
        have h3 : ((x.toNat * wordBase ^ xs.length + val xs : Nat) : Int) < (y.toNat * wordBase ^ xs.length + val ys : Nat) := by
          exact_mod_cast h2
        push_cast at h3
        linarith
      · split
        · rename_i _ hlt
          have : (y.toNat + 1) * wordBase ^ xs.length ≤ x.toNat * wordBase ^ xs.length := Nat.mul_le_mul_right _ hlt
          symm
          rw [Int.sign_eq_one_iff_pos]
          have h2 : y.toNat * wordBase ^ xs.length + val ys < x.toNat * wordBase ^ xs.length + val xs := by linarith
          have h3 : ((y.toNat * wordBase ^ xs.length + val ys : Nat) : Int) < (x.toNat * wordBase ^ xs.length + val xs : Nat) := by
            exact_mod_cast h2
          linarith
        · have hxy : x.toNat = y.toNat := by omega
          rw [ih hl, hxy]
          push_cast
          congr 1
          ring

/-- R501: for canonical lists the compare is the order of the values. -/
theorem compareMag_eq {X Y : List Word} (hX : Canon X) (hY : Canon Y) :
    compareMag X Y = ((val X : Int) - val Y).sign := by
  unfold compareMag
  split
  · rename_i h
    have h1 : val X < val Y := by
      by_contra hc
      have := (length_le_iff_of_canon hY X.length).2 (lt_of_le_of_lt (Nat.le_of_not_lt hc) (val_lt X))
      omega
    symm; rw [Int.sign_eq_neg_one_iff_neg]; omega
  · split
    · rename_i _ h
      have h1 : val Y < val X := by
        by_contra hc
        have := (length_le_iff_of_canon hX Y.length).2 (lt_of_le_of_lt (Nat.le_of_not_lt hc) (val_lt Y))
        omega
      symm; rw [Int.sign_eq_one_iff_pos]; omega
    · exact cmpWords_eq (by omega)

theorem compareMag_words (a b : Nat) : compareMag (words a) (words b) = ((a : Int) - b).sign := by
  rw [compareMag_eq (canon_words a) (canon_words b), val_words, val_words]

/-! Subtraction. -/

@[simp] theorem subLoop_length (xs ys : List Word) (b : Bool) : (subLoop xs ys b).length = xs.length := by
  induction xs generalizing ys b with
  | nil => rfl
  | cons x xs ih => simp [subLoop, ih]

/-- The borrow chain subtracts exactly where the difference is not negative. -/
theorem valLE_subLoop (xs ys : List Word) (b : Bool) (hl : ys.length ≤ xs.length)
    (h : valLE ys + b.toNat ≤ valLE xs) : valLE (subLoop xs ys b) + (valLE ys + b.toNat) = valLE xs := by
  have key : ∀ (xs ys : List Word) (b : Bool), ys.length ≤ xs.length →
      ∃ k : Nat, valLE (subLoop xs ys b) + (valLE ys + b.toNat) = valLE xs + k * wordBase ^ xs.length := by
    intro xs
    induction xs with
    | nil =>
      intro ys b hl
      have : ys = [] := by simpa using hl
      subst this
      exact ⟨b.toNat, by simp [subLoop, valLE]⟩
    | cons x xs ih =>
      intro ys b hl
      have ht : ys.tail.length ≤ xs.length := by simp at hl ⊢; omega
      obtain ⟨k, hk⟩ := ih ys.tail (decide ((x.toNat : Int) - ((ys.headD 0).toNat : Int) - (b.toNat : Int) < 0)) ht
      refine ⟨k, ?_⟩
      have hx := x.isLt
      have hy := (ys.headD 0).isLt
      have hb := b.toNat_lt
      have hd : (BitVec.ofInt 32 ((x.toNat : Int) - ((ys.headD 0).toNat : Int) - (b.toNat : Int))).toNat
          + (ys.headD 0).toNat + b.toNat = x.toNat + wordBase *
            (decide ((x.toNat : Int) - ((ys.headD 0).toNat : Int) - (b.toNat : Int) < 0)).toNat := by
        rw [BitVec.toNat_ofInt, wordBase_eq]
        by_cases hneg : (x.toNat : Int) - ((ys.headD 0).toNat : Int) - (b.toNat : Int) < 0
        · simp only [hneg, decide_true, Bool.toNat_true]; omega
        · simp only [hneg, decide_false, Bool.toNat_false]; omega
      simp only [subLoop, valLE, List.length_cons, pow_succ]
      rw [valLE_head_tail ys]
      nlinarith
  obtain ⟨k, hk⟩ := key xs ys b hl
  have h1 := valLE_lt (subLoop xs ys b)
  rw [subLoop_length] at h1
  rcases Nat.eq_zero_or_pos k with h0 | h0
  · subst h0; simpa using hk
  · have : wordBase ^ xs.length ≤ k * wordBase ^ xs.length := Nat.le_mul_of_pos_left _ h0
    omega

/-- R502: for val(X) ≥ val(Y) the result is words(val(X) - val(Y)). -/
theorem subMag_eq_words {X Y : List Word} (hl : Y.length ≤ X.length) (h : val Y ≤ val X) :
    subMag X Y = words (val X - val Y) := by
  have := valLE_subLoop X.reverse Y.reverse false (by simpa using hl) (by simpa [valLE_reverse] using h)
  simp only [valLE_reverse, Bool.toNat_false, Nat.add_zero] at this
  rw [subMag, strip_eq_words, val_reverse]
  congr 1
  omega

theorem words_length_mono {a b : Nat} (h : a ≤ b) : (words a).length ≤ (words b).length := by
  rw [words_length_le_iff]
  exact lt_of_le_of_lt h (by simpa using val_lt (words b))

theorem val_subMag_words {a b : Nat} (h : b ≤ a) : val (subMag (words a) (words b)) = a - b := by
  rw [subMag_eq_words (words_length_mono h) (by simpa using h)]
  simp

/-- R504: signed addition is exact. -/
theorem sadd_eq (a b : Int) : sadd a b = a + b := by
  unfold sadd
  split
  · simp_all
  split
  · simp_all
  rename_i hb ha
  split
  · rename_i hs
    rw [val_addMag, val_words, val_words, Nat.cast_add]
    have h1 := Int.sign_mul_natAbs a
    have h2 := Int.sign_mul_natAbs b
    rw [mul_add, h1, hs, h2]
  · rename_i hs
    have h1 := Int.sign_mul_natAbs a
    have h2 := Int.sign_mul_natAbs b
    have hsum : a.sign = -b.sign := by
      rcases lt_trichotomy a 0 with h | h | h <;> rcases lt_trichotomy b 0 with h' | h' | h' <;>
        simp_all [Int.sign_eq_neg_one_of_neg, Int.sign_eq_one_of_pos]
    simp only [compareMag_words]
    split
    · rename_i hc
      have h3 : (a.natAbs : Int) = b.natAbs := by
        have := Int.sign_eq_zero_iff_zero.1 hc
        omega
      rw [← h1, ← h2, hsum, h3]; ring
    · split
      · rename_i _ hc
        have h3 : b.natAbs ≤ a.natAbs := by
          have := Int.sign_pos_iff.1 hc
          omega
        rw [val_subMag_words h3, Nat.cast_sub h3, mul_sub, h1, hsum, neg_mul, h2]; ring
      · rename_i hc0 hc
        have h3 : a.natAbs ≤ b.natAbs := by
          have : ¬ 0 < ((a.natAbs : Int) - b.natAbs) := fun h => hc (Int.sign_pos_iff.2 h)
          omega
        rw [val_subMag_words h3, Nat.cast_sub h3, mul_sub, h2]
        have : b.sign * (a.natAbs : Int) = -a := by rw [← neg_eq_iff_eq_neg.2 hsum, neg_mul, h1]
        rw [this]; ring

end Sys2Proof.Machine
end

