-- ==== Sys2Proof/Laws/Aperture.lean ====
section
/-! SUPPORT. What a host access reaches: one lemma per kind of target (20_memory.md R203, R206, R211). -/

namespace Sys2Proof.Machine

theorem target_reg (c : Config) (r : HostReg) : target c (BitVec.ofNat 19 r.offset) .b32 = .reg r := by cases r <;> rfl

/-- No register's offset lies past the register block. -/
theorem find_reg_none {n : Nat} (h : 0x28 ≤ n) : HostReg.all.find? (fun r => r.offset == n) = none := by
  rw [List.find?_eq_none]
  intro r _
  cases r <;> simp [HostReg.offset] <;> omega

theorem target_om {c : Config} {off : BitVec 19} {a : Nat} (ha : a < c.omw) (h : off.toNat = omOffset + 4 * a) :
    target c off .b32 = .om a := by
  unfold target mapOffset
  unfold omOffset at h
  rw [if_pos ⟨rfl, by omega⟩, find_reg_none (by omega)]
  simp only
  rw [if_pos (by unfold omOffset; omega)]
  congr 1
  unfold omOffset; omega

theorem target_illegal_form {c : Config} {off : BitVec 19} {size : Size} (h : size ≠ .b32 ∨ off.toNat % 4 ≠ 0) :
    target c off size = .illegal := by
  unfold target
  rw [if_neg]
  rintro ⟨h1, h2⟩
  exact h.elim (fun h => h h1) (fun h => h h2)

theorem target_illegal_hole {c : Config} {off : BitVec 19}
    (h : (0x28 ≤ off.toNat ∧ off.toNat < omOffset) ∨ omOffset + 4 * c.omw ≤ off.toNat) :
    target c off .b32 = .illegal := by
  unfold target mapOffset
  unfold omOffset at *
  split
  · rw [find_reg_none (by omega)]
    simp only
    rw [if_neg (by omega)]
  · rfl

@[simp] theorem serve_read_reg (s : State) (r : HostReg) :
    s.serve (.read (BitVec.ofNat 19 r.offset) .b32) = { s with response := .data (s.readReg r) } := by
  simp only [State.serve, State.hostRead, target_reg]

@[simp] theorem serve_write_reg (s : State) (r : HostReg) (d : Word) :
    s.serve (.write (BitVec.ofNat 19 r.offset) .b32 d) = { s.writeReg r d with response := .ack } := by
  simp only [State.serve, State.hostWrite, target_reg]

end Sys2Proof.Machine
end

