-- ==== Sys2Proof/Laws/Bitwise.lean ====
section
/-! SUPPORT. The two's-complement unit computes on the infinite two's-complement form of R11 (45_bitwise.md R900 to
R910): its accessor reads the form's words, `valueOf` reads a pattern back, and the commands are the integer
operations `Int.land`, `Int.lor`, `Int.xor`, `Int.ldiff` and `Int.lnot`. -/

namespace Sys2Proof.Machine

/-! Bit length (R12). -/

theorem bitlen_le_iff (v : Int) (k : Nat) : bitlen v ≤ k ↔ -2 ^ k ≤ v ∧ v < 2 ^ k := by
  have hp : ((2 ^ k : Nat) : Int) = 2 ^ k := by push_cast; rfl
  cases v with
  | ofNat n =>
    rw [bitlen, natBits_le_iff, ← hp, Int.ofNat_eq_natCast]
    omega
  | negSucc n =>
    rw [bitlen, natBits_le_iff, ← hp, Int.negSucc_eq]
    omega

/-! Words of the infinite form (R11). -/

theorem sliceWord_ofNat (n k : Nat) : sliceWord (.ofNat n) k = BitVec.ofNat 32 (n / wordBase ^ k) := by
  have h : (Int.ofNat n).fdiv (2 ^ (32 * k)) = ((n / wordBase ^ k : Nat) : Int) := by
    rw [wordBase_pow, Int.ofNat_eq_natCast, Int.fdiv_eq_ediv_of_nonneg _ (by positivity)]
    push_cast; rfl
  rw [sliceWord, h, BitVec.ofInt_natCast]

theorem sliceWord_negSucc (n k : Nat) : sliceWord (.negSucc n) k = ~~~BitVec.ofNat 32 (n / wordBase ^ k) := by
  have h : (Int.negSucc n).fdiv (2 ^ (32 * k)) = Int.negSucc (n / wordBase ^ k) := by
    have hp : ((2 : Int) ^ (32 * k)) = ((2 ^ (32 * k) : Nat) : Int) := by push_cast; rfl
    rw [wordBase_pow, Int.fdiv_eq_ediv_of_nonneg _ (by positivity), hp]
    exact Int.negSucc_ediv _ (by positivity)
  rw [sliceWord, h]
  apply BitVec.eq_of_toNat_eq
  rw [BitVec.toNat_ofInt, BitVec.toNat_not, BitVec.toNat_ofNat]
  generalize n / wordBase ^ k = q
  rw [Int.negSucc_eq]
  omega

theorem getLsbD_sliceWord (x : Int) (k j : Nat) :
    (sliceWord x k).getLsbD j = (decide (j < 32) && x.testBit (32 * k + j)) := by
  cases x with
  | ofNat n =>
    rw [sliceWord_ofNat, wordBase_pow, BitVec.getLsbD_ofNat, Nat.testBit_div_two_pow, Nat.add_comm]; rfl
  | negSucc n =>
    rw [sliceWord_negSucc, wordBase_pow, BitVec.getLsbD_not, BitVec.getLsbD_ofNat, Nat.testBit_div_two_pow, Nat.add_comm]
    by_cases h : j < 32 <;> simp [h, Int.testBit]

/-- Two integers whose words agree have bits that agree, and the reverse. -/
theorem sliceWord_ext {x : Int} {k : Nat} {w : Word} (h : ∀ j, j < 32 → w.getLsbD j = x.testBit (32 * k + j)) :
    w = sliceWord x k := by
  apply BitVec.eq_of_getLsbD_eq
  intro j hj
  rw [getLsbD_sliceWord, h j hj]
  simp [hj]

/-! The accessor (R900). -/

theorem getD_toNat (xs : List Word) (k : Nat) : (xs.getD k 0).toNat = valLE xs / wordBase ^ k % wordBase := by
  induction xs generalizing k with
  | nil => simp [valLE]
  | cons x xs ih =>
    have hx := toNat_lt_base x
    cases k with
    | zero => rw [List.getD_cons_zero, pow_zero, Nat.div_one, valLE, Nat.add_mul_mod_self_left, Nat.mod_eq_of_lt hx]
    | succ k =>
      rw [List.getD_cons_succ, ih, valLE, pow_succ', ← Nat.div_div_eq_div_mul, Nat.add_mul_div_left _ _ wordBase_pos,
        Nat.div_eq_of_lt hx, Nat.zero_add]

/-- `lw(X, k)` is word k of the value (R13). -/
theorem lw_eq (X : List Word) (k : Nat) : lw X k = BitVec.ofNat 32 (val X / wordBase ^ k) := by
  apply BitVec.eq_of_toNat_eq
  rw [lw, getD_toNat, valLE_reverse, BitVec.toNat_ofNat]; rfl

theorem le_findIdx_iff (xs : List Word) (k : Nat) (h : k ≤ xs.length) :
    k ≤ xs.findIdx (· != 0) ↔ valLE xs % wordBase ^ k = 0 := by
  induction xs generalizing k with
  | nil =>
    have : k = 0 := by simpa using h
    subst this
    simp [valLE]
  | cons x xs ih =>
    cases k with
    | zero => simp [Nat.mod_one]
    | succ k =>
      have hx := toNat_lt_base x
      have hm : valLE (x :: xs) % wordBase ^ (k + 1) = x.toNat + wordBase * (valLE xs % wordBase ^ k) := by
        rw [valLE, pow_succ', Nat.mod_mul, Nat.add_mul_mod_self_left, Nat.mod_eq_of_lt hx,
          Nat.add_mul_div_left _ _ wordBase_pos, Nat.div_eq_of_lt hx, Nat.zero_add]
      rw [hm, List.findIdx_cons]
      by_cases h0 : x = 0
      · subst h0
        rw [show ((0 : Word) != 0) = false by decide, cond_false, Nat.add_le_add_iff_right, ih k (by simpa using h)]
        have hB := wordBase_pos
        have h1 : (0 : Word).toNat = 0 := rfl
        rw [h1, Nat.zero_add, Nat.mul_eq_zero]
        omega
      · have h1 : (x != 0) = true := by simpa using h0
        rw [h1, cond_true]
        have : x.toNat ≠ 0 := fun hc => h0 (BitVec.eq_of_toNat_eq (by simpa using hc))
        omega

/-- R900: the accessor reads word k of the infinite two's-complement form. -/
theorem tcw_eq (x : Int) (k : Nat) : tcw x k = sliceWord x k := by
  have hB : ∀ j, 0 < wordBase ^ j := fun j => Nat.pow_pos wordBase_pos
  cases x with
  | ofNat n =>
    have h0 : ¬ (Int.ofNat n < 0) := by simp
    have h1 : (0 : Int) ≤ Int.ofNat n := by simp
    have hn : (Int.ofNat n).natAbs = n := rfl
    rw [sliceWord_ofNat]
    simp only [tcw, h0, h1, hn, if_false, if_true]
    split
    · rename_i hl
      rw [Nat.div_eq_of_lt ((words_length_le_iff n k).1 hl)]; rfl
    · rw [lw_eq, val_words]
  | negSucc n =>
    have h0 : Int.negSucc n < 0 := Int.negSucc_lt_zero n
    have h1 : ¬ (0 : Int) ≤ Int.negSucc n := by omega
    have hn : (Int.negSucc n).natAbs = n + 1 := rfl
    rw [sliceWord_negSucc]
    simp only [tcw, h0, h1, hn, if_false, if_true]
    split
    · rename_i hl
      have := (words_length_le_iff (n + 1) k).1 hl
      rw [Nat.div_eq_of_lt (by omega)]; decide
    · rename_i hl
      have hkl : k + 1 ≤ (words (n + 1)).reverse.length := by rw [List.length_reverse]; omega
      have hk := le_findIdx_iff (words (n + 1)).reverse k (by omega)
      have hk1 := le_findIdx_iff (words (n + 1)).reverse (k + 1) hkl
      rw [valLE_reverse, val_words] at hk hk1
      rw [lw_eq, val_words]
      -- below and at the first nonzero word the words below are zero
      have low : (n + 1) % wordBase ^ k = 0 →
          ~~~BitVec.ofNat 32 (n / wordBase ^ k) = -BitVec.ofNat 32 ((n + 1) / wordBase ^ k) := by
        intro hz
        have hq := Nat.div_add_mod (n + 1) (wordBase ^ k)
        rw [hz, Nat.add_zero] at hq
        set q := (n + 1) / wordBase ^ k
        have hq0 : 0 < q := by
          rcases Nat.eq_zero_or_pos q with h | h
          · rw [h, Nat.mul_zero] at hq; omega
          · exact h
        obtain ⟨p, hp⟩ : ∃ p, q = p + 1 := ⟨q - 1, by omega⟩
        have hd : n / wordBase ^ k = p := by
          rw [hp, Nat.mul_add, Nat.mul_one] at hq
          have := hB k
          apply Nat.div_eq_of_lt_le
          · rw [Nat.mul_comm]; omega
          · rw [Nat.mul_comm, Nat.mul_add, Nat.mul_one]; omega
        rw [hd, hp, BitVec.neg_eq_not_add, BitVec.ofNat_add]
        apply BitVec.eq_of_toNat_eq
        simp only [BitVec.toNat_not, BitVec.toNat_add, BitVec.toNat_ofNat]
        omega
      have high : (n + 1) % wordBase ^ k ≠ 0 → (n + 1) / wordBase ^ k = n / wordBase ^ k := by
        intro hz
        rw [Nat.succ_div, if_neg]
        · rfl
        · intro hd; exact hz (Nat.mod_eq_zero_of_dvd hd)
      unfold firstNonzero
      split
      · rename_i hlt
        rw [low (hk.1 (by omega))]
        have hz := hk1.1 hlt
        have hzz : (n + 1) / wordBase ^ k % wordBase = 0 := by
          rw [pow_succ, Nat.mod_mul] at hz
          have h2 := Nat.eq_zero_of_add_eq_zero_left hz
          rcases Nat.mul_eq_zero.1 h2 with h3 | h3
          · have := hB k; omega
          · exact h3
        have hw : BitVec.ofNat 32 ((n + 1) / wordBase ^ k) = 0 := by
          apply BitVec.eq_of_toNat_eq
          rw [BitVec.toNat_ofNat]; exact hzz
        rw [hw]; rfl
      · split
        · rename_i heq
          rw [low (hk.1 (by omega))]
        · rename_i hge hne
          rw [high (fun hz => by have := hk.2 hz; omega)]

/-! Patterns (R901). -/

theorem wordsLE_eq_map (K v : Nat) :
    wordsLE K v = (List.range K).map (fun k => BitVec.ofNat 32 (v / wordBase ^ k)) := by
  induction K generalizing v with
  | zero => rfl
  | succ K ih =>
    rw [List.range_succ_eq_map, List.map_cons, List.map_map, wordsLE, ih, pow_zero, Nat.div_one]
    congr 1
    apply List.map_congr_left
    intro k _
    rw [Function.comp, Nat.succ_eq_add_one, pow_succ', Nat.div_div_eq_div_mul]

theorem not_toNat (w : Word) : (~~~w).toNat = wordBase - 1 - w.toNat := by
  rw [BitVec.toNat_not, wordBase]

theorem valLE_map_not (L : List Word) : valLE (L.map (fun w => ~~~w)) + valLE L = wordBase ^ L.length - 1 := by
  induction L with
  | nil => simp [valLE]
  | cons w L ih =>
    have hw := toNat_lt_base w
    have hB := wordBase_pos
    have hp : 0 < wordBase ^ L.length := Nat.pow_pos hB
    rw [List.map_cons, valLE, valLE, not_toNat, List.length_cons, pow_succ']
    have e : wordBase * (valLE (L.map (fun w => ~~~w)) + valLE L) = wordBase * wordBase ^ L.length - wordBase := by
      rw [ih, Nat.mul_sub, Nat.mul_one]
    have e2 : wordBase ≤ wordBase * wordBase ^ L.length := Nat.le_mul_of_pos_right _ hp
    rw [Nat.mul_add] at e
    omega

theorem negLoop_spec (L : List Word) (c : Bool) :
    (negLoop L c).length = L.length ∧
      valLE (negLoop L c) = (wordBase ^ L.length - 1 - valLE L + c.toNat) % wordBase ^ L.length := by
  induction L generalizing c with
  | nil => simp [negLoop, valLE, Nat.mod_one]
  | cons w L ih =>
    have hw := w.isLt
    have hc := c.toNat_lt
    have hB := wordBase_pos
    have hp : 0 < wordBase ^ L.length := Nat.pow_pos hB
    have hv := valLE_lt L
    have ht : (ext (~~~w) + ext (carry c)).toNat = (wordBase - 1 - w.toNat) + c.toNat := by
      rw [BitVec.toNat_add, ext_toNat, ext_toNat, carry_toNat, not_toNat, wordBase]; omega
    have hb := lo_add_bit32 (p := ext (~~~w) + ext (carry c)) (by rw [ht, wordBase]; omega)
    rw [ht] at hb
    obtain ⟨i1, i2⟩ := ih ((ext (~~~w) + ext (carry c)).getLsbD 32)
    refine ⟨by simp only [negLoop, List.length_cons, i1], ?_⟩
    simp only [negLoop, valLE, i2, List.length_cons, pow_succ']
    generalize ((ext (~~~w) + ext (carry c)).getLsbD 32).toNat = cc at *
    have hlo := toNat_lt_base (lo (ext (~~~w) + ext (carry c)))
    generalize (lo (ext (~~~w) + ext (carry c))).toNat = l at *
    have e : wordBase * wordBase ^ L.length - 1 - (w.toNat + wordBase * valLE L) + c.toNat =
        l + wordBase * (wordBase ^ L.length - 1 - valLE L + cc) := by
      have e1 : wordBase * (wordBase ^ L.length - 1 - valLE L + cc) =
          wordBase * wordBase ^ L.length - wordBase - wordBase * valLE L + wordBase * cc := by
        rw [Nat.mul_add, Nat.mul_sub, Nat.mul_sub, Nat.mul_one]
      have e2 : wordBase * (valLE L + 1) ≤ wordBase * wordBase ^ L.length := Nat.mul_le_mul_left _ hv
      rw [Nat.mul_add, Nat.mul_one] at e2
      have hw' := toNat_lt_base w
      rw [e1]
      omega
    rw [e, Nat.mod_mul, Nat.add_mul_mod_self_left, Nat.mod_eq_of_lt hlo, Nat.add_mul_div_left _ _ hB,
      Nat.div_eq_of_lt hlo, Nat.zero_add]

@[simp] theorem pattern_length (K : Nat) (f : Nat → Word) : (pattern K f).length = K := by simp [pattern]

theorem val_pattern (K : Nat) (f : Nat → Word) : val (pattern K f) = valLE ((List.range K).map f) := val_reverse _

theorem pattern_headD (K : Nat) (f : Nat → Word) : (pattern (K + 1) f).headD 0 = f K := by
  simp [pattern, List.range_succ]

/-- A pattern of words of v, wide enough for v, reads back as v (R901, R902). -/
theorem valueOf_pattern {v : Int} {K : Nat} (h : bitlen v < 32 * K) : valueOf (pattern K (sliceWord v)) = v := by
  obtain ⟨K, rfl⟩ : ∃ j, K = j + 1 := ⟨K - 1, by omega⟩
  have htop : ((pattern (K + 1) (sliceWord v)).headD 0).getLsbD 31 = v.testBit (32 * K + 31) := by
    rw [pattern_headD, getLsbD_sliceWord]; simp
  have hBK : 2 ^ (32 * K + 31) * 2 = wordBase ^ (K + 1) := by rw [wordBase_pow, ← pow_succ]; congr 1
  unfold valueOf
  rw [htop]
  cases v with
  | ofNat n =>
    have hn : n < 2 ^ (32 * K + 31) := (natBits_le_iff _ _).1 (by rw [bitlen] at h; omega)
    have ht : (Int.ofNat n).testBit (32 * K + 31) = false := Nat.testBit_lt_two_pow hn
    rw [ht, if_neg (by decide), val_pattern]
    have : (List.range (K + 1)).map (sliceWord (Int.ofNat n)) = wordsLE (K + 1) n := by
      rw [wordsLE_eq_map]
      exact List.map_congr_left (fun k _ => sliceWord_ofNat n k)
    rw [this, valLE_wordsLE_of_lt (by omega)]
    rfl
  | negSucc n =>
    have hn : n < 2 ^ (32 * K + 31) := (natBits_le_iff _ _).1 (by rw [bitlen] at h; omega)
    have ht : (Int.negSucc n).testBit (32 * K + 31) = true := by
      rw [Int.testBit, Nat.testBit_lt_two_pow hn]; rfl
    rw [ht, if_pos rfl, makePositive, val_reverse, pattern, List.reverse_reverse]
    have hm : (List.range (K + 1)).map (sliceWord (Int.negSucc n)) = (wordsLE (K + 1) n).map (fun w => ~~~w) := by
      rw [wordsLE_eq_map, List.map_map]
      exact List.map_congr_left (fun k _ => sliceWord_negSucc n k)
    obtain ⟨_, h2⟩ := negLoop_spec ((wordsLE (K + 1) n).map (fun w => ~~~w)) true
    have h3 := valLE_map_not (wordsLE (K + 1) n)
    have h4 : valLE (wordsLE (K + 1) n) = n := valLE_wordsLE_of_lt (by omega)
    rw [h4, wordsLE_length] at h3
    rw [List.length_map, wordsLE_length] at h2
    have hr : wordBase ^ (K + 1) - 1 - valLE ((wordsLE (K + 1) n).map (fun w => ~~~w)) + true.toNat = n + 1 := by
      have : true.toNat = 1 := rfl
      omega
    rw [hm, h2, hr, Nat.mod_eq_of_lt (by omega), Int.negSucc_eq]
    push_cast; rfl

/-- Two's-complement length (R902). -/
theorem bitlen_lt_tcLen (x : Int) : bitlen x < 32 * tcLen x := by unfold tcLen; omega

/-! The commands. -/

theorem natBits_mono {m n : Nat} (h : m ≤ n) : natBits m ≤ natBits n :=
  (natBits_le_iff _ _).2 (h.trans_lt (lt_two_pow_natBits n))

theorem natBits_lt_of_le {m k : Nat} (h : m < 2 ^ k) : natBits m ≤ k := (natBits_le_iff _ _).2 h

theorem lt_two_pow_max (m n : Nat) :
    m < 2 ^ max (natBits m) (natBits n) ∧ n < 2 ^ max (natBits m) (natBits n) :=
  ⟨(natBits_le_iff _ _).1 (le_max_left _ _), (natBits_le_iff _ _).1 (le_max_right _ _)⟩

theorem ldiff_le (m n : Nat) : Nat.ldiff m n ≤ m := by
  apply Nat.le_of_testBit
  intro i h
  rw [Nat.testBit_ldiff] at h
  simp_all

theorem bitlen_land (a b : Int) : bitlen (a.land b) ≤ max (bitlen a) (bitlen b) := by
  cases a with
  | ofNat m => cases b with
    | ofNat n => exact natBits_lt_of_le (Nat.and_lt_two_pow _ (lt_two_pow_max m n).2)
    | negSucc n => exact (natBits_mono (ldiff_le m n)).trans (le_max_left _ _)
  | negSucc m => cases b with
    | ofNat n => exact (natBits_mono (ldiff_le n m)).trans (le_max_right _ _)
    | negSucc n => exact natBits_lt_of_le (Nat.or_lt_two_pow (lt_two_pow_max m n).1 (lt_two_pow_max m n).2)

theorem bitlen_lor (a b : Int) : bitlen (a.lor b) ≤ max (bitlen a) (bitlen b) := by
  cases a with
  | ofNat m => cases b with
    | ofNat n => exact natBits_lt_of_le (Nat.or_lt_two_pow (lt_two_pow_max m n).1 (lt_two_pow_max m n).2)
    | negSucc n => exact (natBits_mono (ldiff_le n m)).trans (le_max_right _ _)
  | negSucc m => cases b with
    | ofNat n => exact (natBits_mono (ldiff_le m n)).trans (le_max_left _ _)
    | negSucc n => exact natBits_lt_of_le (Nat.and_lt_two_pow _ (lt_two_pow_max m n).2)

theorem bitlen_xor (a b : Int) : bitlen (a.xor b) ≤ max (bitlen a) (bitlen b) := by
  cases a with
  | ofNat m => cases b with
    | ofNat n => exact natBits_lt_of_le (Nat.xor_lt_two_pow (lt_two_pow_max m n).1 (lt_two_pow_max m n).2)
    | negSucc n => exact natBits_lt_of_le (Nat.xor_lt_two_pow (lt_two_pow_max m n).1 (lt_two_pow_max m n).2)
  | negSucc m => cases b with
    | ofNat n => exact natBits_lt_of_le (Nat.xor_lt_two_pow (lt_two_pow_max m n).1 (lt_two_pow_max m n).2)
    | negSucc n => exact natBits_lt_of_le (Nat.xor_lt_two_pow (lt_two_pow_max m n).1 (lt_two_pow_max m n).2)

theorem bitlen_ldiff (a b : Int) : bitlen (a.ldiff b) ≤ max (bitlen a) (bitlen b) := by
  cases a with
  | ofNat m => cases b with
    | ofNat n => exact (natBits_mono (ldiff_le m n)).trans (le_max_left _ _)
    | negSucc n => exact natBits_lt_of_le (Nat.and_lt_two_pow _ (lt_two_pow_max m n).2)
  | negSucc m => cases b with
    | ofNat n => exact natBits_lt_of_le (Nat.or_lt_two_pow (lt_two_pow_max m n).1 (lt_two_pow_max m n).2)
    | negSucc n => exact (natBits_mono (ldiff_le n m)).trans (le_max_right _ _)

/-- R902 for any bit function that stays within the width of its operands. -/
theorem bitwise2_eq {op : Word → Word → Word} {f : Int → Int → Int} (a b : Int)
    (hop : ∀ k, op (sliceWord a k) (sliceWord b k) = sliceWord (f a b) k)
    (hlen : bitlen (f a b) ≤ max (bitlen a) (bitlen b)) : bitwise2 op a b = f a b := by
  have hf : (fun k => op (tcw a k) (tcw b k)) = sliceWord (f a b) := by
    funext k; rw [tcw_eq, tcw_eq, hop]
  rw [bitwise2, hf]
  apply valueOf_pattern
  have ha := bitlen_lt_tcLen a
  have hb := bitlen_lt_tcLen b
  omega

/-- R903. -/
theorem bitwise_and (a b : Int) : bitwise2 (fun p q => p &&& q) a b = a.land b := by
  refine bitwise2_eq (f := Int.land) a b (fun k => sliceWord_ext (fun j hj => ?_)) (bitlen_land a b)
  rw [BitVec.getLsbD_and, getLsbD_sliceWord, getLsbD_sliceWord, Int.testBit_land]
  simp [hj]

/-- R904. -/
theorem bitwise_or (a b : Int) : bitwise2 (fun p q => p ||| q) a b = a.lor b := by
  refine bitwise2_eq (f := Int.lor) a b (fun k => sliceWord_ext (fun j hj => ?_)) (bitlen_lor a b)
  rw [BitVec.getLsbD_or, getLsbD_sliceWord, getLsbD_sliceWord, Int.testBit_lor]
  simp [hj]

/-- R905. -/
theorem bitwise_xor (a b : Int) : bitwise2 (fun p q => p ^^^ q) a b = a.xor b := by
  refine bitwise2_eq (f := Int.xor) a b (fun k => sliceWord_ext (fun j hj => ?_)) (bitlen_xor a b)
  rw [BitVec.getLsbD_xor, getLsbD_sliceWord, getLsbD_sliceWord, Int.testBit_lxor]
  simp [hj]

/-- R906. -/
theorem bitwise_andnot (a b : Int) : bitwise2 (fun p q => p &&& ~~~q) a b = a.ldiff b := by
  refine bitwise2_eq (f := Int.ldiff) a b (fun k => sliceWord_ext (fun j hj => ?_)) (bitlen_ldiff a b)
  rw [BitVec.getLsbD_and, BitVec.getLsbD_not, getLsbD_sliceWord, getLsbD_sliceWord, Int.testBit_ldiff]
  simp [hj]

theorem lnot_eq (a : Int) : a.lnot = -a - 1 := by
  cases a with
  | ofNat n => rw [Int.lnot, Int.negSucc_eq, Int.ofNat_eq_natCast]; omega
  | negSucc n => rw [Int.lnot, Int.negSucc_eq]; omega

/-- R907: NOT is -a - 1. -/
theorem tcNot_eq (a : Int) : tcNot a = -a - 1 := by
  have hf : (fun k => ~~~(tcw a k)) = sliceWord a.lnot := by
    funext k
    rw [tcw_eq]
    refine sliceWord_ext (fun j hj => ?_)
    rw [BitVec.getLsbD_not, getLsbD_sliceWord, Int.testBit_lnot]
    simp [hj]
  rw [tcNot, hf, valueOf_pattern, lnot_eq]
  have hl : bitlen a.lnot = bitlen a := by cases a <;> rfl
  rw [hl]; exact bitlen_lt_tcLen a

theorem bitlen_two_pow (i : Nat) : bitlen (2 ^ i) = i + 1 := by
  apply le_antisymm
  · rw [bitlen_le_iff]
    have h : (2 : Int) ^ i < 2 ^ (i + 1) := by rw [pow_succ]; have : (0 : Int) < 2 ^ i := by positivity
                                               omega
    have : (0 : Int) < 2 ^ i := by positivity
    have h2 : (0 : Int) < 2 ^ (i + 1) := by positivity
    omega
  · by_contra h
    have := (bitlen_le_iff (2 ^ i) i).1 (by omega)
    omega

theorem testBit_two_pow (i j : Nat) : (2 ^ i : Int).testBit j = decide (i = j) := by
  have h : (2 ^ i : Int) = Int.ofNat (2 ^ i) := by rw [Int.ofNat_eq_natCast]; push_cast; rfl
  rw [h]
  exact Nat.testBit_two_pow

/-- R908: CLRBIT clears bit i. -/
theorem tcClrbit_eq (a : Int) (i : Nat) : tcClrbit a i = a.ldiff (2 ^ i) := by
  have hf : (fun k => if k = i / 32 then tcw a k &&& ~~~((1 : Word) <<< (i % 32)) else tcw a k) =
      sliceWord (a.ldiff (2 ^ i)) := by
    funext k
    rw [tcw_eq]
    refine sliceWord_ext (fun j hj => ?_)
    rw [Int.testBit_ldiff, testBit_two_pow]
    split
    · rename_i hk
      have e : (i = 32 * k + j) ↔ (i % 32 = j) := by omega
      have h1 : ((1 : Word) <<< (i % 32)).getLsbD j = decide (i % 32 = j) := by
        rw [BitVec.getLsbD_shiftLeft]
        have h2 : (1 : Word).getLsbD (j - i % 32) = decide (j - i % 32 = 0) := by
          rw [show (1 : Word) = BitVec.ofNat 32 1 from rfl, BitVec.getLsbD_ofNat]
          rcases Nat.eq_zero_or_pos (j - i % 32) with h | h
          · rw [h]; rfl
          · have : Nat.testBit 1 (j - i % 32) = false := by
              rw [Bool.eq_false_iff]
              intro hc
              have := Nat.testBit_one_eq_true_iff_self_eq_zero.1 hc
              omega
            simp [this]; omega
        rw [h2]
        by_cases h3 : j < i % 32
        · simp [h3, hj]; omega
        · simp [h3, hj]; omega
      rw [BitVec.getLsbD_and, BitVec.getLsbD_not, h1, getLsbD_sliceWord]
      simp [hj, e]
    · rename_i hk
      have : ¬ (i = 32 * k + j) := by omega
      rw [getLsbD_sliceWord]
      simp [hj, this]
  rw [tcClrbit, hf, valueOf_pattern]
  have h1 := bitlen_ldiff a (2 ^ i)
  rw [bitlen_two_pow] at h1
  have h2 := bitlen_lt_tcLen a
  have : i + 1 < 32 * ((i + 1) / 32 + 1) := by omega
  omega

end Sys2Proof.Machine
end

