-- ==== Sys2Proof/Laws/Compare.lean ====
section
/-! SUPPORT. The compare unit orders integers (47_compare.md R1100, R1101). -/

namespace Sys2Proof.Machine

/-- R1100: the three-way compare is the sign of the difference. -/
theorem scmp_eq (a b : Int) : scmp a b = (a - b).sign := by
  unfold scmp
  split
  · rename_i h
    simp only [compareMag_words]
    split
    · rename_i h0
      have ha : 0 ≤ a := Int.sign_nonneg_iff.1 h0
      have hb : 0 ≤ b := by rw [h] at h0; exact Int.sign_nonneg_iff.1 h0
      rw [Int.natAbs_of_nonneg ha, Int.natAbs_of_nonneg hb]
    · rename_i h0
      have ha : a < 0 := by by_contra hc; exact h0 (Int.sign_nonneg_iff.2 (by omega))
      have hb : b < 0 := by rw [h] at h0; by_contra hc; exact h0 (Int.sign_nonneg_iff.2 (by omega))
      rw [← Int.sign_neg]
      congr 1
      omega
  · rename_i h
    have key : ∀ x : Int, (x < 0 ∧ x.sign = -1) ∨ (x = 0 ∧ x.sign = 0) ∨ (0 < x ∧ x.sign = 1) := by
      intro x
      rcases lt_trichotomy x 0 with hx | hx | hx
      · exact .inl ⟨hx, Int.sign_eq_neg_one_of_neg hx⟩
      · exact .inr (.inl ⟨hx, by rw [hx]; rfl⟩)
      · exact .inr (.inr ⟨hx, Int.sign_eq_one_of_pos hx⟩)
    have ha := key a
    have hb := key b
    split
    · exact (Int.sign_eq_one_of_pos (by omega)).symm
    · exact (Int.sign_eq_neg_one_of_neg (by omega)).symm

/-- R1101: equal signs and equal magnitude words are equal integers. -/
theorem sameValue_eq (a b : Int) : sameValue a b = decide (a = b) := by
  unfold sameValue
  congr 1
  apply propext
  constructor
  · rintro ⟨h1, h2⟩
    rw [← Int.sign_mul_natAbs a, ← Int.sign_mul_natAbs b, h1, words_inj h2]
  · rintro rfl; exact ⟨rfl, rfl⟩

end Sys2Proof.Machine
end

