-- ==== Sys2Proof/Laws/Decode.lean ====
section
/-! SUPPORT. The fields of a packed word, and what the decoder's answers mean (30_encoding.md R301, R305, R307, R312). -/

namespace Sys2Proof

/-- A word from its eight fields, the reserved bits included (R301). -/
def packRaw (op : BitVec 8) (rd rs1 rs2 rs3 : BitVec 4) (rsv : BitVec 6) (sg : BitVec 2) (imm : BitVec 32) : BitVec 64 :=
  op ++ rd ++ rs1 ++ rs2 ++ rs3 ++ rsv ++ sg ++ imm

theorem pack_eq (op : BitVec 8) (rd rs1 rs2 rs3 : Reg) (sg : BitVec 2) (imm : BitVec 32) :
    pack op rd rs1 rs2 rs3 sg imm = packRaw op rd.bits rs1.bits rs2.bits rs3.bits 0 sg imm := rfl

theorem packRaw_and (a a' : BitVec 8) (b b' c c' d d' e e' : BitVec 4) (f f' : BitVec 6) (g g' : BitVec 2) (h h' : BitVec 32) :
    packRaw a b c d e f g h &&& packRaw a' b' c' d' e' f' g' h' =
      packRaw (a &&& a') (b &&& b') (c &&& c') (d &&& d') (e &&& e') (f &&& f') (g &&& g') (h &&& h') := by
  unfold packRaw
  exact BitVec.and_append.trans (congrArg₂ _ (BitVec.and_append.trans (congrArg₂ _ (BitVec.and_append.trans
    (congrArg₂ _ (BitVec.and_append.trans (congrArg₂ _ (BitVec.and_append.trans (congrArg₂ _ (BitVec.and_append.trans
    (congrArg₂ _ BitVec.and_append rfl)) rfl)) rfl)) rfl)) rfl)) rfl)

/-! The fields of a packed word. -/

section
variable (a : BitVec 8) (b c d e : BitVec 4) (f : BitVec 6) (g : BitVec 2) (h : BitVec 32)

theorem extract_packRaw_op : (packRaw a b c d e f g h).extractLsb' 56 8 = a := by
  unfold packRaw
  iterate 7 rw [BitVec.extractLsb'_append_eq_of_le (by omega)]
  exact BitVec.extractLsb'_eq_self

theorem extract_packRaw_rd : (packRaw a b c d e f g h).extractLsb' 52 4 = b := by
  unfold packRaw
  iterate 6 rw [BitVec.extractLsb'_append_eq_of_le (by omega)]
  rw [BitVec.extractLsb'_append_eq_of_add_le (by omega)]
  exact BitVec.extractLsb'_eq_self

theorem extract_packRaw_rs1 : (packRaw a b c d e f g h).extractLsb' 48 4 = c := by
  unfold packRaw
  iterate 5 rw [BitVec.extractLsb'_append_eq_of_le (by omega)]
  rw [BitVec.extractLsb'_append_eq_of_add_le (by omega)]
  exact BitVec.extractLsb'_eq_self

theorem extract_packRaw_rs2 : (packRaw a b c d e f g h).extractLsb' 44 4 = d := by
  unfold packRaw
  iterate 4 rw [BitVec.extractLsb'_append_eq_of_le (by omega)]
  rw [BitVec.extractLsb'_append_eq_of_add_le (by omega)]
  exact BitVec.extractLsb'_eq_self

theorem extract_packRaw_rs3 : (packRaw a b c d e f g h).extractLsb' 40 4 = e := by
  unfold packRaw
  iterate 3 rw [BitVec.extractLsb'_append_eq_of_le (by omega)]
  rw [BitVec.extractLsb'_append_eq_of_add_le (by omega)]
  exact BitVec.extractLsb'_eq_self

theorem extract_packRaw_sg : (packRaw a b c d e f g h).extractLsb' 32 2 = g := by
  unfold packRaw
  rw [BitVec.extractLsb'_append_eq_of_le (by omega), BitVec.extractLsb'_append_eq_of_add_le (by omega)]
  exact BitVec.extractLsb'_eq_self

theorem extract_packRaw_imm : (packRaw a b c d e f g h).extractLsb' 0 32 = h := by
  unfold packRaw
  rw [BitVec.extractLsb'_append_eq_of_add_le (by omega)]
  exact BitVec.extractLsb'_eq_self

theorem extract_packRaw_addr (l m : BitVec 16) : (packRaw a b c d e f g (l ++ m)).extractLsb' 0 16 = m := by
  unfold packRaw
  rw [BitVec.extractLsb'_append_eq_of_add_le (by omega), BitVec.extractLsb'_append_eq_of_add_le (by omega)]
  exact BitVec.extractLsb'_eq_self

theorem extract_packRaw_len (l m : BitVec 16) : (packRaw a b c d e f g (l ++ m)).extractLsb' 16 16 = l := by
  unfold packRaw
  rw [BitVec.extractLsb'_append_eq_of_add_le (by omega), BitVec.extractLsb'_append_eq_of_le (by omega)]
  exact BitVec.extractLsb'_eq_self

/-- Every word is the word of its fields. -/
theorem packRaw_extract (w : BitVec 64) :
    packRaw (w.extractLsb' 56 8) (w.extractLsb' 52 4) (w.extractLsb' 48 4) (w.extractLsb' 44 4) (w.extractLsb' 40 4)
      (w.extractLsb' 34 6) (w.extractLsb' 32 2) (w.extractLsb' 0 32) = w := by
  unfold packRaw
  rw [BitVec.extractLsb'_append_extractLsb'_eq_extractLsb' (by omega)]
  rw [BitVec.extractLsb'_append_extractLsb'_eq_extractLsb' (by omega)]
  rw [BitVec.extractLsb'_append_extractLsb'_eq_extractLsb' (by omega)]
  rw [BitVec.extractLsb'_append_extractLsb'_eq_extractLsb' (by omega)]
  rw [BitVec.extractLsb'_append_extractLsb'_eq_extractLsb' (by omega)]
  rw [BitVec.extractLsb'_append_extractLsb'_eq_extractLsb' (by omega)]
  rw [BitVec.extractLsb'_append_extractLsb'_eq_extractLsb' (by omega)]
  exact BitVec.extractLsb'_eq_self

end

@[simp] theorem Reg.toFin_bits (r : Reg) : (Reg.bits r).toFin = r := rfl

section
variable (op : BitVec 8) (rd rs1 rs2 rs3 : Reg) (sg : BitVec 2) (imm : BitVec 32)

@[simp] theorem field_op_pack : Field.op (pack op rd rs1 rs2 rs3 sg imm) = op := extract_packRaw_op ..

@[simp] theorem field_rd_pack : Field.rd (pack op rd rs1 rs2 rs3 sg imm) = rd := by
  rw [Field.rd, pack_eq, extract_packRaw_rd, Reg.toFin_bits]

@[simp] theorem field_rs1_pack : Field.rs1 (pack op rd rs1 rs2 rs3 sg imm) = rs1 := by
  rw [Field.rs1, pack_eq, extract_packRaw_rs1, Reg.toFin_bits]

@[simp] theorem field_rs2_pack : Field.rs2 (pack op rd rs1 rs2 rs3 sg imm) = rs2 := by
  rw [Field.rs2, pack_eq, extract_packRaw_rs2, Reg.toFin_bits]

@[simp] theorem field_rs3_pack : Field.rs3 (pack op rd rs1 rs2 rs3 sg imm) = rs3 := by
  rw [Field.rs3, pack_eq, extract_packRaw_rs3, Reg.toFin_bits]

@[simp] theorem field_sg_pack : Field.sg (pack op rd rs1 rs2 rs3 sg imm) = sg := extract_packRaw_sg ..

@[simp] theorem field_imm_pack : Field.imm (pack op rd rs1 rs2 rs3 sg imm) = imm := extract_packRaw_imm ..

@[simp] theorem field_addr_pack (l m : BitVec 16) : Field.addr (pack op rd rs1 rs2 rs3 sg (l ++ m)) = m :=
  extract_packRaw_addr ..

@[simp] theorem field_len_pack (l m : BitVec 16) : Field.len (pack op rd rs1 rs2 rs3 sg (l ++ m)) = l :=
  extract_packRaw_len ..

end

/-! The opcode table (R306) and the decoder (R312). -/

@[simp] theorem ofByte_byte (o : Opcode) : Opcode.ofByte o.byte = some o := by cases o <;> decide

theorem ofByte_eq_some {b : BitVec 8} {o : Opcode} (h : Opcode.ofByte b = some o) : o.byte = b := by
  have := List.find?_some h
  simpa using this

theorem build_opcode (o : Opcode) (c : BitVec 64) : (o.build c).opcode = o := by cases o <;> rfl

/-- What the decoder's acceptance says. -/
theorem decode_ok {nbr : Nat} {c : BitVec 64} {i : Instr} (h : decode nbr c = .ok i) :
    i.opcode.byte = Field.op c ∧ c &&& i.opcode.format.mask = i.opcode.matchWord ∧ i.opcode.build c = i ∧
      i.wellFormed nbr = true := by
  unfold decode at h
  split at h
  · cases h
  · rename_i o ho
    split at h
    · cases h
    · split at h
      · cases h
      · split at h
        · cases h
        · rename_i h1 h2 h3
          injection h with h
          subst h
          rw [build_opcode]
          refine ⟨ofByte_eq_some ho, by simpa using h1, rfl, ?_⟩
          rw [Instr.wellFormed, Bool.and_eq_true]
          refine ⟨?_, by simpa using h3⟩
          rw [List.all_eq_true]
          intro r hr
          rw [decide_eq_true_eq]
          by_contra hc
          exact h2 (List.any_eq_true.2 ⟨r, hr, by simpa using hc⟩)

/-- When the decoder accepts. -/
theorem decode_of {nbr : Nat} {c : BitVec 64} {i : Instr} (h1 : Field.op c = i.opcode.byte)
    (h2 : c &&& i.opcode.format.mask = i.opcode.matchWord) (h3 : i.opcode.build c = i) (h4 : i.wellFormed nbr = true) :
    decode nbr c = .ok i := by
  rw [Instr.wellFormed, Bool.and_eq_true, List.all_eq_true] at h4
  unfold decode
  rw [h1, ofByte_byte]
  simp only [h2, h3]
  have h5 : ¬ (i.regs.any (fun r => decide (nbr ≤ r.val)) = true) := by
    intro hc
    obtain ⟨r, hr, hn⟩ := List.any_eq_true.1 hc
    have h6 := h4.1 r hr
    simp only [decide_eq_true_eq] at hn h6
    omega
  have h6 : ¬ (i.sameDest = true) := by simpa using h4.2
  rw [if_neg (by simp), if_neg h5, if_neg h6]

theorem decode_ok_regs {nbr : Nat} {c : BitVec 64} {i : Instr} (h : decode nbr c = .ok i) : ∀ r ∈ i.regs, r.val < nbr := by
  have := (decode_ok h).2.2.2
  rw [Instr.wellFormed, Bool.and_eq_true, List.all_eq_true] at this
  intro r hr
  simpa using this.1 r hr

end Sys2Proof
end

