-- ==== Sys2Proof/Laws/Shift.lean ====
section
/-! SUPPORT. The limb shifter multiplies by a power of two and divides by one rounding toward minus infinity
(46_shift.md R1001 to R1003). -/

namespace Sys2Proof.Machine

theorem two_pow_split {nb : Nat} (h : nb ≤ 32) : 2 ^ nb * 2 ^ (32 - nb) = wordBase := by
  rw [← pow_add, wordBase]; congr 1; omega

/-- Disjoint bits: a word shifted up and filled from below. -/
theorem shl_or_toNat {w c : Word} {nb : Nat} (h : nb ≤ 32) (hc : c.toNat < 2 ^ nb) :
    ((w <<< nb) ||| c).toNat + wordBase * (w.toNat / 2 ^ (32 - nb)) = 2 ^ nb * w.toNat + c.toNat := by
  have hs := two_pow_split h
  have hm : (w.toNat * 2 ^ nb) % wordBase = 2 ^ nb * (w.toNat % 2 ^ (32 - nb)) := by
    rw [← hs, Nat.mul_comm, Nat.mul_mod_mul_left]
  rw [BitVec.toNat_or, BitVec.toNat_shiftLeft, Nat.shiftLeft_eq, ← wordBase, hm,
    ← Nat.two_pow_add_eq_or_of_lt hc]
  have := Nat.mod_add_div w.toNat (2 ^ (32 - nb))
  calc 2 ^ nb * (w.toNat % 2 ^ (32 - nb)) + c.toNat + wordBase * (w.toNat / 2 ^ (32 - nb))
      = 2 ^ nb * (w.toNat % 2 ^ (32 - nb) + 2 ^ (32 - nb) * (w.toNat / 2 ^ (32 - nb))) + c.toNat := by
        rw [← hs]; ring
    _ = _ := by rw [this]

theorem valLE_shlLoop (nb : Nat) (X : List Word) (c : Word) (h : nb ≤ 32) (hc : c.toNat < 2 ^ nb) :
    valLE (shlLoop nb X c) = 2 ^ nb * valLE X + c.toNat := by
  induction X generalizing c with
  | nil => simp [shlLoop, valLE]
  | cons w ws ih =>
    have hs := two_pow_split h
    have hw := w.isLt
    have hc' : (w >>> (32 - nb)).toNat < 2 ^ nb := by
      rw [BitVec.toNat_ushiftRight, Nat.shiftRight_eq_div_pow, Nat.div_lt_iff_lt_mul (by positivity), hs]
      exact hw
    have hor := shl_or_toNat (w := w) h hc
    rw [shlLoop, valLE, ih _ hc', BitVec.toNat_ushiftRight, Nat.shiftRight_eq_div_pow, valLE]
    linear_combination hor

theorem val_shlBits {X : List Word} {nb : Nat} (h : nb ≤ 32) : val (shlBits X nb) = val X * 2 ^ nb := by
  rw [shlBits, val_strip, val_reverse, valLE_shlLoop nb _ _ h (by simp), valLE_reverse]
  simp [Nat.mul_comm]

theorem valLE_shrLoop (nb : Nat) (X : List Word) (h : nb ≤ 32) : valLE (shrLoop nb X) = valLE X / 2 ^ nb := by
  induction X with
  | nil => simp [shrLoop, valLE]
  | cons w ws ih =>
    have hs := two_pow_split h
    have hd : 0 < 2 ^ nb := by positivity
    have hmod : (ws.headD 0).toNat % 2 ^ nb = valLE ws % 2 ^ nb := by
      rw [valLE_head_tail ws, ← hs, Nat.mul_assoc, Nat.add_mul_mod_self_left]
    have hlt : w.toNat / 2 ^ nb < 2 ^ (32 - nb) := by
      rw [Nat.div_lt_iff_lt_mul hd, Nat.mul_comm, hs]; exact w.isLt
    have hword : ((w >>> nb) ||| (ws.headD 0 <<< (32 - nb))).toNat
        = w.toNat / 2 ^ nb + 2 ^ (32 - nb) * (valLE ws % 2 ^ nb) := by
      rw [BitVec.toNat_or, BitVec.toNat_shiftLeft, Nat.shiftLeft_eq, BitVec.toNat_ushiftRight,
        Nat.shiftRight_eq_div_pow, ← wordBase]
      have hm : ((ws.headD 0).toNat * 2 ^ (32 - nb)) % wordBase = 2 ^ (32 - nb) * (valLE ws % 2 ^ nb) := by
        rw [← hs, Nat.mul_comm, Nat.mul_comm (2 ^ nb), Nat.mul_mod_mul_left, hmod]
      rw [hm, Nat.or_comm, ← Nat.two_pow_add_eq_or_of_lt hlt, Nat.add_comm]
    have hdiv : (w.toNat + wordBase * valLE ws) / 2 ^ nb = w.toNat / 2 ^ nb + 2 ^ (32 - nb) * valLE ws := by
      rw [← hs, Nat.mul_assoc, Nat.add_mul_div_left _ _ hd]
    rw [shrLoop, valLE, ih, hword, valLE, hdiv, ← hs]
    have := Nat.mod_add_div (valLE ws) (2 ^ nb)
    nlinarith

theorem val_shrBits {X : List Word} {nb : Nat} (h : nb ≤ 32) : val (shrBits X nb) = val X / 2 ^ nb := by
  rw [shrBits, val_strip, val_reverse, valLE_shrLoop nb _ h, valLE_reverse]

theorem pow_split (n : Nat) : wordBase ^ (n / 32) * 2 ^ (n % 32) = 2 ^ n := by
  rw [wordBase_pow, ← pow_add, Nat.div_add_mod]

/-- R1003: shlMag multiplies by 2^n. -/
@[simp] theorem val_shlMag (X : List Word) (n : Nat) : val (shlMag X n) = val X * 2 ^ n := by
  unfold shlMag
  split
  · rename_i h; subst h; simp [val]
  · have hY : val (X ++ List.replicate (n / 32) 0) = val X * wordBase ^ (n / 32) := by
      rw [val_append, val_replicate_zero]; simp
    have hp := pow_split n
    split
    · rename_i h0
      rw [h0, pow_zero, Nat.mul_one] at hp
      rw [hY, hp]
    · rw [val_shlBits (by omega), hY, Nat.mul_assoc, hp]

theorem val_take (X : List Word) (k : Nat) (h : k ≤ X.length) :
    val (X.take (X.length - k)) = val X / wordBase ^ k ∧ val (X.drop (X.length - k)) = val X % wordBase ^ k := by
  have hX := List.take_append_drop (X.length - k) X
  have hv := congrArg val hX
  have hl : (X.drop (X.length - k)).length = k := by simp; omega
  rw [val_append, hl] at hv
  have hlt := val_lt (X.drop (X.length - k))
  rw [hl] at hlt
  rw [← hv]
  constructor
  · rw [Nat.mul_comm, Nat.mul_add_div (Nat.pow_pos wordBase_pos), Nat.div_eq_of_lt hlt, Nat.add_zero]
  · rw [Nat.mul_comm, Nat.mul_add_mod, Nat.mod_eq_of_lt hlt]

/-- R1003: shrMag divides by 2^n. -/
@[simp] theorem val_shrMag (X : List Word) (n : Nat) : val (shrMag X n) = val X / 2 ^ n := by
  unfold shrMag
  have hp := pow_split n
  split
  · rename_i h
    have : val X < 2 ^ n := by
      calc val X < wordBase ^ X.length := val_lt X
        _ ≤ wordBase ^ (n / 32) := Nat.pow_le_pow_right wordBase_pos h
        _ ≤ 2 ^ n := by rw [← hp]; exact Nat.le_mul_of_pos_right _ (by positivity)
    rw [Nat.div_eq_of_lt this]; rfl
  · rename_i h
    have ht := (val_take X (n / 32) (by omega)).1
    split
    · rename_i h0
      rw [h0, pow_zero, Nat.mul_one] at hp
      rw [ht, hp]
    · rw [val_shrBits (by omega), ht, Nat.div_div_eq_div_mul, hp]

theorem any_ne_zero_iff (X : List Word) : X.any (· != 0) = true ↔ valLE X ≠ 0 := by
  induction X with
  | nil => simp [valLE]
  | cons x xs ih =>
    have hx : x = 0 ↔ x.toNat = 0 := by
      constructor
      · rintro rfl; rfl
      · intro h; exact BitVec.eq_of_toNat_eq h
    have hb := wordBase_pos
    rw [List.any_cons, Bool.or_eq_true, ih, valLE, bne_iff_ne, ne_eq, hx]
    constructor
    · rintro (h | h)
      · omega
      · have := Nat.mul_pos hb (Nat.pos_of_ne_zero h); omega
    · intro h
      by_contra hc
      push Not at hc
      rw [hc.1, hc.2] at h; simp at h

/-- R1003: `lost` says that some 1 bit is shifted off. -/
theorem lost_iff (X : List Word) (n : Nat) : lost X n = true ↔ val X % 2 ^ n ≠ 0 := by
  have hp := pow_split n
  have hsplit := List.take_append_drop (n / 32) X.reverse
  have hv : valLE (X.reverse.take (n / 32)) + wordBase ^ (X.reverse.take (n / 32)).length *
      valLE (X.reverse.drop (n / 32)) = val X := by
    rw [← valLE_append, hsplit, valLE_reverse]
  have hlt := valLE_lt (X.reverse.take (n / 32))
  simp only [lost, Bool.or_eq_true, any_ne_zero_iff, bne_iff_ne]
  set lowv := valLE (X.reverse.take (n / 32)) with hlow
  have hhd : ((X.reverse.drop (n / 32)).headD 0).toNat % 2 ^ (n % 32) =
      valLE (X.reverse.drop (n / 32)) % 2 ^ (n % 32) := by
    have hs := two_pow_split (nb := n % 32) (by omega)
    rw [valLE_head_tail (X.reverse.drop (n / 32)), ← hs, Nat.mul_assoc, Nat.add_mul_mod_self_left]
  rw [hhd]
  rcases Nat.lt_or_ge X.reverse.length (n / 32) with hl | hl
  · have hd : X.reverse.drop (n / 32) = [] := List.drop_eq_nil_of_le (by omega)
    rw [hd] at hv ⊢
    have hlen : (X.reverse.take (n / 32)).length ≤ n / 32 := by simp
    have : lowv < 2 ^ n := by
      calc lowv < wordBase ^ (X.reverse.take (n / 32)).length := hlt
        _ ≤ wordBase ^ (n / 32) := Nat.pow_le_pow_right wordBase_pos hlen
        _ ≤ 2 ^ n := by rw [← hp]; exact Nat.le_mul_of_pos_right _ (by positivity)
    rw [← hv]
    simp only [valLE, Nat.zero_mod, Nat.mul_zero, Nat.add_zero, ne_eq, not_true_eq_false, or_false,
      Nat.mod_eq_of_lt this]
  · have hlen : (X.reverse.take (n / 32)).length = n / 32 := by simpa using hl
    rw [hlen] at hv hlt
    have hmod : val X % 2 ^ n = lowv + wordBase ^ (n / 32) * (valLE (X.reverse.drop (n / 32)) % 2 ^ (n % 32)) := by
      rw [← hv, ← hp, Nat.mod_mul, Nat.add_mul_mod_self_left, Nat.mod_eq_of_lt hlt,
        Nat.add_mul_div_left _ _ (Nat.pow_pos wordBase_pos), Nat.div_eq_of_lt hlt, Nat.zero_add]
    rw [hmod]
    have hpos : 0 < wordBase ^ (n / 32) := Nat.pow_pos wordBase_pos
    constructor
    · rintro (h | h)
      · omega
      · have := Nat.mul_pos hpos (Nat.pos_of_ne_zero h); omega
    · intro h
      by_contra hc
      push Not at hc
      rw [hc.1, hc.2] at h; simp at h

/-- R1003: sshr(a, n) = fdiv(a, 2^n). -/
theorem sshr_eq (a : Int) (n : Nat) : sshr a n = a.fdiv (2 ^ n) := by
  have hp : (0 : Int) < 2 ^ n := by positivity
  rw [Int.fdiv_eq_ediv_of_nonneg _ hp.le]
  unfold sshr
  split
  · rename_i h
    obtain ⟨k, rfl⟩ := Int.eq_ofNat_of_zero_le h
    simp
  · rename_i h
    obtain ⟨k, hk⟩ := Int.eq_ofNat_of_zero_le (a := -a) (by omega)
    have ha : a = -(k : Int) := by omega
    have hneg : ∀ z : Nat, Int.neg (z : Int) = -(z : Int) := fun _ => rfl
    subst ha
    simp only [Int.neg_neg, Int.toNat_natCast, val_shrMag, val_words, hneg]
    have hm := Nat.div_add_mod k (2 ^ n)
    have hlt := Nat.mod_lt k (show 0 < 2 ^ n by positivity)
    symm
    rw [Int.ediv_eq_iff_of_pos hp]
    split
    · rename_i hl
      rw [lost_iff, val_words] at hl
      have h1 : 0 < k % 2 ^ n := Nat.pos_of_ne_zero hl
      have hm' : (2 ^ n : Int) * ((k / 2 ^ n : Nat) : Int) + ((k % 2 ^ n : Nat) : Int) = k := by exact_mod_cast hm
      have h1' : (0 : Int) < ((k % 2 ^ n : Nat) : Int) := by exact_mod_cast h1
      have hlt' : ((k % 2 ^ n : Nat) : Int) < 2 ^ n := by exact_mod_cast hlt
      rw [Nat.cast_succ]
      constructor <;> nlinarith
    · rename_i hl
      rw [lost_iff, val_words, not_not] at hl
      rw [hl, Nat.add_zero] at hm
      have hm' : (2 ^ n : Int) * ((k / 2 ^ n : Nat) : Int) = k := by exact_mod_cast hm
      constructor <;> nlinarith

/-- R1004: the left shift is a·2^n. -/
theorem sshl_eq (a : Int) (n : Nat) : sshl a n = a * 2 ^ n := by
  rw [sshl, val_shlMag, val_words, Nat.cast_mul, ← mul_assoc, Int.sign_mul_natAbs]
  simp

/-- D51: CAPACITY of a left shift read from the bit length and the distance. -/
theorem shl_capacity_iff {a : Int} (ha : a ≠ 0) (n m : Nat) :
    32 * m < natBits a.natAbs + n ↔ m < (words (a * 2 ^ n).natAbs).length := by
  have hn : (a * 2 ^ n).natAbs = a.natAbs * 2 ^ n := by
    rw [Int.natAbs_mul, Int.natAbs_pow]; rfl
  rw [words_length_lt_iff, hn, wordBase_pow]
  have hb : 0 < natBits a.natAbs := by
    rcases Nat.eq_zero_or_pos (natBits a.natAbs) with h | h
    · have := (natBits_le_iff a.natAbs 0).1 (by omega); omega
    · exact h
  constructor
  · intro h
    have h1 : 2 ^ (natBits a.natAbs - 1) ≤ a.natAbs := two_pow_le_of_natBits (by omega)
    calc 2 ^ (32 * m) ≤ 2 ^ (natBits a.natAbs - 1 + n) := Nat.pow_le_pow_right (by decide) (by omega)
      _ = 2 ^ (natBits a.natAbs - 1) * 2 ^ n := pow_add _ _ _
      _ ≤ a.natAbs * 2 ^ n := Nat.mul_le_mul_right _ h1
  · intro h
    by_contra hc
    have h1 := lt_two_pow_natBits a.natAbs
    have : a.natAbs * 2 ^ n < 2 ^ (32 * m) := by
      calc a.natAbs * 2 ^ n < 2 ^ natBits a.natAbs * 2 ^ n := Nat.mul_lt_mul_of_pos_right h1 (by positivity)
        _ = 2 ^ (natBits a.natAbs + n) := (pow_add _ _ _).symm
        _ ≤ 2 ^ (32 * m) := Nat.pow_le_pow_right (by decide) (by omega)
    omega

end Sys2Proof.Machine
end

