-- ==== Sys2Proof/Laws/Divide.lean ====
section
/-! SUPPORT. The long-division engine divides (43_divide.md R700 to R711 and R716): the digit estimate of Algorithm D is
the true digit or one more, the multiply-and-subtract borrows exactly in the second case, and the add-back mends it;
so divMag gives quotient and remainder, and sdiv gives tdiv and tmod. -/

namespace Sys2Proof.Machine

/-! Working buffers. -/

theorem val_normLoop_window (ws : List Word) (off n : Nat) :
    val (normLoop ws off n).window = val ((ws.drop off).take n) := by
  induction n generalizing off with
  | zero => simp [normLoop, WorkBuf.window]
  | succ n ih =>
    simp only [normLoop]
    split
    · rename_i h
      rw [ih]
      by_cases ho : off < ws.length
      · have h1 : ws.drop off = ws[off] :: ws.drop (off + 1) := List.drop_eq_getElem_cons ho
        have h2 : ws[off] = 0 := by rw [← h]; simp [ho]
        rw [h1, List.take_succ_cons, val, h2]
        simp
      · rw [List.drop_eq_nil_of_le (by omega), List.drop_eq_nil_of_le (by omega)]; simp
    · rfl

theorem window_load (X : List Word) : (WorkBuf.load X).window = X := by simp [WorkBuf.load, WorkBuf.window]

/-- R700: the normalized buffer's window starts with a nonzero word, or the buffer is empty at offset 0. -/
theorem normalize_normal (wb : WorkBuf) :
    (wb.normalize.length = 0 ∧ wb.normalize.offset = 0) ∨ wb.normalize.words.getD wb.normalize.offset 0 ≠ 0 := by
  have key : ∀ (ws : List Word) (n off : Nat),
      ((normLoop ws off n).length = 0 ∧ (normLoop ws off n).offset = 0) ∨
        (normLoop ws off n).words.getD (normLoop ws off n).offset 0 ≠ 0 := by
    intro ws n
    induction n with
    | zero => intro off; left; exact ⟨rfl, rfl⟩
    | succ n ih =>
      intro off
      simp only [normLoop]
      split
      · exact ih _
      · rename_i h; right; exact h
  exact key _ _ _

/-- R700: toValue of a loaded canonical magnitude gives it back. -/
theorem toValue_load (X : List Word) : (WorkBuf.load X).toValue = strip X := by
  rw [WorkBuf.toValue, window_load]

/-- R701: a left shift sets the value to val·2^k. -/
theorem toValue_leftShift (X : List Word) (k : Nat) :
    ((WorkBuf.load X).leftShift k).toValue = words (val X * 2 ^ k) := by
  rw [WorkBuf.toValue, strip_eq_words, WorkBuf.leftShift, WorkBuf.normalize, val_normLoop_window, window_load]
  simp [WorkBuf.load]

/-- R701: a right shift sets the value to floor(val / 2^k). -/
theorem toValue_rightShift (X : List Word) (k : Nat) :
    ((WorkBuf.load X).rightShift k).toValue = words (val X / 2 ^ k) := by
  rw [WorkBuf.toValue, strip_eq_words, WorkBuf.rightShift, WorkBuf.normalize, val_normLoop_window, window_load]
  simp [WorkBuf.load]

/-! The single-word path. -/

theorem div64_toNat {t : DWord} {d : Word} (h : t.toNat < d.toNat * wordBase) :
    (lo (div64 t d)).toNat = t.toNat / d.toNat := by
  rw [lo_toNat, div64, BitVec.toNat_udiv, ext_toNat, Nat.mod_eq_of_lt]
  exact Nat.div_lt_of_lt_mul h

theorem rem64_toNat (t : DWord) (d : Word) : (rem64 t d).toNat = t.toNat % d.toNat := by
  rw [rem64, BitVec.toNat_umod, ext_toNat]

theorem lo_rem64_toNat {t : DWord} {d : Word} (hd : 0 < d.toNat) : (lo (rem64 t d)).toNat = t.toNat % d.toNat := by
  rw [lo_toNat, rem64_toNat, Nat.mod_eq_of_lt]
  exact (Nat.mod_lt _ hd).trans d.isLt

theorem divOneLoop_spec {d : Word} (us : List Word) (r : Word) (hr : r.toNat < d.toNat) :
    (divOneLoop d us r).1.length = us.length ∧ (divOneLoop d us r).2.toNat < d.toNat ∧
      val (divOneLoop d us r).1 * d.toNat + (divOneLoop d us r).2.toNat = r.toNat * wordBase ^ us.length + val us := by
  induction us generalizing r with
  | nil => simp [divOneLoop, val, hr]
  | cons u us ih =>
    have hd : 0 < d.toNat := by omega
    have ht : (cat r u).toNat < d.toNat * wordBase := by
      rw [cat_toNat]
      have hu := toNat_lt_base u
      have := Nat.mul_le_mul_right wordBase (Nat.succ_le_of_lt hr)
      rw [Nat.succ_mul] at this
      omega
    have hlr := lo_rem64_toNat (t := cat r u) hd
    obtain ⟨i1, i2, i3⟩ := ih (lo (rem64 (cat r u) d)) (by rw [hlr]; exact Nat.mod_lt _ hd)
    refine ⟨by simp [divOneLoop, i1], by simpa [divOneLoop] using i2, ?_⟩
    have hdm := Nat.div_add_mod (cat r u).toNat d.toNat
    simp only [divOneLoop, val, i1, div64_toNat ht, List.length_cons, pow_succ]
    rw [hlr] at i3
    rw [cat_toNat] at hdm i3 ⊢
    have e1 : (r.toNat * wordBase + u.toNat) / d.toNat * wordBase ^ us.length * d.toNat +
        (r.toNat * wordBase + u.toNat) % d.toNat * wordBase ^ us.length =
        (r.toNat * wordBase + u.toNat) * wordBase ^ us.length := by
      conv_rhs => rw [← hdm]
      ring
    linear_combination e1 + i3

theorem div_mod_unique {a d q r : Nat} (h : q * d + r = a) (hr : r < d) : a / d = q ∧ a % d = r := by
  have hd : 0 < d := by omega
  subst h
  constructor
  · rw [Nat.mul_comm, Nat.mul_add_div hd, Nat.div_eq_of_lt hr, Nat.add_zero]
  · rw [Nat.mul_comm, Nat.mul_add_mod, Nat.mod_eq_of_lt hr]

/-- R704. -/
theorem divOneWord_eq (U : List Word) {d : Word} (hd : 0 < d.toNat) :
    divOneWord U d = (words (val U / d.toNat), words (val U % d.toNat)) := by
  obtain ⟨_, h2, h3⟩ := divOneLoop_spec U (0 : Word) (d := d) (by simpa using hd)
  have h0 : (0 : Word).toNat = 0 := rfl
  rw [h0, Nat.zero_mul, Nat.zero_add] at h3
  obtain ⟨hq, hr⟩ := div_mod_unique h3 h2
  simp only [divOneWord, strip_eq_words, hq, hr]

/-! Algorithm D: the estimate (R706, R707). -/

theorem capped_key (a m l d B : Nat) (hB : 0 < B) :
    (a * B + m) * B + l < (B - 1) * (a * B + d) ↔ (a + m) * B + l < (B - 1) * d := by
  obtain ⟨k, rfl⟩ : ∃ k, B = k + 1 := ⟨B - 1, by omega⟩
  rw [Nat.add_sub_cancel]
  constructor <;> intro h <;> nlinarith

theorem capped_cond (R l d B : Nat) (hd : d < B) :
    (R < B ∧ R % B * B + l < (B - 1) * d) ↔ R * B + l < (B - 1) * d := by
  constructor
  · rintro ⟨h1, h2⟩
    rwa [Nat.mod_eq_of_lt h1] at h2
  · intro h
    have h1 : R < B := by
      by_contra hc
      have e1 : B * B ≤ R * B := Nat.mul_le_mul_right _ (by omega)
      have e2 : (B - 1) * d ≤ B * B := Nat.mul_le_mul (by omega) hd.le
      omega
    exact ⟨h1, by rwa [Nat.mod_eq_of_lt h1]⟩

/-- The value of the estimate: the capped two-by-one quotient, corrected once by the three-by-two test. -/
theorem estimate_toNat (nh nm nl dh dl : Word) (h : nh.toNat ≤ dh.toNat) (hd : 0 < dh.toNat) :
    let q0 := if nh.toNat = dh.toNat then wordBase - 1 else (nh.toNat * wordBase + nm.toNat) / dh.toNat
    (estimate nh nm nl dh dl).toNat =
      if (nh.toNat * wordBase + nm.toNat) * wordBase + nl.toNat < q0 * (dh.toNat * wordBase + dl.toNat)
      then q0 - 1 else q0 := by
  intro q0
  have hB : wordBase = 2 ^ 32 := rfl
  have hnm := nm.isLt
  have hnl := nl.isLt
  have hdl := dl.isLt
  have hdh := dh.isLt
  have hnh := nh.isLt
  by_cases heq : nh = dh
  · subst heq
    have hq0 : q0 = wordBase - 1 := by simp [q0]
    have hr : (ext nh + ext nm).toNat = nh.toNat + nm.toNat := by
      rw [BitVec.toNat_add, ext_toNat, ext_toNat]; omega
    have hq : (BitVec.allOnes 32).toNat = wordBase - 1 := by decide
    have hp : (ext (BitVec.allOnes 32) * ext dl).toNat = (wordBase - 1) * dl.toNat := by
      rw [BitVec.toNat_mul, ext_toNat, ext_toNat, hq]
      apply Nat.mod_eq_of_lt
      calc (wordBase - 1) * dl.toNat < 2 ^ 32 * 2 ^ 32 := Nat.mul_lt_mul'' (by decide) hdl
        _ = 2 ^ 64 := by decide
    have key := capped_key nh.toNat nm.toNat nl.toNat dl.toNat wordBase wordBase_pos
    have cond := capped_cond (nh.toNat + nm.toNat) nl.toNat dl.toNat wordBase hdl
    have hlr : (cat (lo (ext nh + ext nm)) nl).toNat = (nh.toNat + nm.toNat) % wordBase * wordBase + nl.toNat := by
      rw [cat_toNat, lo_toNat, hr]
    have hest : estimate nh nm nl nh dl = if (nh.toNat + nm.toNat < wordBase ∧
        (nh.toNat + nm.toNat) % wordBase * wordBase + nl.toNat < (wordBase - 1) * dl.toNat)
        then BitVec.allOnes 32 - 1 else BitVec.allOnes 32 := by
      have hc : (¬ (True ∧ 2 ^ 32 ≤ (if True then ext nh + ext nm else rem64 (cat nh nm) nh).toNat) ∧
          (cat (lo (if True then ext nh + ext nm else rem64 (cat nh nm) nh)) nl).toNat <
            (ext (if True then BitVec.allOnes 32 else lo (div64 (cat nh nm) nh)) * ext dl).toNat) ↔
          (nh.toNat + nm.toNat < wordBase ∧
            (nh.toNat + nm.toNat) % wordBase * wordBase + nl.toNat < (wordBase - 1) * dl.toNat) := by
        rw [if_pos trivial, if_pos trivial, hlr, hr, hp, ← hB, true_and, Nat.not_le]
      unfold estimate
      simp only
      rw [if_congr hc rfl rfl, if_pos trivial]
    rw [hest]
    by_cases ht : (nh.toNat + nm.toNat) * wordBase + nl.toNat < (wordBase - 1) * dl.toNat
    · rw [if_pos (cond.2 ht), hq0, if_pos (key.2 ht)]
      decide
    · rw [if_neg (fun hc => ht (cond.1 hc)), hq0, if_neg (fun hc => ht (key.1 hc))]
      decide
  · have hne : nh.toNat ≠ dh.toNat := fun hc => heq (BitVec.eq_of_toNat_eq hc)
    have hlt : nh.toNat < dh.toNat := by omega
    have hq0 : q0 = (nh.toNat * wordBase + nm.toNat) / dh.toNat := by simp [q0, hne]
    have hcat : (cat nh nm).toNat = nh.toNat * wordBase + nm.toNat := cat_toNat _ _
    have hq : (lo (div64 (cat nh nm) dh)).toNat = q0 := by
      rw [div64_toNat, hcat, hq0]
      rw [hcat]
      have := Nat.mul_le_mul_right wordBase (Nat.succ_le_of_lt hlt)
      rw [Nat.succ_mul] at this
      omega
    have hr : (lo (rem64 (cat nh nm) dh)).toNat = (nh.toNat * wordBase + nm.toNat) % dh.toNat := by
      rw [lo_rem64_toNat hd, hcat]
    have hq0lt : q0 < 2 ^ 32 := by rw [← hq]; exact (lo (div64 (cat nh nm) dh)).isLt
    have hp : (ext (lo (div64 (cat nh nm) dh)) * ext dl).toNat = q0 * dl.toNat := by
      rw [BitVec.toNat_mul, ext_toNat, ext_toNat, hq]
      apply Nat.mod_eq_of_lt
      calc q0 * dl.toNat < 2 ^ 32 * 2 ^ 32 := Nat.mul_lt_mul'' hq0lt hdl
        _ = 2 ^ 64 := by decide
    have hdm := Nat.div_add_mod (nh.toNat * wordBase + nm.toNat) dh.toNat
    rw [← hq0] at hdm
    have key : ((nh.toNat * wordBase + nm.toNat) * wordBase + nl.toNat < q0 * (dh.toNat * wordBase + dl.toNat)) ↔
        ((nh.toNat * wordBase + nm.toNat) % dh.toNat * wordBase + nl.toNat < q0 * dl.toNat) := by
      have e : (nh.toNat * wordBase + nm.toNat) * wordBase + nl.toNat =
          q0 * (dh.toNat * wordBase) + ((nh.toNat * wordBase + nm.toNat) % dh.toNat * wordBase + nl.toNat) := by
        conv_lhs => rw [← hdm]
        ring
      rw [e, Nat.mul_add]; omega
    unfold estimate
    simp only [heq, if_false, false_and, not_false_eq_true, true_and]
    rw [cat_toNat, hr, hp]
    by_cases ht : (nh.toNat * wordBase + nm.toNat) % dh.toNat * wordBase + nl.toNat < q0 * dl.toNat
    · rw [if_pos ht, if_pos (key.2 ht), BitVec.toNat_sub, hq]
      have : 0 < q0 := by
        rcases Nat.eq_zero_or_pos q0 with h0 | h0
        · rw [h0] at ht; omega
        · exact h0
      have h1 : (1 : Word).toNat = 1 := rfl
      rw [h1]; omega
    · rw [if_neg ht, if_neg (fun hc => ht (key.1 hc)), hq]

/-- Knuth's theorem for the corrected estimate: with the divisor normalized (2·dh ≥ B), the estimate is the true
digit or one more (R707). Here N = nh·B + nm, and P = B^(n-2) scales the words below. -/
theorem estimate_bounds {W D N nl dh dl P wlo dlo q0 q : Nat}
    (hW : W = (N * wordBase + nl) * P + wlo) (hwlo : wlo < P)
    (hD : D = (dh * wordBase + dl) * P + dlo) (hdlo : dlo < P)
    (hnl : nl < wordBase) (hdl : dl < wordBase) (hdh : wordBase ≤ 2 * dh) (hWD : W < D * wordBase)
    (hq0 : (q0 = wordBase - 1 ∧ dh * (wordBase - 1) ≤ N) ∨ (q0 = N / dh ∧ q0 < wordBase))
    (hq : q = if N * wordBase + nl < q0 * (dh * wordBase + dl) then q0 - 1 else q0) :
    W / D ≤ q ∧ q ≤ W / D + 1 := by
  have hB := wordBase_pos
  have hP : 0 < P := by omega
  have hdpos : 0 < dh := by omega
  have hDpos : 0 < D := by
    rw [hD]
    have : 0 < (dh * wordBase + dl) * P := Nat.mul_pos (by have := Nat.mul_pos hdpos hB; omega) hP
    omega
  set Q := W / D with hQ
  have hQD : Q * D ≤ W := Nat.div_mul_le_self W D
  have hQ1 : W < (Q + 1) * D := by
    have := Nat.lt_div_mul_add (a := W) hDpos
    rw [Nat.add_mul, Nat.one_mul]; exact this
  have hQB : Q < wordBase := (Nat.div_lt_iff_lt_mul hDpos).2 (by rw [Nat.mul_comm]; exact hWD)
  -- the true digit passes the three-by-two test
  have hQ2 : Q * (dh * wordBase + dl) ≤ N * wordBase + nl := by
    have h1 : Q * (dh * wordBase + dl) * P < (N * wordBase + nl + 1) * P := by
      calc Q * (dh * wordBase + dl) * P ≤ Q * D := by rw [hD]; nlinarith
        _ ≤ W := hQD
        _ < (N * wordBase + nl + 1) * P := by rw [hW]; linarith
    have := Nat.lt_of_mul_lt_mul_right h1
    omega
  have hQN : Q * dh ≤ N := by
    have h1 : Q * dh * wordBase < (N + 1) * wordBase := by nlinarith
    have := Nat.lt_of_mul_lt_mul_right h1
    omega
  have hQq0 : Q ≤ q0 := by
    rcases hq0 with ⟨h, _⟩ | ⟨h, _⟩
    · omega
    · rw [h]; exact (Nat.le_div_iff_mul_le hdpos).2 hQN
  have hq0N : q0 * dh ≤ N := by
    rcases hq0 with ⟨h, h'⟩ | ⟨h, _⟩
    · rw [h, Nat.mul_comm]; exact h'
    · rw [h]; exact Nat.div_mul_le_self N dh
  -- at most two too large before the test
  have hq0Q : q0 ≤ Q + 2 := by
    by_contra hc
    have h3 : Q + 3 ≤ q0 := by omega
    have h1 : (Q + 3) * dh * (wordBase * P) < (Q + 1) * (dh + 1) * (wordBase * P) := by
      calc (Q + 3) * dh * (wordBase * P) ≤ q0 * dh * (wordBase * P) := by gcongr
        _ ≤ N * (wordBase * P) := by gcongr
        _ ≤ W := by rw [hW]; nlinarith
        _ < (Q + 1) * D := hQ1
        _ ≤ (Q + 1) * ((dh + 1) * (wordBase * P)) := by
          apply Nat.mul_le_mul_left
          rw [hD]
          have : (dl + 1) * P ≤ wordBase * P := Nat.mul_le_mul_right _ hdl
          nlinarith
        _ = (Q + 1) * (dh + 1) * (wordBase * P) := by ring
    have h2 := Nat.lt_of_mul_lt_mul_right h1
    nlinarith
  split at hq
  · rename_i ht
    have hlt : Q < q0 := by
      by_contra hc
      have : q0 * (dh * wordBase + dl) ≤ Q * (dh * wordBase + dl) := Nat.mul_le_mul_right _ (by omega)
      omega
    clear_value Q
    subst hq
    constructor <;> omega
  · rename_i ht
    refine ⟨by omega, ?_⟩
    by_contra hc
    have h2 : Q + 2 ≤ q := by omega
    rw [hq] at h2
    have h1 : (Q + 2) * (dh * wordBase + dl) * P < (Q + 1) * (dh * wordBase + dl + 1) * P := by
      calc (Q + 2) * (dh * wordBase + dl) * P ≤ q0 * (dh * wordBase + dl) * P := by gcongr
        _ ≤ (N * wordBase + nl) * P := by
          apply Nat.mul_le_mul_right; omega
        _ ≤ W := by rw [hW]; omega
        _ < (Q + 1) * D := hQ1
        _ ≤ (Q + 1) * ((dh * wordBase + dl + 1) * P) := by
          apply Nat.mul_le_mul_left
          rw [hD, Nat.add_mul (dh * wordBase + dl) 1 P]; omega
        _ = _ := by ring
    have h3 := Nat.lt_of_mul_lt_mul_right h1
    have h4 : wordBase ≤ dh * wordBase := Nat.le_mul_of_pos_left _ hdpos
    nlinarith

/-! Algorithm D: multiply-and-subtract and add-back (R708, R709). -/

theorem mulSubLoop_spec (q : Word) (vs us : List Word) (c : DWord) (hl : vs.length = us.length)
    (hc : c.toNat ≤ wordBase) :
    (mulSubLoop q vs us c).1.length = us.length ∧ (mulSubLoop q vs us c).2.toNat ≤ wordBase ∧
      valLE us + (mulSubLoop q vs us c).2.toNat * wordBase ^ us.length =
        valLE (mulSubLoop q vs us c).1 + q.toNat * valLE vs + c.toNat := by
  induction vs generalizing us c with
  | nil =>
    have : us = [] := by simpa using hl.symm
    subst this
    simp [mulSubLoop, valLE, hc]
  | cons v vs ih =>
    cases us with
    | nil => simp at hl
    | cons u us =>
      have hq := q.isLt
      have hv := v.isLt
      have hu := u.isLt
      have hqv : q.toNat * v.toNat ≤ (2 ^ 32 - 1) * (2 ^ 32 - 1) := Nat.mul_le_mul (by omega) (by omega)
      set p := ext q * ext v + c with hp
      have hpn : p.toNat = q.toNat * v.toNat + c.toNat := by
        rw [wordBase_eq] at hc
        simp only [hp, BitVec.toNat_add, BitVec.toNat_mul, ext_toNat]
        omega
      have hlh := lo_add_hi p
      have hhi : (hi p).toNat ≤ wordBase - 1 := by
        have := (hi p).isLt
        rw [wordBase]; omega
      have hb : (decide (u.toNat < (lo p).toNat)).toNat ≤ 1 := by
        have := (decide (u.toNat < (lo p).toNat)).toNat_lt; omega
      have hc2 : (ext (hi p) + ext (carry (decide (u.toNat < (lo p).toNat)))).toNat =
          (hi p).toNat + (decide (u.toNat < (lo p).toNat)).toNat := by
        have := (hi p).isLt
        rw [BitVec.toNat_add, ext_toNat, ext_toNat, carry_toNat]; omega
      obtain ⟨i1, i2, i3⟩ := ih us _ (by simpa using hl) (by rw [hc2]; have := wordBase_pos; omega)
      rw [hc2] at i3
      refine ⟨by simp only [mulSubLoop, List.length_cons, ← hp, i1], by simpa only [mulSubLoop, ← hp] using i2, ?_⟩
      have hsub : u.toNat + wordBase * (decide (u.toNat < (lo p).toNat)).toNat = (u - lo p).toNat + (lo p).toNat := by
        have := (lo p).isLt
        rw [BitVec.toNat_sub, wordBase_eq]
        by_cases hlt : u.toNat < (lo p).toNat
        · simp only [hlt, decide_true, Bool.toNat_true]; omega
        · simp only [hlt, decide_false, Bool.toNat_false]; omega
      simp only [mulSubLoop, valLE, List.length_cons, pow_succ, ← hp]
      rw [hpn] at hlh
      linear_combination wordBase * i3 + hsub + hlh

theorem addBackLoop_spec (vs us : List Word) (c : Bool) (hl : vs.length = us.length) :
    (addBackLoop vs us c).1.length = us.length ∧
      valLE (addBackLoop vs us c).1 + (addBackLoop vs us c).2.toNat * wordBase ^ us.length =
        valLE us + valLE vs + c.toNat := by
  induction vs generalizing us c with
  | nil =>
    have : us = [] := by simpa using hl.symm
    subst this
    simp [addBackLoop, valLE]
  | cons v vs ih =>
    cases us with
    | nil => simp at hl
    | cons u us =>
      have hv := v.isLt
      have hu := u.isLt
      have hc := c.toNat_lt
      have ht : (ext u + ext v + ext (carry c)).toNat = u.toNat + v.toNat + c.toNat := by
        simp only [BitVec.toNat_add, ext_toNat, carry_toNat]; omega
      have hb := lo_add_bit32 (p := ext u + ext v + ext (carry c)) (by omega)
      rw [ht] at hb
      obtain ⟨i1, i2⟩ := ih us ((ext u + ext v + ext (carry c)).getLsbD 32) (by simpa using hl)
      refine ⟨by simp only [addBackLoop, List.length_cons, i1], ?_⟩
      simp only [addBackLoop, valLE, List.length_cons, pow_succ]
      linear_combination wordBase * i2 + hb

theorem two_cons {l : List Word} (h : 2 ≤ l.length) : ∃ a b t, l = a :: b :: t := by
  cases l with
  | nil => simp at h
  | cons a l =>
    cases l with
    | nil => simp at h
    | cons b t => exact ⟨a, b, t, rfl⟩

/-- The window's top word is at most the divisor's. -/
theorem top_word_le {u X D B dh P : Nat} (h1 : u * (B * (B * P)) ≤ X) (h2 : X < D * B)
    (h3 : D ≤ (dh + 1) * (B * P)) : u ≤ dh := by
  have h : u * (B * (B * P)) < (dh + 1) * (B * (B * P)) := by
    calc u * (B * (B * P)) ≤ X := h1
      _ < D * B := h2
      _ ≤ (dh + 1) * (B * P) * B := Nat.mul_le_mul_right _ h3
      _ = (dh + 1) * (B * (B * P)) := by ring
  have := Nat.lt_of_mul_lt_mul_right h
  omega

/-- A borrow out of the top: the estimate was one too large, and adding the divisor back gives the remainder. -/
theorem digit_borrow {X D Q R M u c rs q : Nat} (hbal : X + c * M = u * M + rs + q * D) (hX : D * Q + R = X)
    (hrs : rs < M) (hq : Q ≤ q) (hq1 : q ≤ Q + 1) (hb : u < c) :
    q = Q + 1 ∧ ∃ e, rs + D = R + e * M := by
  obtain ⟨e, rfl⟩ : ∃ e, c = u + e + 1 := ⟨c - u - 1, by omega⟩
  subst hX
  rcases Nat.lt_or_ge Q q with h | h
  · have hq2 : q = Q + 1 := by omega
    refine ⟨hq2, e + 1, ?_⟩
    subst hq2
    linear_combination -hbal
  · exfalso
    have hq2 : q = Q := by omega
    subst hq2
    have : R + (e + 1) * M = rs := by linear_combination hbal
    have h2 : 1 * M ≤ (e + 1) * M := Nat.mul_le_mul_right _ (by omega)
    omega

/-- No borrow: the estimate was right. -/
theorem digit_noBorrow {X D Q R M u c rs q : Nat} (hbal : X + c * M = u * M + rs + q * D) (hX : D * Q + R = X)
    (hR : R < D) (hD : D < M) (hq : Q ≤ q) (hq1 : q ≤ Q + 1) (hb : c ≤ u) : q = Q ∧ rs = R := by
  obtain ⟨e, rfl⟩ : ∃ e, u = c + e := ⟨u - c, by omega⟩
  subst hX
  rcases Nat.lt_or_ge Q q with h | h
  · exfalso
    have hq2 : q = Q + 1 := by omega
    subst hq2
    have : R = e * M + rs + D := by linear_combination hbal
    omega
  · have hq2 : q = Q := by omega
    subst hq2
    have h1 : R = e * M + rs := by linear_combination hbal
    refine ⟨rfl, ?_⟩
    have he : e = 0 := by
      rcases Nat.eq_zero_or_pos e with h | h
      · exact h
      · have : 1 * M ≤ e * M := Nat.mul_le_mul_right _ h
        omega
    subst he
    omega

/-- The estimate on a window below the divisor times B is the true digit or one more (R706, R707). -/
theorem estimate_window {vs ws : List Word} {u nm nl dh dl : Word} (hl : ws.length = vs.length)
    (htop : wordBase ≤ 2 * dh.toNat) (hlt : val (u :: nm :: nl :: ws) < val (dh :: dl :: vs) * wordBase) :
    val (u :: nm :: nl :: ws) / val (dh :: dl :: vs) ≤ (estimate u nm nl dh dl).toNat ∧
      (estimate u nm nl dh dl).toNat ≤ val (u :: nm :: nl :: ws) / val (dh :: dl :: vs) + 1 := by
  have hB := wordBase_pos
  have hvs := val_lt vs
  have hws := val_lt ws
  rw [hl] at hws
  have hdl := toNat_lt_base dl
  have hnm := toNat_lt_base nm
  have hvalV : val (dh :: dl :: vs) = (dh.toNat * wordBase + dl.toNat) * wordBase ^ vs.length + val vs := by
    rw [val, val, List.length_cons, pow_succ]; ring
  have hvalW : val (u :: nm :: nl :: ws) =
      ((u.toNat * wordBase + nm.toNat) * wordBase + nl.toNat) * wordBase ^ vs.length + val ws := by
    rw [val, val, val, List.length_cons, List.length_cons, hl, pow_succ, pow_succ]; ring
  have hdh : 0 < dh.toNat := by omega
  have hle : u.toNat ≤ dh.toNat := by
    refine top_word_le (X := val (u :: nm :: nl :: ws)) (P := wordBase ^ vs.length) ?_ hlt ?_
    · rw [hvalW]
      calc u.toNat * (wordBase * (wordBase * wordBase ^ vs.length))
          = u.toNat * wordBase * wordBase * wordBase ^ vs.length := by ring
        _ ≤ ((u.toNat * wordBase + nm.toNat) * wordBase + nl.toNat) * wordBase ^ vs.length := by
          apply Nat.mul_le_mul_right
          rw [Nat.add_mul]; omega
        _ ≤ _ := Nat.le_add_right _ _
    · rw [hvalV]
      calc (dh.toNat * wordBase + dl.toNat) * wordBase ^ vs.length + val vs
          ≤ (dh.toNat * wordBase + dl.toNat + 1) * wordBase ^ vs.length := by rw [Nat.add_mul _ 1, Nat.one_mul]; omega
        _ ≤ ((dh.toNat + 1) * wordBase) * wordBase ^ vs.length := by
          apply Nat.mul_le_mul_right
          rw [Nat.add_mul, Nat.one_mul]; omega
        _ = _ := by ring
  refine estimate_bounds (W := val (u :: nm :: nl :: ws)) (D := val (dh :: dl :: vs))
    (N := u.toNat * wordBase + nm.toNat) hvalW hws hvalV hvs (toNat_lt_base nl) hdl htop hlt ?_
    (estimate_toNat u nm nl dh dl hle hdh)
  by_cases he : u.toNat = dh.toNat
  · left
    rw [if_pos he]
    refine ⟨rfl, ?_⟩
    have : dh.toNat * (wordBase - 1) ≤ dh.toNat * wordBase := Nat.mul_le_mul_left _ (by omega)
    rw [he]; omega
  · right
    rw [if_neg he]
    refine ⟨rfl, ?_⟩
    have := Nat.mul_le_mul_right wordBase (Nat.succ_le_of_lt (show u.toNat < dh.toNat by omega))
    rw [Nat.succ_mul] at this
    exact Nat.div_lt_of_lt_mul (by omega)

/-- One digit (R706 to R709): the true digit, and the true remainder in n words. -/
theorem knuthDigit_spec {Vn W : List Word} {u0 : Word} (hl : W.length = Vn.length) (hn : 2 ≤ Vn.length)
    (htop : wordBase ≤ 2 * (Vn.getD 0 0).toNat) (hlt : val (u0 :: W) < val Vn * wordBase) :
    (knuthDigit Vn u0 W).2.length = Vn.length ∧
      (knuthDigit Vn u0 W).1.toNat = val (u0 :: W) / val Vn ∧
      val (knuthDigit Vn u0 W).2 = val (u0 :: W) % val Vn := by
  have hDpos : 0 < val Vn := by
    rcases Nat.eq_zero_or_pos (val Vn) with h | h
    · rw [h] at hlt; omega
    · exact h
  obtain ⟨hest1, hest2⟩ : val (u0 :: W) / val Vn ≤ (estimate u0 (W.getD 0 0) (W.getD 1 0) (Vn.getD 0 0) (Vn.getD 1 0)).toNat ∧
      (estimate u0 (W.getD 0 0) (W.getD 1 0) (Vn.getD 0 0) (Vn.getD 1 0)).toNat ≤ val (u0 :: W) / val Vn + 1 := by
    obtain ⟨dh, dl, vs, rfl⟩ := two_cons hn
    obtain ⟨nm, nl, ws, rfl⟩ := two_cons (hl ▸ hn)
    exact estimate_window (by simpa using hl) htop hlt
  unfold knuthDigit
  generalize estimate u0 (W.getD 0 0) (W.getD 1 0) (Vn.getD 0 0) (Vn.getD 1 0) = qhat at *
  have hlr : Vn.reverse.length = W.reverse.length := by rw [List.length_reverse, List.length_reverse, hl]
  obtain ⟨m1, m2, m3⟩ := mulSubLoop_spec qhat Vn.reverse W.reverse 0 hlr (by simp)
  simp only
  generalize mulSubLoop qhat Vn.reverse W.reverse 0 = ms at *
  have h0 : (0 : DWord).toNat = 0 := rfl
  rw [valLE_reverse, valLE_reverse, List.length_reverse, hl, h0, Nat.add_zero] at m3
  rw [List.length_reverse, hl] at m1
  have hrs := valLE_lt ms.1
  rw [m1] at hrs
  have hVlt := val_lt Vn
  have hwin : val (u0 :: W) = u0.toNat * wordBase ^ Vn.length + val W := by rw [val, hl]
  have hbal : val (u0 :: W) + ms.2.toNat * wordBase ^ Vn.length =
      u0.toNat * wordBase ^ Vn.length + valLE ms.1 + qhat.toNat * val Vn := by rw [hwin]; linarith
  have hdm := Nat.div_add_mod (val (u0 :: W)) (val Vn)
  have hRlt : val (u0 :: W) % val Vn < val Vn := Nat.mod_lt _ hDpos
  split
  · rename_i hborrow
    obtain ⟨hq, e, he⟩ := digit_borrow hbal hdm hrs hest1 hest2 hborrow
    obtain ⟨a1, a2⟩ := addBackLoop_spec Vn.reverse ms.1 false (by rw [List.length_reverse, m1])
    rw [m1] at a1 a2
    rw [valLE_reverse, Bool.toNat_false, Nat.add_zero, he] at a2
    have hab2 := valLE_lt (addBackLoop Vn.reverse ms.1 false).1
    rw [a1] at hab2
    refine ⟨by rw [List.length_reverse, a1], ?_, ?_⟩
    · have h1 : (1 : Word).toNat = 1 := rfl
      have := qhat.isLt
      simp only
      rw [BitVec.toNat_sub, h1]
      rw [hq]
      generalize val (u0 :: W) / val Vn = Q at *
      omega
    · simp only
      rw [val_reverse]
      have h3 := congrArg (· % wordBase ^ Vn.length) a2
      simpa only [Nat.add_mul_mod_self_right, Nat.mod_eq_of_lt hab2, Nat.mod_eq_of_lt (hRlt.trans hVlt)] using h3
  · rename_i hnb
    obtain ⟨hq, hr⟩ := digit_noBorrow hbal hdm hRlt hVlt hest1 hest2 (by omega)
    exact ⟨by rw [List.length_reverse, m1], hq, by rw [val_reverse, hr]⟩

/-- The digit loop: quotient and remainder of the whole of Un. -/
theorem knuthLoop_spec {Vn : List Word} (hn : 2 ≤ Vn.length) (htop : wordBase ≤ 2 * (Vn.getD 0 0).toNat)
    (us R : List Word) (hR : R.length = Vn.length) (hlt : val R < val Vn) :
    (knuthLoop Vn R us).2.length = Vn.length ∧ (knuthLoop Vn R us).1.length = us.length ∧
      val (knuthLoop Vn R us).2 < val Vn ∧
      val (knuthLoop Vn R us).1 * val Vn + val (knuthLoop Vn R us).2 = val R * wordBase ^ us.length + val us := by
  induction us generalizing R with
  | nil => simp [knuthLoop, val, hR, hlt]
  | cons u us ih =>
    obtain ⟨r0, R', rfl⟩ : ∃ r0 R', R = r0 :: R' := by
      cases R with
      | nil => simp at hR; omega
      | cons r R' => exact ⟨r, R', rfl⟩
    have hwin : val (r0 :: (R' ++ [u])) = val (r0 :: R') * wordBase + u.toNat := by
      rw [← List.cons_append, val_append]; simp [val]
    have hu := toNat_lt_base u
    have hwlt : val (r0 :: (R' ++ [u])) < val Vn * wordBase := by
      rw [hwin]
      have := Nat.mul_le_mul_right wordBase (Nat.succ_le_of_lt hlt)
      rw [Nat.succ_mul] at this
      omega
    obtain ⟨d1, d2, d3⟩ := knuthDigit_spec (W := R' ++ [u]) (u0 := r0) (by simpa using hR) hn htop hwlt
    have hVpos : 0 < val Vn := by omega
    have hdm := Nat.div_add_mod (val (r0 :: (R' ++ [u]))) (val Vn)
    obtain ⟨i1, i2, i3, i4⟩ := ih (knuthDigit Vn r0 (R' ++ [u])).2 d1 (by rw [d3]; exact Nat.mod_lt _ hVpos)
    simp only [knuthLoop, List.headD_cons, List.tail_cons]
    refine ⟨i1, by simp [i2], i3, ?_⟩
    rw [d3] at i4
    generalize knuthLoop Vn (knuthDigit Vn r0 (R' ++ [u])).2 us = rest at *
    rw [hwin] at d2 hdm i4
    rw [val, d2, i2, List.length_cons, pow_succ', val.eq_2 u us]
    generalize (val (r0 :: R') * wordBase + u.toNat) / val Vn = q at *
    generalize (val (r0 :: R') * wordBase + u.toNat) % val Vn = r at *
    linear_combination i4 + wordBase ^ us.length * hdm

/-- D1: the normalized divisor has its top bit set. -/
theorem nlz32_normal {w : Word} (hw : w ≠ 0) :
    wordBase ≤ 2 * (w.toNat * 2 ^ nlz32 w) ∧ w.toNat * 2 ^ nlz32 w < wordBase ∧ nlz32 w < 32 := by
  have hpos : 0 < w.toNat := by
    rcases Nat.eq_zero_or_pos w.toNat with h | h
    · exact absurd (BitVec.eq_of_toNat_eq (by simpa using h)) hw
    · exact h
  have hb : natBits w.toNat ≤ 32 := (natBits_le_iff _ _).2 w.isLt
  have hb0 : 0 < natBits w.toNat := by
    rcases Nat.eq_zero_or_pos (natBits w.toNat) with h | h
    · have := (natBits_le_iff w.toNat 0).1 (by omega); omega
    · exact h
  have h1 : 2 ^ (natBits w.toNat - 1) ≤ w.toNat := two_pow_le_of_natBits (by omega)
  have h2 := lt_two_pow_natBits w.toNat
  have hs : 2 ^ natBits w.toNat * 2 ^ nlz32 w = wordBase := by
    rw [← pow_add, wordBase]; congr 1; unfold nlz32; omega
  have hs2 : 2 * 2 ^ (natBits w.toNat - 1) = 2 ^ natBits w.toNat := by
    rw [← pow_succ']; congr 1; omega
  have hp : 0 < 2 ^ nlz32 w := by positivity
  refine ⟨?_, ?_, by unfold nlz32; omega⟩
  · rw [← hs, ← hs2]; nlinarith
  · rw [← hs]; exact Nat.mul_lt_mul_of_pos_right h2 hp

/-- R705 to R710: Algorithm D gives quotient and remainder. -/
theorem divKnuth_eq {U V : List Word} (hV : Canon V) (hn : 2 ≤ V.length) (hUV : val V ≤ val U) :
    divKnuth U V = (words (val U / val V), words (val U % val V)) := by
  obtain ⟨v0, vs, rfl⟩ : ∃ v0 vs, V = v0 :: vs := by
    cases V with
    | nil => simp at hn
    | cons v vs => exact ⟨v, vs, rfl⟩
  have hv0 : v0 ≠ 0 := by simpa [Canon] using hV
  obtain ⟨z1, z2, z3⟩ := nlz32_normal hv0
  set V := v0 :: vs with hVd
  set s := nlz32 v0 with hs
  set n := V.length with hnd
  have hB := wordBase_pos
  have hnl : n = vs.length + 1 := by simp [hnd, hVd]
  have hp : 0 < 2 ^ s := by positivity
  have hlen : n ≤ U.length := by
    by_contra hc
    have h1 : val U < wordBase ^ vs.length :=
      (val_lt U).trans_le (Nat.pow_le_pow_right hB (by omega))
    have h2 := le_val_of_canon hV
    rw [← hVd] at h2
    omega
  have hvlow := val_lt vs
  have hvalV : val V = v0.toNat * wordBase ^ vs.length + val vs := by rw [hVd, val]
  have hVs : val V * 2 ^ s < wordBase ^ n := by
    rw [hnl, pow_succ]
    have h1 : (v0.toNat + 1) * 2 ^ s ≤ wordBase := by
      have hdvd : 2 ^ s ∣ wordBase := by
        rw [wordBase]; exact pow_dvd_pow 2 (by omega)
      obtain ⟨k, hk⟩ := hdvd
      rw [hk, Nat.mul_comm (2 ^ s) k] at z2 ⊢
      have : v0.toNat < k := Nat.lt_of_mul_lt_mul_right z2
      exact Nat.mul_le_mul_right _ this
    calc val V * 2 ^ s < (v0.toNat + 1) * wordBase ^ vs.length * 2 ^ s := by
          apply Nat.mul_lt_mul_of_pos_right _ hp
          rw [hvalV]; linarith
      _ = (v0.toNat + 1) * 2 ^ s * wordBase ^ vs.length := by ring
      _ ≤ wordBase * wordBase ^ vs.length := Nat.mul_le_mul_right _ h1
      _ = _ := by ring
  have hUs : val U * 2 ^ s < wordBase ^ (U.length + 1) := by
    rw [pow_succ]
    have h1 : 2 ^ s ≤ wordBase := by rw [wordBase]; exact Nat.pow_le_pow_right (by decide) (by omega)
    exact Nat.mul_lt_mul_of_lt_of_le (val_lt U) h1 hB
  -- the two normalized lists
  set Vn := padTo n ((WorkBuf.load V).leftShift s).toValue with hVn
  set Un := padTo (U.length + 1) ((WorkBuf.load U).leftShift s).toValue with hUn
  have hVnv : val Vn = val V * 2 ^ s := by rw [hVn, val_padTo, toValue_leftShift, val_words]
  have hUnv : val Un = val U * 2 ^ s := by rw [hUn, val_padTo, toValue_leftShift, val_words]
  have hVnl : Vn.length = n := by
    rw [hVn]; apply padTo_length; rw [toValue_leftShift, words_length_le_iff]; exact hVs
  have hUnl : Un.length = U.length + 1 := by
    rw [hUn]; apply padTo_length; rw [toValue_leftShift, words_length_le_iff]; exact hUs
  have htop : wordBase ≤ 2 * (Vn.getD 0 0).toNat := by
    obtain ⟨t, ts, ht⟩ : ∃ t ts, Vn = t :: ts := by
      cases h : Vn with
      | nil => rw [h] at hVnl; simp at hVnl
      | cons t ts => exact ⟨t, ts, rfl⟩
    have htl : ts.length = vs.length := by rw [ht] at hVnl; simp at hVnl; omega
    have hts := val_lt ts
    rw [ht] at hVnv
    rw [ht]
    show wordBase ≤ 2 * t.toNat
    rw [htl] at hts
    rw [val, htl] at hVnv
    by_contra hc
    have hc' : 2 * (t.toNat + 1) ≤ wordBase := by
      have : wordBase = 2 * 2147483648 := by rw [wordBase_eq]
      omega
    have h1 : 2 * (val V * 2 ^ s) < wordBase * wordBase ^ vs.length := by
      rw [← hVnv]
      calc 2 * (t.toNat * wordBase ^ vs.length + val ts) < 2 * (t.toNat + 1) * wordBase ^ vs.length := by linarith
        _ ≤ wordBase * wordBase ^ vs.length := Nat.mul_le_mul_right _ hc'
    have h2 : wordBase * wordBase ^ vs.length ≤ 2 * (val V * 2 ^ s) := by
      calc wordBase * wordBase ^ vs.length ≤ 2 * (v0.toNat * 2 ^ s) * wordBase ^ vs.length := Nat.mul_le_mul_right _ z1
        _ = 2 * (v0.toNat * wordBase ^ vs.length * 2 ^ s) := by ring
        _ ≤ _ := by rw [hvalV]; gcongr; omega
    omega
  have hdropl : (Un.drop n).length = U.length + 1 - n := by rw [List.length_drop, hUnl]
  have hsplit : val (Un.take n) * wordBase ^ (U.length + 1 - n) + val (Un.drop n) = val U * 2 ^ s := by
    rw [← hUnv, ← hdropl, ← val_append, List.take_append_drop]
  have htake : val (Un.take n) < val Vn := by
    have h1 : val (Un.take n) * wordBase ^ (U.length + 1 - n) < val Vn * wordBase ^ (U.length + 1 - n) := by
      calc val (Un.take n) * wordBase ^ (U.length + 1 - n) ≤ val U * 2 ^ s := by omega
        _ < wordBase ^ U.length * 2 ^ s := Nat.mul_lt_mul_of_pos_right (val_lt U) hp
        _ = wordBase ^ vs.length * 2 ^ s * wordBase ^ (U.length + 1 - n) := by
          have : U.length = vs.length + (U.length + 1 - n) := by omega
          conv_lhs => rw [this, pow_add]
          ring
        _ ≤ val Vn * wordBase ^ (U.length + 1 - n) := by
          rw [hVnv]
          exact Nat.mul_le_mul_right _ (Nat.mul_le_mul_right _ (le_val_of_canon hV))
    exact Nat.lt_of_mul_lt_mul_right h1
  obtain ⟨_, _, k3, k4⟩ := knuthLoop_spec (Vn := Vn) (by omega) htop (Un.drop n) (Un.take n)
    (by rw [List.length_take, hUnl, hVnl]; omega) htake
  rw [hdropl, hsplit, hVnv] at k4
  rw [hVnv] at k3
  have hfin : divKnuth U V = (strip (knuthLoop Vn (Un.take n) (Un.drop n)).1,
      ((WorkBuf.load (knuthLoop Vn (Un.take n) (Un.drop n)).2).rightShift s).toValue) := rfl
  rw [hfin, strip_eq_words, toValue_rightShift]
  set q := val (knuthLoop Vn (Un.take n) (Un.drop n)).1 with hq
  set r := val (knuthLoop Vn (Un.take n) (Un.drop n)).2 with hr
  -- the remainder is a multiple of 2^s
  have hVpos : 0 < val V := by
    have h1 := le_val_of_canon hV
    rw [← hVd] at h1
    have h2 : 0 < wordBase ^ vs.length := Nat.pow_pos hB
    omega
  have hqr := div_mod_unique (a := val U * 2 ^ s) (d := val V * 2 ^ s) (q := q) (r := r) k4 k3
  rw [Nat.mul_div_mul_right _ _ hp, Nat.mul_mod_mul_right] at hqr
  rw [← hqr.1, ← hqr.2, Nat.mul_div_cancel _ hp]

/-! Dispatch and sign. -/

/-- R703: the quotient and the remainder of canonical magnitudes; `none` exactly for an empty divisor. -/
theorem divMag_eq {U V : List Word} (hU : Canon U) (hV : Canon V) :
    divMag U V = if V = [] then none else some (words (val U / val V), words (val U % val V)) := by
  unfold divMag
  split
  · rfl
  rename_i hV0
  have hVpos : 0 < val V := by
    rcases Nat.eq_zero_or_pos (val V) with h | h
    · exact absurd (canon_unique hV (by simp) (by simpa [val] using h)) hV0
    · exact h
  split
  · rename_i h; subst h; simp [val]
  rename_i hU0
  have hcmp : (WorkBuf.load U).compare (WorkBuf.load V) = ((val U : Int) - val V).sign := by
    rw [WorkBuf.compare, toValue_load, toValue_load, strip_of_canon hU, strip_of_canon hV, compareMag_eq hU hV]
  simp only [hcmp]
  split
  · rename_i h
    have h1 : val U < val V := by
      have := Int.sign_neg_iff.1 h
      omega
    rw [Nat.div_eq_of_lt h1, Nat.mod_eq_of_lt h1, words_zero, words_of_canon hU]
  · split
    · rename_i _ h
      have h1 : val U = val V := by
        have := Int.sign_eq_zero_iff_zero.1 h
        omega
      have h2 : words 1 = [1] := by decide
      rw [h1, Nat.div_self hVpos, Nat.mod_self, words_zero, h2]
    · rename_i h1 h2
      have hlt : val V < val U := by
        rcases lt_trichotomy (val U) (val V) with h | h | h
        · exact absurd (Int.sign_neg_iff.2 (by omega)) h1
        · exact absurd (Int.sign_eq_zero_iff_zero.2 (by omega)) h2
        · exact h
      split
      · rename_i hl1
        obtain ⟨d, rfl⟩ := List.length_eq_one_iff.1 hl1
        have hd : val [d] = d.toNat := by simp [val]
        rw [hd] at hVpos ⊢
        rw [List.headD_cons, divOneWord_eq U hVpos]
      · rename_i hl1
        have hlen : 2 ≤ V.length := by
          have : 0 < V.length := List.length_pos_iff.2 hV0
          omega
        rw [divKnuth_eq hV hlen hlt.le]

theorem sign_mul_natAbs_div (a b : Int) : a.sign * b.sign * ((a.natAbs / b.natAbs : Nat) : Int) = a.tdiv b := by
  rcases Int.natAbs_eq a with ha | ha <;> rcases Int.natAbs_eq b with hb | hb
  all_goals
    generalize a.natAbs = m at *
    generalize b.natAbs = n at *
    subst ha hb
    rcases Nat.eq_zero_or_pos m with rfl | hm <;> rcases Nat.eq_zero_or_pos n with rfl | hn <;>
      simp [Int.sign_natCast_of_ne_zero, Nat.pos_iff_ne_zero.1, *, Int.tdiv_neg, Int.neg_tdiv]

theorem sign_mul_natAbs_mod (a b : Int) : a.sign * ((a.natAbs % b.natAbs : Nat) : Int) = a.tmod b := by
  have h := Int.tmod_def a b
  rw [← sign_mul_natAbs_div, mul_left_comm, ← mul_assoc] at h
  have hd : ((a.natAbs : Int)) = (b.natAbs : Int) * ((a.natAbs / b.natAbs : Nat) : Int) + ((a.natAbs % b.natAbs : Nat) : Int) := by
    exact_mod_cast (Nat.div_add_mod _ _).symm
  have hs : b * b.sign = (b.natAbs : Int) := Int.mul_sign_self b
  rw [h]
  have ha := Int.sign_mul_natAbs a
  linear_combination (-a.sign) * hd + (a.sign * ((a.natAbs / b.natAbs : Nat) : Int)) * hs + ha

/-- R711: sdiv gives tdiv and tmod, and is `none` exactly for b = 0. -/
theorem sdiv_eq (a b : Int) : sdiv a b = if b = 0 then none else some (a.tdiv b, a.tmod b) := by
  unfold sdiv
  rw [divMag_eq (canon_words _) (canon_words _)]
  by_cases hb : b = 0
  · subst hb; simp
  · have hw : words b.natAbs ≠ [] := by rw [ne_eq, words_eq_nil_iff]; omega
    simp only [hw, hb, if_false, val_words]
    rw [sign_mul_natAbs_div, sign_mul_natAbs_mod]

end Sys2Proof.Machine
end

