-- ==== Sys2Proof/Laws/Memory.lean ====
section
/-! SUPPORT. The laws of operand memory: a read after a write, and the canonical form, which every operation keeps. -/

namespace Sys2Proof.Machine

/-! One byte. -/

theorem Memory.readByte_of_lt {m : Memory} {a : Nat} (h : ∀ c ∈ m, a < c.1) : Memory.readByte m a = Memory.unlisted := by
  induction m with
  | nil => rfl
  | cons c m ih =>
    have hc := h c List.mem_cons_self
    rw [Memory.readByte, if_neg (by omega)]
    exact ih (fun d hd => h d (List.mem_cons_of_mem _ hd))

theorem Memory.wf_tail {c : Host.Cell} {m : Memory} (h : Memory.wf (c :: m)) : Memory.wf m :=
  ⟨(List.pairwise_cons.1 h.1).2, fun d hd => h.2 d (List.mem_cons_of_mem _ hd)⟩

theorem Memory.lt_of_wf_cons {c : Host.Cell} {m : Memory} (h : Memory.wf (c :: m)) : ∀ d ∈ m, c.1 < d.1 :=
  (List.pairwise_cons.1 h.1).1

theorem Memory.wf_cons {c : Host.Cell} {m : Memory} (h1 : ∀ d ∈ m, c.1 < d.1) (h2 : c.2 ≠ Memory.unlisted)
    (h : Memory.wf m) : Memory.wf (c :: m) := by
  refine ⟨List.pairwise_cons.2 ⟨h1, h.1⟩, fun d hd => ?_⟩
  rcases List.mem_cons.1 hd with rfl | hd
  · exact h2
  · exact h.2 d hd

/-- The addresses a write may list: the old ones and the one written. -/
theorem Memory.mem_writeByte {m : Memory} {a : Nat} {b : Byte} {c : Host.Cell} (h : c ∈ Memory.writeByte m a b) :
    c ∈ m ∨ (c = (a, b) ∧ b ≠ Memory.unlisted) := by
  induction m with
  | nil =>
    rw [Memory.writeByte] at h
    split at h
    · simp at h
    · rename_i hb; exact .inr ⟨by simpa using h, hb⟩
  | cons d m ih =>
    rw [Memory.writeByte] at h
    split at h
    · split at h
      · exact .inl h
      · rename_i hb
        rcases List.mem_cons.1 h with h | h
        · exact .inr ⟨h, hb⟩
        · exact .inl h
    · split at h
      · split at h
        · exact .inl (List.mem_cons_of_mem _ h)
        · rename_i hb
          rcases List.mem_cons.1 h with h | h
          · exact .inr ⟨h, hb⟩
          · exact .inl (List.mem_cons_of_mem _ h)
      · rcases List.mem_cons.1 h with h | h
        · exact .inl (h ▸ List.mem_cons_self)
        · rcases ih h with h | h
          · exact .inl (List.mem_cons_of_mem _ h)
          · exact .inr h

/-- A write keeps the canonical form. -/
theorem Memory.wf_writeByte {m : Memory} (h : Memory.wf m) (a : Nat) (b : Byte) : Memory.wf (Memory.writeByte m a b) := by
  induction m with
  | nil =>
    rw [Memory.writeByte]
    split
    · exact h
    · rename_i hb; exact Memory.wf_cons (by simp) hb h
  | cons c m ih =>
    have hlt := Memory.lt_of_wf_cons h
    rw [Memory.writeByte]
    split
    · rename_i ha
      split
      · exact h
      · rename_i hb
        refine Memory.wf_cons (fun d hd => ?_) hb h
        rcases List.mem_cons.1 hd with rfl | hd
        · exact ha
        · exact ha.trans (hlt d hd)
    · split
      · rename_i ha
        split
        · exact Memory.wf_tail h
        · rename_i hb
          exact Memory.wf_cons (fun d hd => by rw [ha]; exact hlt d hd) hb (Memory.wf_tail h)
      · rename_i h1 h2
        refine Memory.wf_cons (fun d hd => ?_) (h.2 c List.mem_cons_self) (ih (Memory.wf_tail h))
        rcases Memory.mem_writeByte hd with hd | ⟨rfl, _⟩
        · exact hlt d hd
        · show c.1 < a
          omega

/-- A read after a write. -/
theorem Memory.readByte_writeByte {m : Memory} (h : Memory.wf m) (a : Nat) (b : Byte) (a' : Nat) :
    Memory.readByte (Memory.writeByte m a b) a' = if a' = a then b else Memory.readByte m a' := by
  induction m with
  | nil =>
    rw [Memory.writeByte]
    split
    · rename_i hb; rw [Memory.readByte, hb, ite_self]
    · by_cases h1 : a' = a
      · subst h1; simp [Memory.readByte]
      · simp [Memory.readByte, h1, Ne.symm h1]
  | cons c m ih =>
    have hlt := Memory.lt_of_wf_cons h
    rw [Memory.writeByte]
    split
    · rename_i ha
      have hun : Memory.readByte (c :: m) a = Memory.unlisted := by
        refine Memory.readByte_of_lt (fun d hd => ?_)
        rcases List.mem_cons.1 hd with rfl | hd
        · exact ha
        · exact ha.trans (hlt d hd)
      by_cases h1 : a' = a
      · subst h1
        rw [if_pos rfl]
        split
        · rename_i hb; rw [hun, hb]
        · rw [Memory.readByte, if_pos rfl]
      · rw [if_neg h1]
        split
        · rfl
        · rw [Memory.readByte, if_neg (fun hc => h1 hc.symm)]
    · split
      · rename_i _ ha
        by_cases h1 : a' = a
        · subst h1
          rw [if_pos rfl]
          split
          · rename_i hb
            rw [Memory.readByte_of_lt (fun d hd => by rw [ha]; exact hlt d hd), hb]
          · rw [Memory.readByte, if_pos rfl]
        · rw [if_neg h1]
          have h3 : ¬ c.1 = a' := by omega
          split
          · rw [Memory.readByte, if_neg h3]
          · rw [Memory.readByte, if_neg (fun hc => h1 hc.symm), Memory.readByte, if_neg h3]
      · rename_i h1 h2
        rw [Memory.readByte, ih (Memory.wf_tail h), Memory.readByte]
        by_cases h3 : c.1 = a'
        · rw [if_pos h3, if_neg (by omega), if_pos h3]
        · rw [if_neg h3, if_neg h3]

/-! One word. -/

theorem Memory.wf_writeWord {m : Memory} (h : Memory.wf m) (a : Nat) (w : Word) : Memory.wf (Memory.writeWord m a w) :=
  Memory.wf_writeByte (Memory.wf_writeByte (Memory.wf_writeByte (Memory.wf_writeByte h _ _) _ _) _ _) _ _

theorem Memory.readByte_writeWord {m : Memory} (h : Memory.wf m) (a : Nat) (w : Word) (k : Nat) :
    Memory.readByte (Memory.writeWord m a w) k =
      if k = 4 * a + 3 then w.extractLsb' 24 8
      else if k = 4 * a + 2 then w.extractLsb' 16 8
      else if k = 4 * a + 1 then w.extractLsb' 8 8
      else if k = 4 * a then w.extractLsb' 0 8
      else Memory.readByte m k := by
  have h1 := Memory.wf_writeByte h (4 * a) (w.extractLsb' 0 8)
  have h2 := Memory.wf_writeByte h1 (4 * a + 1) (w.extractLsb' 8 8)
  have h3 := Memory.wf_writeByte h2 (4 * a + 2) (w.extractLsb' 16 8)
  simp only [Memory.writeWord]
  rw [Memory.readByte_writeByte h3, Memory.readByte_writeByte h2, Memory.readByte_writeByte h1, Memory.readByte_writeByte h]

/-- A byte outside the word written reads as before. -/
theorem Memory.readByte_writeWord_other {m : Memory} (h : Memory.wf m) {a k : Nat} (w : Word) (hk : k / 4 ≠ a) :
    Memory.readByte (Memory.writeWord m a w) k = Memory.readByte m k := by
  rw [Memory.readByte_writeWord h, if_neg (by omega), if_neg (by omega), if_neg (by omega), if_neg (by omega)]

theorem word_bytes (w : Word) :
    w.extractLsb' 24 8 ++ w.extractLsb' 16 8 ++ w.extractLsb' 8 8 ++ w.extractLsb' 0 8 = w := by
  apply BitVec.eq_of_getLsbD_eq
  intro i hi
  simp only [BitVec.getLsbD_append, BitVec.getLsbD_extractLsb']
  by_cases h1 : i < 8
  · simp [h1]
  · by_cases h2 : i < 16
    · have e : 8 + (i - 8) = i := by omega
      have h3 : i - 8 < 8 := by omega
      simp [h1, h3, e]
    · by_cases h4 : i < 24
      · have e : 16 + (i - 8 - 8) = i := by omega
        have h3 : i - 8 - 8 < 8 := by omega
        have h5 : ¬ i - 8 < 8 := by omega
        simp [h1, h3, h5, e]
      · have e : 24 + (i - 8 - 8 - 8) = i := by omega
        have h3 : i - 8 - 8 - 8 < 8 := by omega
        have h5 : ¬ i - 8 < 8 := by omega
        have h6 : ¬ i - 8 - 8 < 8 := by omega
        simp [h1, h3, h5, h6, e]

theorem Memory.readWord_writeWord {m : Memory} (h : Memory.wf m) (a : Nat) (w : Word) (a' : Nat) :
    Memory.readWord (Memory.writeWord m a w) a' = if a' = a then w else Memory.readWord m a' := by
  by_cases ha : a' = a
  · subst ha
    rw [if_pos rfl, Memory.readWord, Memory.readByte_writeWord h, Memory.readByte_writeWord h,
      Memory.readByte_writeWord h, Memory.readByte_writeWord h]
    simp only [if_true]
    have e1 : ¬ 4 * a' + 2 = 4 * a' + 3 := by omega
    have e2 : ¬ 4 * a' + 1 = 4 * a' + 3 := by omega
    have e3 : ¬ 4 * a' + 1 = 4 * a' + 2 := by omega
    have e4 : ¬ 4 * a' = 4 * a' + 3 := by omega
    have e5 : ¬ 4 * a' = 4 * a' + 2 := by omega
    have e6 : ¬ 4 * a' = 4 * a' + 1 := by omega
    rw [if_neg e1, if_neg e2, if_neg e3, if_neg e4, if_neg e5, if_neg e6]
    exact word_bytes w
  · rw [if_neg ha]
    simp only [Memory.readWord]
    rw [Memory.readByte_writeWord_other h w (by omega), Memory.readByte_writeWord_other h w (by omega),
      Memory.readByte_writeWord_other h w (by omega), Memory.readByte_writeWord_other h w (by omega)]

/-! Runs of words (R16). -/

@[simp] theorem Memory.read_length (m : Memory) (a n : Nat) : (Memory.read m a n).length = n := by
  induction n generalizing a with
  | zero => rfl
  | succ n ih => rw [Memory.read, List.length_cons, ih]

theorem Memory.wf_write {m : Memory} (h : Memory.wf m) (a : Nat) (X : List Word) : Memory.wf (Memory.write m a X) := by
  induction X generalizing m a with
  | nil => exact h
  | cons w ws ih => exact ih (Memory.wf_writeWord h a w) (a + 1)

/-- Bytes outside the words a, ..., a + |X| - 1 read as before. -/
theorem Memory.readByte_write_other {m : Memory} (h : Memory.wf m) {a k : Nat} (X : List Word)
    (hk : k / 4 < a ∨ a + X.length ≤ k / 4) : Memory.readByte (Memory.write m a X) k = Memory.readByte m k := by
  induction X generalizing m a with
  | nil => rfl
  | cons w ws ih =>
    rw [List.length_cons] at hk
    rw [Memory.write, ih (Memory.wf_writeWord h a w) (by omega), Memory.readByte_writeWord_other h w (by omega)]

theorem Memory.readWord_write {m : Memory} (h : Memory.wf m) (a : Nat) (X : List Word) (b : Nat) :
    Memory.readWord (Memory.write m a X) b =
      if a ≤ b ∧ b < a + X.length then X.getD (b - a) 0 else Memory.readWord m b := by
  induction X generalizing m a with
  | nil => rw [Memory.write, if_neg (by simp)]
  | cons w ws ih =>
    rw [Memory.write, ih (Memory.wf_writeWord h a w), Memory.readWord_writeWord h, List.length_cons]
    by_cases h1 : b = a
    · subst h1
      rw [if_neg (by omega), if_pos rfl, if_pos (by omega), Nat.sub_self]; rfl
    · rw [if_neg h1]
      by_cases h2 : a + 1 ≤ b ∧ b < a + 1 + ws.length
      · rw [if_pos h2, if_pos (by omega), show b - a = (b - (a + 1)) + 1 by omega]; rfl
      · rw [if_neg h2, if_neg (by omega)]

theorem Memory.read_getD (m : Memory) (a n k : Nat) (h : k < n) :
    (Memory.read m a n).getD k 0 = Memory.readWord m (a + k) := by
  induction n generalizing a k with
  | zero => omega
  | succ n ih =>
    cases k with
    | zero => rfl
    | succ k =>
      rw [Memory.read, List.getD_cons_succ, ih (a + 1) k (by omega)]
      congr 1; omega

/-- What was written is read back (R16). -/
theorem Memory.read_write {m : Memory} (h : Memory.wf m) (a : Nat) (X : List Word) :
    Memory.read (Memory.write m a X) a X.length = X := by
  apply List.ext_getElem
  · simp
  · intro k h1 h2
    have e := Memory.read_getD (Memory.write m a X) a X.length k h2
    rw [Memory.readWord_write h, if_pos (by omega), Nat.add_sub_cancel_left] at e
    rw [List.getD_eq_getElem _ _ h1, List.getD_eq_getElem _ _ h2] at e
    exact e

/-! Addresses: no operation lists a byte past the memory it was given and the words it writes. -/

theorem Memory.below_writeByte {m : Memory} {n a : Nat} {b : Byte} (h : Memory.below m n) (ha : a < 4 * n) :
    Memory.below (Memory.writeByte m a b) n := by
  intro c hc
  rcases Memory.mem_writeByte hc with hc | ⟨rfl, _⟩
  · exact h c hc
  · exact ha

theorem Memory.below_writeWord {m : Memory} {n a : Nat} {w : Word} (h : Memory.below m n) (ha : a < n) :
    Memory.below (Memory.writeWord m a w) n :=
  Memory.below_writeByte (Memory.below_writeByte (Memory.below_writeByte (Memory.below_writeByte h (by omega))
    (by omega)) (by omega)) (by omega)

theorem Memory.below_write {m : Memory} {n a : Nat} {X : List Word} (h : Memory.below m n) (ha : a + X.length ≤ n) :
    Memory.below (Memory.write m a X) n := by
  induction X generalizing m a with
  | nil => exact h
  | cons w ws ih =>
    rw [List.length_cons] at ha
    exact ih (Memory.below_writeWord h (by omega)) (by omega)

theorem Memory.ofContents_spec (omw : Nat) (l : List (Nat × Word)) :
    Memory.wf (Memory.ofContents omw l) ∧ Memory.below (Memory.ofContents omw l) omw := by
  have key : ∀ (l : List (Nat × Word)) (m : Memory), Memory.wf m ∧ Memory.below m omw →
      Memory.wf (l.foldl (fun m p => if p.1 < omw then Memory.writeWord m p.1 p.2 else m) m) ∧
        Memory.below (l.foldl (fun m p => if p.1 < omw then Memory.writeWord m p.1 p.2 else m) m) omw := by
    intro l
    induction l with
    | nil => intro m h; exact h
    | cons p l ih =>
      intro m h
      rw [List.foldl_cons]
      apply ih
      split
      · rename_i hp; exact ⟨Memory.wf_writeWord h.1 _ _, Memory.below_writeWord h.2 hp⟩
      · exact h
  exact key l [] ⟨by decide, by simp⟩

end Sys2Proof.Machine
end

