-- ==== Sys2Proof/Laws/Multiply.lean ====
section
/-! SUPPORT. The multiplier, the squarer and the power loop compute products, squares and powers (42_multiply.md R600
to R602), so MUL, SQR and POW compute the integer formulas of R603 to R605. -/

namespace Sys2Proof.Machine

/-- One row: x times the words ys is added to the words A, and the carry lands on the zero word above them. -/
theorem mulRow_spec (x : Word) (ys A rest : List Word) (c : Word) (h : A.length = ys.length) :
    ∃ R, mulRow x ys (A ++ 0 :: rest) c = R ++ rest ∧ R.length = ys.length + 1 ∧
      valLE R = valLE A + x.toNat * valLE ys + c.toNat := by
  induction ys generalizing A c with
  | nil =>
    have : A = [] := by simpa using h
    subst this
    exact ⟨[c], by simp [mulRow, valLE]⟩
  | cons y ys ih =>
    cases A with
    | nil => simp at h
    | cons a A =>
      obtain ⟨R, h1, h2, h3⟩ := ih A (hi (mulAdd64 x y a c)) (by simpa using h)
      refine ⟨lo (mulAdd64 x y a c) :: R, ?_, by simp [h2], ?_⟩
      · simp only [List.cons_append, mulRow, h1]
      · have := mulAdd64_lo_hi x y a c
        simp only [valLE, h3]
        linarith

theorem mulLoop_spec (xs ys A : List Word) (h : A.length = ys.length) :
    valLE (mulLoop xs ys (A ++ List.replicate xs.length 0)) = valLE A + valLE xs * valLE ys := by
  induction xs generalizing A with
  | nil => simp [mulLoop, valLE]
  | cons x xs ih =>
    obtain ⟨R, h1, h2, h3⟩ := mulRow_spec x ys A (List.replicate xs.length 0) 0 h
    rw [List.length_cons, List.replicate_succ, mulLoop, h1]
    cases R with
    | nil => simp at h2
    | cons w A' =>
      have := ih A' (by simpa using h2)
      simp only [List.cons_append, valLE, this] at h3 ⊢
      have h0 : (0 : Word).toNat = 0 := rfl
      rw [h0] at h3
      linarith

/-- The value of R600's result. -/
theorem mulMag_eq_words (X Y : List Word) : mulMag X Y = words (val X * val Y) := by
  have key : ∀ xs ys : List Word,
      valLE (mulLoop xs ys (List.replicate (xs.length + ys.length) 0)) = valLE xs * valLE ys := by
    intro xs ys
    have := mulLoop_spec xs ys (List.replicate ys.length 0) (by simp)
    rw [← List.replicate_add, valLE_replicate_zero, Nat.zero_add, Nat.add_comm] at this
    exact this
  unfold mulMag
  split
  · rw [strip_eq_words, val_reverse]
    have := key Y.reverse X.reverse
    rw [List.length_reverse, List.length_reverse, valLE_reverse, valLE_reverse, Nat.add_comm] at this
    rw [this, Nat.mul_comm]
  · rw [strip_eq_words, val_reverse]
    have := key X.reverse Y.reverse
    rw [List.length_reverse, List.length_reverse, valLE_reverse, valLE_reverse] at this
    rw [this]

@[simp] theorem val_mulMag (X Y : List Word) : val (mulMag X Y) = val X * val Y := by
  rw [mulMag_eq_words, val_words]

/-! Squaring. -/

/-- The upper triangle Σ_{i<j} x_i·x_j·B^(i+j) of a list, least significant word first. -/
def triangle : List Word → Nat
  | [] => 0
  | x :: xs => wordBase * (x.toNat * valLE xs) + wordBase * wordBase * triangle xs

/-- The diagonal Σ x_i²·B^(2i). -/
def diagonal : List Word → Nat
  | [] => 0
  | x :: xs => x.toNat * x.toNat + wordBase * wordBase * diagonal xs

theorem triangle_diagonal (xs : List Word) : 2 * triangle xs + diagonal xs = valLE xs * valLE xs := by
  induction xs with
  | nil => rfl
  | cons x xs ih => simp only [triangle, diagonal, valLE]; linear_combination (wordBase * wordBase) * ih

theorem sqrTriangle_spec (xs A : List Word) (h : A.length = xs.length) :
    valLE (sqrTriangle xs (A ++ List.replicate xs.length 0)) = valLE A + triangle xs ∧
      (sqrTriangle xs (A ++ List.replicate xs.length 0)).length = 2 * xs.length := by
  induction xs generalizing A with
  | nil =>
    have : A = [] := by simpa using h
    subst this; exact ⟨rfl, rfl⟩
  | cons x xs ih =>
    cases A with
    | nil => simp at h
    | cons a A =>
      have hA : A.length = xs.length := by simpa using h
      obtain ⟨R, h1, h2, h3⟩ := mulRow_spec x xs A (List.replicate xs.length 0) 0 hA
      rw [List.length_cons, List.replicate_succ, List.cons_append, sqrTriangle, h1]
      cases R with
      | nil => simp at h2
      | cons r A' =>
        obtain ⟨i1, i2⟩ := ih A' (by simpa using h2)
        simp only [List.cons_append, valLE, triangle, List.length_cons, i1, i2] at h3 ⊢
        have h0 : (0 : Word).toNat = 0 := rfl
        rw [h0] at h3
        refine ⟨?_, by omega⟩
        linear_combination wordBase * h3

theorem sqrDouble_spec (Z : List Word) (c : Bool) : (sqrDouble Z c).length = Z.length ∧
    ∃ k, valLE (sqrDouble Z c) + k * wordBase ^ Z.length = 2 * valLE Z + c.toNat := by
  induction Z generalizing c with
  | nil => exact ⟨rfl, c.toNat, by simp [sqrDouble, valLE]⟩
  | cons z Z ih =>
    obtain ⟨h1, k, hk⟩ := ih ((2 * ext z + ext (carry c)).getLsbD 32)
    have hz := z.isLt
    have hc := c.toNat_lt
    have ht : (2 * ext z + ext (carry c)).toNat = 2 * z.toNat + c.toNat := by
      simp only [BitVec.toNat_add, BitVec.toNat_mul, ext_toNat, carry_toNat]
      simp; omega
    have hb := lo_add_bit32 (p := 2 * ext z + ext (carry c)) (by omega)
    rw [ht] at hb
    refine ⟨by rw [sqrDouble]; simp only [List.length_cons, h1], k, ?_⟩
    simp only [sqrDouble, valLE, List.length_cons, pow_succ]
    linear_combination hb + wordBase * hk

theorem sqrDiagonal_spec (xs Z : List Word) (c : Bool) (h : Z.length = 2 * xs.length) :
    (sqrDiagonal xs Z c).length = Z.length ∧
    ∃ k, valLE (sqrDiagonal xs Z c) + k * wordBase ^ Z.length = valLE Z + diagonal xs + c.toNat := by
  induction xs generalizing Z c with
  | nil =>
    have : Z = [] := by simpa using h
    subst this
    exact ⟨rfl, c.toNat, by simp [sqrDiagonal, valLE, diagonal]⟩
  | cons x xs ih =>
    match Z, h with
    | [], h => simp at h
    | [_], h => simp at h; omega
    | z0 :: z1 :: Z, h =>
      have hl : Z.length = 2 * xs.length := by simp at h; omega
      set p := mulAdd64 x x z0 (carry c) with hp
      obtain ⟨h1, k, hk⟩ := ih Z ((ext z1 + ext (hi p)).getLsbD 32) hl
      have hz := z1.isLt
      have hh := (hi p).isLt
      have ht : (ext z1 + ext (hi p)).toNat = z1.toNat + (hi p).toNat := by
        simp only [BitVec.toNat_add, ext_toNat]; omega
      have hb := lo_add_bit32 (p := ext z1 + ext (hi p)) (by omega)
      rw [ht] at hb
      have hm := mulAdd64_lo_hi x x z0 (carry c)
      rw [← hp, carry_toNat] at hm
      refine ⟨by simp only [sqrDiagonal, List.length_cons, ← hp, h1], k, ?_⟩
      simp only [sqrDiagonal, valLE, diagonal, List.length_cons, pow_succ, ← hp]
      linear_combination hm + wordBase * hb + (wordBase * wordBase) * hk

/-- R601: sqrMag squares; it is mulMag of the list with itself. -/
theorem sqrMag_eq_words (X : List Word) : sqrMag X = words (val X * val X) := by
  unfold sqrMag
  rw [strip_eq_words, val_reverse]
  have hl : (List.replicate (2 * X.length) (0 : Word)) =
      List.replicate X.reverse.length 0 ++ List.replicate X.reverse.length 0 := by
    rw [← List.replicate_add, List.length_reverse, ← two_mul]
  obtain ⟨t1, t2⟩ := sqrTriangle_spec X.reverse (List.replicate X.reverse.length 0) (by simp)
  rw [← hl] at t1 t2
  rw [valLE_replicate_zero, Nat.zero_add] at t1
  obtain ⟨d1, k, hk⟩ := sqrDouble_spec (sqrTriangle X.reverse (List.replicate (2 * X.length) 0)) false
  obtain ⟨e1, j, hj⟩ := sqrDiagonal_spec X.reverse
    (sqrDouble (sqrTriangle X.reverse (List.replicate (2 * X.length) 0)) false) false (by rw [d1, t2])
  have hlt := valLE_lt X.reverse
  have hsq := triangle_diagonal X.reverse
  set D := sqrDiagonal X.reverse
    (sqrDouble (sqrTriangle X.reverse (List.replicate (2 * X.length) 0)) false) false with hD
  have hDlt := valLE_lt D
  rw [e1, d1, t2] at hDlt
  rw [d1, t2] at hj
  rw [t2, t1] at hk
  simp only [Bool.toNat_false, Nat.add_zero] at hk hj
  have hfin : valLE D + (j + k) * wordBase ^ (2 * X.reverse.length) = valLE X.reverse * valLE X.reverse := by
    linarith
  have hbound : valLE X.reverse * valLE X.reverse < wordBase ^ (2 * X.reverse.length) := by
    rw [two_mul, pow_add]
    exact Nat.mul_lt_mul'' hlt hlt
  have hz : j + k = 0 := by
    rcases Nat.eq_zero_or_pos (j + k) with h | h
    · exact h
    · have : wordBase ^ (2 * X.reverse.length) ≤ (j + k) * wordBase ^ (2 * X.reverse.length) :=
        Nat.le_mul_of_pos_left _ h
      omega
  rw [hz, Nat.zero_mul, Nat.add_zero, valLE_reverse] at hfin
  rw [hfin]

@[simp] theorem val_sqrMag (X : List Word) : val (sqrMag X) = val X * val X := by
  rw [sqrMag_eq_words, val_words]

/-! Power. -/

theorem val_powLoop (fuel : Nat) (R P : List Word) (e : Nat) (h : e < 2 ^ fuel) :
    val (powLoop fuel R P e) = val R * val P ^ e := by
  induction fuel generalizing R P e with
  | zero =>
    have : e = 0 := by simpa using h
    subst this; simp [powLoop]
  | succ fuel ih =>
    simp only [powLoop]
    split
    · simp_all
    · rename_i he
      rw [ih _ _ _ (by rw [pow_succ] at h; omega)]
      have hR : val (if e % 2 = 1 then mulMag R P else R) = val R * val P ^ (e % 2) := by
        rcases Nat.mod_two_eq_zero_or_one e with h2 | h2 <;> simp [h2]
      rw [hR]
      split
      · rw [val_sqrMag, ← pow_two, ← pow_mul, mul_assoc, ← pow_add]
        congr 2; omega
      · have h1 : e / 2 = 0 := by omega
        have h2 : e % 2 = e := by omega
        rw [h1, h2]; simp

/-- The value of R602's result. -/
theorem val_powMag (X : List Word) (e : Nat) : val (powMag X e) = val X ^ e := by
  rw [powMag, val_powLoop _ _ _ _ (lt_two_pow_natBits e)]
  simp [val]

/-! The integer formulas of the commands. -/

theorem smul_eq (a b : Int) : smul a b = a * b := by
  unfold smul
  split
  · rename_i h; rcases h with h | h <;> simp [h]
  · rw [val_mulMag, val_words, val_words, Nat.cast_mul]
    have h1 := Int.sign_mul_natAbs a
    have h2 := Int.sign_mul_natAbs b
    calc a.sign * b.sign * ((a.natAbs : Int) * b.natAbs)
        = (a.sign * a.natAbs) * (b.sign * b.natAbs) := by ring
      _ = a * b := by rw [h1, h2]

theorem ssqr_eq (a : Int) : ssqr a = a ^ 2 := by
  unfold ssqr
  split
  · simp_all
  · rw [val_sqrMag, val_words, pow_two, Nat.cast_mul, ← Int.natAbs_mul_self' a]

theorem spow_eq (a : Int) (e : Nat) : spow a e = a ^ e := by
  unfold spow
  simp only [val_powMag, val_words, Nat.cast_pow]
  split
  · rename_i h
    have ho : Odd e := Nat.odd_iff.2 h.2
    rw [Int.ofNat_natAbs_of_nonpos (by omega), ho.neg_pow]; simp
  · rename_i h
    rcases le_or_gt 0 a with ha | ha
    · rw [Int.natAbs_of_nonneg ha]
    · have he : Even e := Nat.even_iff.2 (by omega)
      rw [Int.ofNat_natAbs_of_nonpos (by omega), he.neg_pow]

/-- Log 12: the early CAPACITY decision of POW is the rule's own. -/
theorem pow_capacity_early {a : Int} {e n : Nat} (hn : 0 < n) (h : 32 * n ≤ (natBits a.natAbs - 1) * e) :
    n < (words (a ^ e).natAbs).length := by
  rw [words_length_lt_iff, Int.natAbs_pow, wordBase_pow]
  have hb : 0 < natBits a.natAbs := by
    rcases Nat.eq_zero_or_pos (natBits a.natAbs) with hc | hc
    · rw [hc, Nat.zero_sub, Nat.zero_mul] at h; omega
    · exact hc
  have h1 : 2 ^ (natBits a.natAbs - 1) ≤ a.natAbs := two_pow_le_of_natBits (by omega)
  calc 2 ^ (32 * n) ≤ 2 ^ ((natBits a.natAbs - 1) * e) := Nat.pow_le_pow_right (by decide) h
    _ = (2 ^ (natBits a.natAbs - 1)) ^ e := by rw [pow_mul]
    _ ≤ a.natAbs ^ e := Nat.pow_le_pow_left h1 e

end Sys2Proof.Machine
end

