-- ==== Sys2Proof/Laws/ModPow.lean ====
section
/-! SUPPORT. The Montgomery unit (44_modpow.md R800 to R807): the Newton inverse is the inverse, montReduce divides by
B^n modulo m, and both exponentiation paths compute b^e mod m. -/

namespace Sys2Proof.Machine

/-! The word inverse (R800, R801). -/

theorem newtonStep_error (v t : Word) : 1 - v * newtonStep v t = (1 - v * t) * (1 - v * t) := by
  unfold newtonStep; ring

/-- The square of an odd word is 1 modulo 8. -/
theorem odd_word_sq {v : Word} (h : v.toNat % 2 = 1) : ∃ w : Word, 1 - v * v = 8 * w := by
  obtain ⟨k, hk⟩ : ∃ k, v.toNat = 2 * k + 1 := ⟨v.toNat / 2, by omega⟩
  obtain ⟨j, hj⟩ : ∃ j, k * (k + 1) = 2 * j := (Nat.even_mul_succ_self k).two_dvd
  have hv : v = (2 : Word) * ((k : Nat) : Word) + 1 := by
    apply BitVec.eq_of_toNat_eq
    rw [hk]
    have := v.isLt
    simp [BitVec.toNat_add, BitVec.toNat_mul]
    omega
  have hc : ((k : Nat) : Word) * (((k : Nat) : Word) + 1) = 2 * ((j : Nat) : Word) := by
    exact_mod_cast congrArg (fun n : Nat => (n : Word)) hj
  refine ⟨-((j : Nat) : Word), ?_⟩
  rw [hv]
  linear_combination (-4 : Word) * hc

/-- R800: for an odd word, v·inverseMod32(v) = 1 modulo 2^32. -/
theorem inverseMod32_spec {v : Word} (h : v.toNat % 2 = 1) : v * inverseMod32 v = 1 := by
  obtain ⟨w, hw⟩ := odd_word_sq h
  have h0 : (1 : Word) - v * inverseMod32 v = (8 * w) ^ 16 := by
    unfold inverseMod32
    rw [newtonStep_error, newtonStep_error, newtonStep_error, newtonStep_error, hw]
    ring
  have h8 : (8 : Word) ^ 16 = 0 := by decide
  rw [mul_pow, h8, zero_mul] at h0
  exact (sub_eq_zero.1 h0).symm

/-- R801: n'·m0 = -1 modulo 2^32. -/
theorem montWord_spec {v : Word} (h : v.toNat % 2 = 1) : montWord v * v = -1 := by
  have := inverseMod32_spec h
  unfold montWord
  linear_combination -this

/-! The Montgomery reduction (R802). -/

theorem carryLoop_spec (Z : List Word) (c : Word) (h : valLE Z + c.toNat < wordBase ^ Z.length) :
    (carryLoop Z c).length = Z.length ∧ valLE (carryLoop Z c) = valLE Z + c.toNat := by
  induction Z generalizing c with
  | nil => simp [carryLoop, valLE] at h ⊢; rw [h]
  | cons z Z ih =>
    simp only [carryLoop]
    split
    · rename_i hc; rw [hc]; exact ⟨rfl, rfl⟩
    · have hz := z.isLt
      have hc := c.isLt
      have ht : (ext z + ext c).toNat = z.toNat + c.toNat := by
        rw [BitVec.toNat_add, ext_toNat, ext_toNat]; omega
      have hb := lo_add_bit32 (p := ext z + ext c) (by omega)
      rw [ht] at hb
      rw [valLE, List.length_cons, pow_succ'] at h
      have h' : valLE Z + (carry ((ext z + ext c).getLsbD 32)).toNat < wordBase ^ Z.length := by
        rw [carry_toNat]
        by_contra hn
        have := Nat.mul_le_mul_left wordBase (Nat.le_of_not_lt hn)
        rw [Nat.mul_add] at this
        omega
      obtain ⟨i1, i2⟩ := ih _ h'
      refine ⟨by rw [List.length_cons, i1, List.length_cons], ?_⟩
      rw [valLE, i2, valLE, carry_toNat]
      linear_combination hb

theorem montRow_spec (u : Word) (ms Z : List Word) (c : Word) (hl : ms.length ≤ Z.length)
    (h : valLE Z + u.toNat * valLE ms + c.toNat < wordBase ^ Z.length) :
    (montRow u ms Z c).length = Z.length ∧
      valLE (montRow u ms Z c) = valLE Z + u.toNat * valLE ms + c.toNat := by
  induction ms generalizing Z c with
  | nil =>
    rw [valLE, Nat.mul_zero, Nat.add_zero] at h
    obtain ⟨h1, h2⟩ := carryLoop_spec Z c h
    simp only [montRow, valLE]
    exact ⟨h1, by rw [h2]; ring⟩
  | cons m ms ih =>
    cases Z with
    | nil => simp at hl
    | cons z Z =>
      have hp := mulAdd64_lo_hi u m z c
      rw [valLE, valLE, List.length_cons, pow_succ'] at h
      have h' : valLE Z + u.toNat * valLE ms + (hi (mulAdd64 u m z c)).toNat < wordBase ^ Z.length := by
        by_contra hn
        have := Nat.mul_le_mul_left wordBase (Nat.le_of_not_lt hn)
        nlinarith
      obtain ⟨i1, i2⟩ := ih Z _ (by simpa using hl) h'
      simp only [montRow]
      refine ⟨by rw [List.length_cons, i1, List.length_cons], ?_⟩
      rw [valLE, i2, valLE, valLE]
      linear_combination hp

/-- One row clears the low word. -/
theorem montRow_low {m0 n' z0 : Word} (h : n' * m0 = -1) :
    (z0.toNat + (z0 * n').toNat * m0.toNat) % wordBase = 0 := by
  have hw : z0 + (z0 * n') * m0 = 0 := by rw [mul_assoc, h]; ring
  have := congrArg BitVec.toNat hw
  rw [BitVec.toNat_add, BitVec.toNat_mul] at this
  rw [Nat.add_mod_mod] at this
  exact this

theorem montLoop_spec {m0 : Word} {ms : List Word} {n' : Word} (hn' : n' * m0 = -1) (i : Nat) (Z : List Word)
    (hl : Z.length = (ms.length + 1) + i + 1)
    (hb : valLE Z < valLE (m0 :: ms) * wordBase ^ i + valLE (m0 :: ms)) :
    valLE (montLoop (m0 :: ms) n' i Z) < 2 * valLE (m0 :: ms) ∧
      valLE (montLoop (m0 :: ms) n' i Z) * wordBase ^ i ≡ valLE Z [MOD valLE (m0 :: ms)] := by
  induction i generalizing Z with
  | zero =>
    rw [montLoop, pow_zero, Nat.mul_one]
    exact ⟨by rw [pow_zero] at hb; omega, rfl⟩
  | succ i ih =>
    obtain ⟨z0, Z', rfl⟩ : ∃ z0 Z', Z = z0 :: Z' := by
      cases Z with
      | nil => simp at hl
      | cons z Z => exact ⟨z, Z, rfl⟩
    have hB := wordBase_pos
    have hM := valLE_lt (m0 :: ms)
    rw [List.length_cons] at hM
    have hlow := montRow_low (z0 := z0) hn'
    set u := z0 * n' with hu
    set M := valLE (m0 :: ms) with hMd
    have hub := toNat_lt_base u
    have huM : u.toNat * M + M ≤ wordBase * M := by
      have := Nat.mul_le_mul_right M (Nat.succ_le_of_lt hub)
      rw [Nat.succ_mul] at this; exact this
    have hfit : valLE (z0 :: Z') + u.toNat * M + (0 : Word).toNat < wordBase ^ (z0 :: Z').length := by
      have e1 : M * wordBase ^ (i + 1) ≤ (wordBase ^ (ms.length + 1) - 1) * wordBase ^ (i + 1) :=
        Nat.mul_le_mul_right _ (by omega)
      have e2 : wordBase * M ≤ wordBase * (wordBase ^ (ms.length + 1) - 1) := Nat.mul_le_mul_left _ (by omega)
      have e3 : wordBase ^ (ms.length + 1) * wordBase ^ (i + 1) * 2 ≤ wordBase ^ (ms.length + 1) * wordBase ^ (i + 1) * wordBase :=
        Nat.mul_le_mul_left _ one_lt_wordBase
      have e4 : wordBase * wordBase ^ (ms.length + 1) ≤ wordBase ^ (ms.length + 1) * wordBase ^ (i + 1) := by
        rw [Nat.mul_comm]; apply Nat.mul_le_mul_left
        calc wordBase = wordBase ^ 1 := (pow_one _).symm
          _ ≤ _ := Nat.pow_le_pow_right hB (by omega)
      have e5 : wordBase ^ (ms.length + 1 + (i + 1) + 1) = wordBase ^ (ms.length + 1) * wordBase ^ (i + 1) * wordBase := by
        rw [pow_succ, pow_add]
      have h0 : (0 : Word).toNat = 0 := rfl
      have e6 : 0 < wordBase ^ (i + 1) := Nat.pow_pos hB
      rw [hl, e5, h0]
      rw [Nat.sub_mul, Nat.one_mul] at e1
      rw [Nat.mul_sub, Nat.mul_one] at e2
      have e7 : wordBase ^ (i + 1) ≤ wordBase ^ (ms.length + 1) * wordBase ^ (i + 1) :=
        Nat.le_mul_of_pos_left _ (Nat.pow_pos hB)
      omega
    obtain ⟨r1, r2⟩ := montRow_spec u (m0 :: ms) (z0 :: Z') 0 (by rw [hl, List.length_cons]; omega) hfit
    rw [← hMd] at r2
    obtain ⟨w, T, hrow⟩ : ∃ w T, montRow u (m0 :: ms) (z0 :: Z') 0 = w :: T := by
      cases h : montRow u (m0 :: ms) (z0 :: Z') 0 with
      | nil => rw [h] at r1; simp at r1
      | cons w T => exact ⟨w, T, rfl⟩
    have h0 : (0 : Word).toNat = 0 := rfl
    rw [hrow, h0, Nat.add_zero] at r2
    rw [hrow] at r1
    -- the low word of the row is zero
    have hw0 : w.toNat = 0 := by
      have e : valLE (z0 :: Z') + u.toNat * M =
          (z0.toNat + u.toNat * m0.toNat) + wordBase * (valLE Z' + u.toNat * valLE ms) := by
        rw [hMd, valLE, valLE]; ring
      rw [e, valLE] at r2
      have h2 := congrArg (· % wordBase) r2
      simp only [Nat.add_mul_mod_self_left, Nat.mod_eq_of_lt (toNat_lt_base w), hlow] at h2
      exact h2
    rw [valLE, hw0, Nat.zero_add] at r2
    have hstep : montLoop (m0 :: ms) n' (i + 1) (z0 :: Z') = montLoop (m0 :: ms) n' i T := by
      rw [montLoop, List.headD_cons, ← hu, hrow, List.tail_cons]
    rw [hstep]
    have hT : T.length = ms.length + 1 + i + 1 := by simp at r1 hl; omega
    have hTb : valLE T < M * wordBase ^ i + M := by
      have h1 : wordBase * valLE T < wordBase * (M * wordBase ^ i + M) := by
        rw [r2, pow_succ] at *
        have e : wordBase * (M * wordBase ^ i + M) = M * (wordBase ^ i * wordBase) + wordBase * M := by ring
        rw [e]; omega
      exact Nat.lt_of_mul_lt_mul_left h1
    obtain ⟨i1, i2⟩ := ih T hT hTb
    refine ⟨i1, ?_⟩
    have h3 : valLE (montLoop (m0 :: ms) n' i T) * wordBase ^ i * wordBase ≡ valLE T * wordBase [MOD M] :=
      Nat.ModEq.mul_right _ i2
    rw [mul_assoc, ← pow_succ, Nat.mul_comm (valLE T), r2] at h3
    refine h3.trans ?_
    unfold Nat.ModEq
    rw [Nat.add_mul_mod_self_right]

/-- R802: for an odd modulus of n words and T < M·B^n, montReduce is the residue of T·B^(-n). -/
theorem montReduce_spec {M : List Word} (hodd : (lw M 0).toNat % 2 = 1) {T : Nat} (hT : T < val M * wordBase ^ M.length) :
    montReduce T M (montWord (lw M 0)) < val M ∧
      montReduce T M (montWord (lw M 0)) * wordBase ^ M.length ≡ T [MOD val M] := by
  obtain ⟨m0, ms, hM⟩ : ∃ m0 ms, M.reverse = m0 :: ms := by
    cases h : M.reverse with
    | nil => rw [lw, h] at hodd; simp at hodd
    | cons m ms => exact ⟨m, ms, rfl⟩
  have hlw : lw M 0 = m0 := by rw [lw, hM]; rfl
  rw [hlw] at hodd ⊢
  have hlen : M.length = ms.length + 1 := by rw [← List.length_reverse, hM, List.length_cons]
  have hval : valLE (m0 :: ms) = val M := by rw [← hM, valLE_reverse]
  have hMlt := val_lt M
  have hTl : valLE (wordsLE (2 * M.length + 1) T) = T := by
    apply valLE_wordsLE_of_lt
    calc T < val M * wordBase ^ M.length := hT
      _ ≤ wordBase ^ M.length * wordBase ^ M.length := Nat.mul_le_mul_right _ hMlt.le
      _ ≤ wordBase ^ (2 * M.length + 1) := by
        rw [← pow_add]; exact Nat.pow_le_pow_right wordBase_pos (by omega)
  have := montLoop_spec (montWord_spec hodd) M.length (wordsLE (2 * M.length + 1) T)
    (ms := ms) (by rw [wordsLE_length]; omega) (by rw [hTl, hval]; omega)
  rw [hTl, hval] at this
  obtain ⟨h1, h2⟩ := this
  unfold montReduce
  simp only [hM]
  generalize valLE (montLoop (m0 :: ms) (montWord m0) M.length (wordsLE (2 * M.length + 1) T)) = Y at *
  split
  · rename_i hc
    refine ⟨by omega, ?_⟩
    obtain ⟨k, rfl⟩ : ∃ k, Y = k + val M := ⟨Y - val M, by omega⟩
    rw [Nat.add_sub_cancel]
    refine Nat.ModEq.trans ?_ h2
    unfold Nat.ModEq
    rw [Nat.add_mul, Nat.add_mul_mod_self_left]
  · exact ⟨by omega, h2⟩

/-! Exponentiation (R804 to R807). -/

theorem engineMod_eq {X : List Word} (hX : Canon X) {m : Nat} (hm : 0 < m) : engineMod X m = val X % m := by
  have hne : words m ≠ [] := by rw [ne_eq, words_eq_nil_iff]; omega
  rw [engineMod, divMag_eq hX (canon_words m), if_neg hne]
  simp

/-- The value of a modulus list, its length and its parity. -/
theorem odd_low_word {m : Nat} (h : m % 2 = 1) : (lw (words m) 0).toNat % 2 = 1 := by
  have hv : valLE (words m).reverse = m := by rw [valLE_reverse, val_words]
  rw [lw]
  cases hr : (words m).reverse with
  | nil => rw [hr] at hv; simp [valLE] at hv; omega
  | cons w ws =>
    rw [hr, valLE, wordBase_eq] at hv
    simp only [List.getD_cons_zero]
    omega

theorem lt_base_words (m : Nat) : m < wordBase ^ (words m).length := (words_length_le_iff m _).1 le_rfl

/-- R804, as mm is used: the operands are residues. -/
theorem mm_spec {m x y : Nat} (hm : m % 2 = 1) (hx : x < m) (hy : y < m) :
    mm (words m) (montWord (lw (words m) 0)) x y < m ∧
      mm (words m) (montWord (lw (words m) 0)) x y * wordBase ^ (words m).length ≡ x * y [MOD m] := by
  have hT : val (mulMag (words x) (words y)) < val (words m) * wordBase ^ (words m).length := by
    rw [val_mulMag, val_words, val_words, val_words]
    exact Nat.mul_lt_mul'' hx (hy.trans (lt_base_words m))
  have h := montReduce_spec (odd_low_word hm) hT
  rw [val_mulMag, val_words, val_words, val_words] at h
  rw [mm, val_mulMag, val_words, val_words]
  exact h

theorem msq_spec {m x : Nat} (hm : m % 2 = 1) (hx : x < m) :
    msq (words m) (montWord (lw (words m) 0)) x < m ∧
      msq (words m) (montWord (lw (words m) 0)) x * wordBase ^ (words m).length ≡ x * x [MOD m] := by
  have h := mm_spec hm hx hx
  rw [mm, val_mulMag] at h
  rw [msq, val_sqrMag]
  exact h

theorem odd_coprime_base {m : Nat} (hm : m % 2 = 1) (n : Nat) : Nat.gcd m (wordBase ^ n) = 1 := by
  rw [wordBase_pow]
  exact Nat.Coprime.pow_right _ ((Nat.coprime_two_right).2 (Nat.odd_iff.2 hm))

/-- The bits of e below i + 1, by its bit i. -/
theorem mod_two_pow_testBit (e i : Nat) : e % 2 ^ (i + 1) = (if e.testBit i then 2 ^ i else 0) + e % 2 ^ i := by
  rw [pow_succ, Nat.mod_mul, Nat.testBit_eq_decide_div_mod_eq]
  have : e / 2 ^ i % 2 < 2 := Nat.mod_lt _ (by decide)
  split
  · rename_i h
    simp only [decide_eq_true_eq] at h
    rw [h]; ring
  · rename_i h
    simp only [decide_eq_true_eq] at h
    rw [show e / 2 ^ i % 2 = 0 by omega]; ring

/-- The loop of R805 in Montgomery form. -/
theorem montPow_spec {m b bm e : Nat} (hm : m % 2 = 1) (hbm : bm < m)
    (hbmR : bm ≡ b * wordBase ^ (words m).length [MOD m]) (i g acc : Nat) (hacc : acc < m)
    (haccR : acc ≡ g * wordBase ^ (words m).length [MOD m]) :
    montPow (words m) (montWord (lw (words m) 0)) bm e i acc < m ∧
      montPow (words m) (montWord (lw (words m) 0)) bm e i acc ≡
        g ^ (2 ^ i) * b ^ (e % 2 ^ i) * wordBase ^ (words m).length [MOD m] := by
  set R := wordBase ^ (words m).length with hR
  have hg := odd_coprime_base hm (words m).length
  rw [← hR] at hg
  induction i generalizing g acc with
  | zero => simpa [montPow, Nat.mod_one] using ⟨hacc, haccR⟩
  | succ i ih =>
    rw [montPow]
    obtain ⟨s1, s2⟩ := msq_spec hm hacc
    rw [← hR] at s2
    set a := msq (words m) (montWord (lw (words m) 0)) acc with ha
    have haR : a ≡ g * g * R [MOD m] := by
      apply Nat.ModEq.cancel_right_of_coprime hg
      refine s2.trans ((haccR.mul haccR).trans ?_)
      rw [show g * R * (g * R) = g * g * R * R by ring]
    rw [mod_two_pow_testBit]
    split
    · obtain ⟨p1, p2⟩ := mm_spec hm s1 hbm
      rw [← hR] at p2
      have hpR : mm (words m) (montWord (lw (words m) 0)) a bm ≡ g * g * b * R [MOD m] := by
        apply Nat.ModEq.cancel_right_of_coprime hg
        refine p2.trans ((haR.mul hbmR).trans ?_)
        rw [show g * g * R * (b * R) = g * g * b * R * R by ring]
      obtain ⟨i1, i2⟩ := ih _ _ p1 hpR
      refine ⟨i1, i2.trans ?_⟩
      rw [show (g * g * b) ^ 2 ^ i * b ^ (e % 2 ^ i) * R = g ^ 2 ^ (i + 1) * b ^ (2 ^ i + e % 2 ^ i) * R by
        rw [pow_succ 2 i, pow_mul', pow_add, mul_pow, pow_two]; ring]
    · obtain ⟨i1, i2⟩ := ih _ _ s1 haR
      refine ⟨i1, i2.trans ?_⟩
      rw [show (g * g) ^ 2 ^ i * b ^ (e % 2 ^ i) * R = g ^ 2 ^ (i + 1) * b ^ (0 + e % 2 ^ i) * R by
        rw [pow_succ 2 i, pow_mul', Nat.zero_add, pow_two]]

/-- R805. -/
theorem oddModPow_eq {b e m : Nat} (hm : m % 2 = 1) : oddModPow b e m = b ^ e % m := by
  have hm0 : 0 < m := by omega
  set R := wordBase ^ (words m).length with hR
  have hg := odd_coprime_base hm (words m).length
  rw [← hR] at hg
  rw [oddModPow]
  simp only [← hR]
  rw [engineMod_eq (canon_words _) hm0, engineMod_eq (canon_words _) hm0, val_words, val_words]
  obtain ⟨p1, p2⟩ := montPow_spec (b := b) (e := e) hm (Nat.mod_lt (b * R) hm0) (Nat.mod_modEq _ _) (natBits e) 1 (R % m)
    (Nat.mod_lt _ hm0) (by rw [Nat.one_mul]; exact Nat.mod_modEq _ _)
  rw [← hR, one_pow, Nat.one_mul, Nat.mod_eq_of_lt (lt_two_pow_natBits e)] at p2
  set acc := montPow (words m) (montWord (lw (words m) 0)) (b * R % m) e (natBits e) (R % m)
  have hT : acc < val (words m) * wordBase ^ (words m).length := by
    rw [val_words]
    exact p1.trans_le (Nat.le_mul_of_pos_right _ (Nat.pow_pos wordBase_pos))
  obtain ⟨q1, q2⟩ := montReduce_spec (odd_low_word hm) hT
  rw [val_words] at q1 q2
  rw [← hR] at q2
  have h := Nat.ModEq.cancel_right_of_coprime hg (q2.trans p2)
  unfold Nat.ModEq at h
  rwa [Nat.mod_eq_of_lt q1] at h

/-- The loop of R806. -/
theorem genLoop_spec {m : Nat} (hm : 0 < m) (fuel r p e : Nat) (h : e < 2 ^ fuel) (hr : r < m) :
    genLoop m fuel r p e = r * p ^ e % m := by
  induction fuel generalizing r p e with
  | zero =>
    have : e = 0 := by simpa using h
    subst this
    simp [genLoop, Nat.mod_eq_of_lt hr]
  | succ fuel ih =>
    simp only [genLoop]
    split
    · rename_i he; subst he; simp [Nat.mod_eq_of_lt hr]
    · rename_i he
      have he2 : e / 2 < 2 ^ fuel := by rw [pow_succ] at h; omega
      have hc1 : Canon (mulMag (words r) (words p)) := by rw [mulMag_eq_words]; exact canon_words _
      have hc2 : Canon (sqrMag (words p)) := by rw [sqrMag_eq_words]; exact canon_words _
      rw [engineMod_eq hc1 hm, engineMod_eq hc2 hm, val_mulMag, val_sqrMag, val_words, val_words]
      have hr' : (if e % 2 = 1 then r * p % m else r) < m := by
        split
        · exact Nat.mod_lt _ hm
        · exact hr
      rw [ih _ _ _ he2 hr']
      have hp : (if 0 < e / 2 then p * p % m else p) ^ (e / 2) ≡ (p * p) ^ (e / 2) [MOD m] := by
        split
        · exact Nat.ModEq.pow _ (Nat.mod_modEq _ _)
        · rename_i h0; rw [show e / 2 = 0 by omega, pow_zero, pow_zero]
      have hrr : (if e % 2 = 1 then r * p % m else r) ≡ r * p ^ (e % 2) [MOD m] := by
        split
        · rename_i h1; rw [h1, pow_one]; exact Nat.mod_modEq _ _
        · rename_i h1; rw [show e % 2 = 0 by omega, pow_zero, Nat.mul_one]
      refine (hrr.mul hp).trans ?_
      rw [← pow_two, ← pow_mul, mul_assoc, ← pow_add, Nat.mod_add_div]

/-- R806. -/
theorem genModPow_eq {b e m : Nat} (hm : 1 < m) : genModPow b e m = b ^ e % m := by
  rw [genModPow, genLoop_spec (by omega) _ _ _ _ (lt_two_pow_natBits e) hm, Nat.one_mul]

/-- A truncated remainder made non-negative is the residue (R715). -/
theorem tmod_residue {a m : Int} (hm : 0 < m) : (if a.tmod m < 0 then a.tmod m + m else a.tmod m) = a % m := by
  have h1 := Int.tmod_lt_of_pos a hm
  have h2 := Int.lt_tmod_of_pos a hm
  have h3 : a.tmod m % m = a % m := by
    have := Int.mul_tdiv_add_tmod a m
    conv_rhs => rw [← this]
    rw [Int.add_comm, Int.add_mul_emod_self_left]
  split
  · rename_i h
    rw [← h3, ← Int.add_emod_right, Int.emod_eq_of_lt (by omega) (by omega)]
  · rename_i h
    rw [← h3, Int.emod_eq_of_lt (by omega) h1]

theorem residue_eq {a m : Int} (hm : 0 < m) : residue a m = a % m := by
  rw [residue, sdiv_eq, if_neg (by omega)]
  exact tmod_residue hm

/-- R807: both paths give the non-negative residue of b^e. -/
theorem modpow_value {b m : Int} {e : Nat} (hm : 0 < m) :
    ((if m.toNat % 2 = 1 then oddModPow (residue b m).toNat e m.toNat
      else genModPow (residue b m).toNat e m.toNat : Nat) : Int) = b ^ e % m := by
  have h1 : (if m.toNat % 2 = 1 then oddModPow (residue b m).toNat e m.toNat
      else genModPow (residue b m).toNat e m.toNat) = (residue b m).toNat ^ e % m.toNat := by
    split
    · rename_i h; exact oddModPow_eq h
    · exact genModPow_eq (by omega)
  rw [h1, residue_eq hm]
  have hb : 0 ≤ b % m := Int.emod_nonneg _ (by omega)
  rw [Int.natCast_emod, Nat.cast_pow, Int.toNat_of_nonneg hb, Int.toNat_of_nonneg hm.le]
  exact ((Int.mod_modEq b m).pow e)

end Sys2Proof.Machine
end

