-- ==== Sys2Proof/Laws/State.lean ====
section
/-! SUPPORT. One lemma per field per update of State and of STATUS, the small laws of registers, and one inversion lemma per
shared completion. -/

namespace Sys2Proof.Machine

/-! State.setX. -/

@[simp] theorem State.setX_cfg (s : State) (r : Reg) (v : Int) : (s.setX r v).cfg = s.cfg := rfl
@[simp] theorem State.setX_rstN (s : State) (r : Reg) (v : Int) : (s.setX r v).rstN = s.rstN := rfl
@[simp] theorem State.setX_x (s : State) (r : Reg) (v : Int) : (s.setX r v).x = s.x.set r (BigReg.ofInt v) := rfl
@[simp] theorem State.setX_om (s : State) (r : Reg) (v : Int) : (s.setX r v).om = s.om := rfl
@[simp] theorem State.setX_cl (s : State) (r : Reg) (v : Int) : (s.setX r v).cl = s.cl := rfl
@[simp] theorem State.setX_ie (s : State) (r : Reg) (v : Int) : (s.setX r v).ie = s.ie := rfl
@[simp] theorem State.setX_status (s : State) (r : Reg) (v : Int) : (s.setX r v).status = s.status := rfl
@[simp] theorem State.setX_lasterr (s : State) (r : Reg) (v : Int) : (s.setX r v).lasterr = s.lasterr := rfl
@[simp] theorem State.setX_res (s : State) (r : Reg) (v : Int) : (s.setX r v).res = s.res := rfl
@[simp] theorem State.setX_cmdLo (s : State) (r : Reg) (v : Int) : (s.setX r v).cmdLo = s.cmdLo := rfl
@[simp] theorem State.setX_cmdHi (s : State) (r : Reg) (v : Int) : (s.setX r v).cmdHi = s.cmdHi := rfl
@[simp] theorem State.setX_response (s : State) (r : Reg) (v : Int) : (s.setX r v).response = s.response := rfl
@[simp] theorem State.setX_agenda (s : State) (r : Reg) (v : Int) : (s.setX r v).agenda = s.agenda := rfl

/-! State.commit. -/

@[simp] theorem State.commit_cfg (s : State) : (s.commit).cfg = s.cfg := rfl
@[simp] theorem State.commit_rstN (s : State) : (s.commit).rstN = s.rstN := rfl
@[simp] theorem State.commit_x (s : State) : (s.commit).x = s.x := rfl
@[simp] theorem State.commit_om (s : State) : (s.commit).om = s.om := rfl
@[simp] theorem State.commit_cl (s : State) : (s.commit).cl = s.cl := rfl
@[simp] theorem State.commit_ie (s : State) : (s.commit).ie = s.ie := rfl
@[simp] theorem State.commit_status (s : State) : (s.commit).status = s.status.complete false := rfl
@[simp] theorem State.commit_lasterr (s : State) : (s.commit).lasterr = ⟨0, Field.op s.cl, 0⟩ := rfl
@[simp] theorem State.commit_res (s : State) : (s.commit).res = s.res := rfl
@[simp] theorem State.commit_cmdLo (s : State) : (s.commit).cmdLo = s.cmdLo := rfl
@[simp] theorem State.commit_cmdHi (s : State) : (s.commit).cmdHi = s.cmdHi := rfl
@[simp] theorem State.commit_response (s : State) : (s.commit).response = s.response := rfl
@[simp] theorem State.commit_agenda (s : State) : (s.commit).agenda = s.agenda := rfl

/-! State.raise. -/

@[simp] theorem State.raise_cfg (s : State) (e : CmdError) : (s.raise e).cfg = s.cfg := rfl
@[simp] theorem State.raise_rstN (s : State) (e : CmdError) : (s.raise e).rstN = s.rstN := rfl
@[simp] theorem State.raise_x (s : State) (e : CmdError) : (s.raise e).x = s.x := rfl
@[simp] theorem State.raise_om (s : State) (e : CmdError) : (s.raise e).om = s.om := rfl
@[simp] theorem State.raise_cl (s : State) (e : CmdError) : (s.raise e).cl = s.cl := rfl
@[simp] theorem State.raise_ie (s : State) (e : CmdError) : (s.raise e).ie = s.ie := rfl
@[simp] theorem State.raise_status (s : State) (e : CmdError) : (s.raise e).status = s.status.complete true := rfl
@[simp] theorem State.raise_lasterr (s : State) (e : CmdError) : (s.raise e).lasterr = ⟨e.sub, Field.op s.cl, e.code⟩ := rfl
@[simp] theorem State.raise_res (s : State) (e : CmdError) : (s.raise e).res = s.res := rfl
@[simp] theorem State.raise_cmdLo (s : State) (e : CmdError) : (s.raise e).cmdLo = s.cmdLo := rfl
@[simp] theorem State.raise_cmdHi (s : State) (e : CmdError) : (s.raise e).cmdHi = s.cmdHi := rfl
@[simp] theorem State.raise_response (s : State) (e : CmdError) : (s.raise e).response = s.response := rfl
@[simp] theorem State.raise_agenda (s : State) (e : CmdError) : (s.raise e).agenda = s.agenda := rfl

/-! State.issue. -/

@[simp] theorem State.issue_cfg (s : State) (hi : Word) : (s.issue hi).cfg = s.cfg := rfl
@[simp] theorem State.issue_rstN (s : State) (hi : Word) : (s.issue hi).rstN = s.rstN := rfl
@[simp] theorem State.issue_x (s : State) (hi : Word) : (s.issue hi).x = s.x := rfl
@[simp] theorem State.issue_om (s : State) (hi : Word) : (s.issue hi).om = s.om := rfl
@[simp] theorem State.issue_cl (s : State) (hi : Word) : (s.issue hi).cl = hi ++ s.cmdLo := rfl
@[simp] theorem State.issue_ie (s : State) (hi : Word) : (s.issue hi).ie = s.ie := rfl
@[simp] theorem State.issue_status (s : State) (hi : Word) : (s.issue hi).status = s.status.issue := rfl
@[simp] theorem State.issue_lasterr (s : State) (hi : Word) : (s.issue hi).lasterr = s.lasterr := rfl
@[simp] theorem State.issue_res (s : State) (hi : Word) : (s.issue hi).res = s.res := rfl
@[simp] theorem State.issue_cmdLo (s : State) (hi : Word) : (s.issue hi).cmdLo = s.cmdLo := rfl
@[simp] theorem State.issue_cmdHi (s : State) (hi : Word) : (s.issue hi).cmdHi = hi := rfl
@[simp] theorem State.issue_response (s : State) (hi : Word) : (s.issue hi).response = s.response := rfl
@[simp] theorem State.issue_agenda (s : State) (hi : Word) : (s.issue hi).agenda = s.agenda := rfl

/-! State.softReset. -/

@[simp] theorem State.softReset_cfg (s : State) : (s.softReset).cfg = s.cfg := rfl
@[simp] theorem State.softReset_rstN (s : State) : (s.softReset).rstN = s.rstN := rfl
@[simp] theorem State.softReset_x (s : State) : (s.softReset).x = Vector.replicate 16 BigReg.zero := rfl
@[simp] theorem State.softReset_om (s : State) : (s.softReset).om = s.om := rfl
@[simp] theorem State.softReset_cl (s : State) : (s.softReset).cl = 0 := rfl
@[simp] theorem State.softReset_ie (s : State) : (s.softReset).ie = false := rfl
@[simp] theorem State.softReset_status (s : State) : (s.softReset).status = Status.zero := rfl
@[simp] theorem State.softReset_lasterr (s : State) : (s.softReset).lasterr = LastErr.zero := rfl
@[simp] theorem State.softReset_res (s : State) : (s.softReset).res = 0 := rfl
@[simp] theorem State.softReset_cmdLo (s : State) : (s.softReset).cmdLo = 0 := rfl
@[simp] theorem State.softReset_cmdHi (s : State) : (s.softReset).cmdHi = 0 := rfl
@[simp] theorem State.softReset_response (s : State) : (s.softReset).response = s.response := rfl
@[simp] theorem State.softReset_agenda (s : State) : (s.softReset).agenda = s.agenda := rfl

/-! State.powerDown. -/

@[simp] theorem State.powerDown_cfg (s : State) : (s.powerDown).cfg = s.cfg := rfl
@[simp] theorem State.powerDown_rstN (s : State) : (s.powerDown).rstN = false := rfl
@[simp] theorem State.powerDown_x (s : State) : (s.powerDown).x = Vector.replicate 16 BigReg.zero := rfl
@[simp] theorem State.powerDown_om (s : State) : (s.powerDown).om = s.om := rfl
@[simp] theorem State.powerDown_cl (s : State) : (s.powerDown).cl = 0 := rfl
@[simp] theorem State.powerDown_ie (s : State) : (s.powerDown).ie = false := rfl
@[simp] theorem State.powerDown_status (s : State) : (s.powerDown).status = Status.zero := rfl
@[simp] theorem State.powerDown_lasterr (s : State) : (s.powerDown).lasterr = LastErr.zero := rfl
@[simp] theorem State.powerDown_res (s : State) : (s.powerDown).res = 0 := rfl
@[simp] theorem State.powerDown_cmdLo (s : State) : (s.powerDown).cmdLo = 0 := rfl
@[simp] theorem State.powerDown_cmdHi (s : State) : (s.powerDown).cmdHi = 0 := rfl
@[simp] theorem State.powerDown_response (s : State) : (s.powerDown).response = s.response := rfl
@[simp] theorem State.powerDown_agenda (s : State) : (s.powerDown).agenda = s.agenda := rfl

/-! State.powerOn. -/

@[simp] theorem State.powerOn_cfg (s : State) (m : List (Nat × Word)) : (s.powerOn m).cfg = s.cfg := rfl
@[simp] theorem State.powerOn_rstN (s : State) (m : List (Nat × Word)) : (s.powerOn m).rstN = true := rfl
@[simp] theorem State.powerOn_x (s : State) (m : List (Nat × Word)) : (s.powerOn m).x = Vector.replicate 16 BigReg.zero := rfl
@[simp] theorem State.powerOn_om (s : State) (m : List (Nat × Word)) : (s.powerOn m).om = Memory.ofContents s.cfg.omw m := rfl
@[simp] theorem State.powerOn_cl (s : State) (m : List (Nat × Word)) : (s.powerOn m).cl = 0 := rfl
@[simp] theorem State.powerOn_ie (s : State) (m : List (Nat × Word)) : (s.powerOn m).ie = false := rfl
@[simp] theorem State.powerOn_status (s : State) (m : List (Nat × Word)) : (s.powerOn m).status = Status.zero := rfl
@[simp] theorem State.powerOn_lasterr (s : State) (m : List (Nat × Word)) : (s.powerOn m).lasterr = LastErr.zero := rfl
@[simp] theorem State.powerOn_res (s : State) (m : List (Nat × Word)) : (s.powerOn m).res = 0 := rfl
@[simp] theorem State.powerOn_cmdLo (s : State) (m : List (Nat × Word)) : (s.powerOn m).cmdLo = 0 := rfl
@[simp] theorem State.powerOn_cmdHi (s : State) (m : List (Nat × Word)) : (s.powerOn m).cmdHi = 0 := rfl
@[simp] theorem State.powerOn_response (s : State) (m : List (Nat × Word)) : (s.powerOn m).response = s.response := rfl
@[simp] theorem State.powerOn_agenda (s : State) (m : List (Nat × Word)) : (s.powerOn m).agenda = s.agenda := rfl

/-! Status.issue. -/

@[simp] theorem Status.issue_busy (st : Status) : st.issue.busy = true := rfl
@[simp] theorem Status.issue_done (st : Status) : st.issue.done = false := rfl
@[simp] theorem Status.issue_err (st : Status) : st.issue.err = st.err := rfl
@[simp] theorem Status.issue_ovr (st : Status) : st.issue.ovr = st.ovr := rfl
@[simp] theorem Status.issue_herr (st : Status) : st.issue.herr = st.herr := rfl

/-! Status.complete. -/

@[simp] theorem Status.complete_busy (st : Status) (e : Bool) : (st.complete e).busy = false := rfl
@[simp] theorem Status.complete_done (st : Status) (e : Bool) : (st.complete e).done = true := by
  simp [Status.complete, rw1c]
@[simp] theorem Status.complete_err (st : Status) (e : Bool) : (st.complete e).err = (e || st.err) := by
  simp [Status.complete, rw1c]
@[simp] theorem Status.complete_ovr (st : Status) (e : Bool) : (st.complete e).ovr = st.ovr := rfl
@[simp] theorem Status.complete_herr (st : Status) (e : Bool) : (st.complete e).herr = st.herr := rfl

/-! Status.refuse. -/

@[simp] theorem Status.refuse_busy (st : Status) : st.refuse.busy = st.busy := rfl
@[simp] theorem Status.refuse_done (st : Status) : st.refuse.done = st.done := rfl
@[simp] theorem Status.refuse_err (st : Status) : st.refuse.err = st.err := rfl
@[simp] theorem Status.refuse_ovr (st : Status) : st.refuse.ovr = true := by
  simp [Status.refuse, rw1c]
@[simp] theorem Status.refuse_herr (st : Status) : st.refuse.herr = st.herr := rfl

/-! Status.illegalAccess. -/

@[simp] theorem Status.illegalAccess_busy (st : Status) : st.illegalAccess.busy = st.busy := rfl
@[simp] theorem Status.illegalAccess_done (st : Status) : st.illegalAccess.done = st.done := rfl
@[simp] theorem Status.illegalAccess_err (st : Status) : st.illegalAccess.err = st.err := rfl
@[simp] theorem Status.illegalAccess_ovr (st : Status) : st.illegalAccess.ovr = st.ovr := rfl
@[simp] theorem Status.illegalAccess_herr (st : Status) : st.illegalAccess.herr = true := by
  simp [Status.illegalAccess, rw1c]

/-! Status.write. -/

@[simp] theorem Status.write_busy (st : Status) (d : Word) : (st.write d).busy = st.busy := rfl
@[simp] theorem Status.write_done (st : Status) (d : Word) : (st.write d).done = (st.done && !d.getLsbD 1) := by
  simp [Status.write, rw1c]
@[simp] theorem Status.write_err (st : Status) (d : Word) : (st.write d).err = (st.err && !d.getLsbD 2) := by
  simp [Status.write, rw1c]
@[simp] theorem Status.write_ovr (st : Status) (d : Word) : (st.write d).ovr = (st.ovr && !d.getLsbD 3) := by
  simp [Status.write, rw1c]
@[simp] theorem Status.write_herr (st : Status) (d : Word) : (st.write d).herr = (st.herr && !d.getLsbD 4) := by
  simp [Status.write, rw1c]

/-! Big registers (10_state.md R101, R102). -/

theorem Sign.toInt_of (v : Int) : (Sign.of v).toInt = v.sign := by
  unfold Sign.of
  split
  · rename_i h; rw [Int.sign_eq_neg_one_of_neg h]; rfl
  · split
    · rename_i h; subst h; rfl
    · rename_i h1 h2; rw [Int.sign_eq_one_of_pos (by omega)]; rfl

theorem Sign.of_eq_zero_iff (v : Int) : Sign.of v = .zero ↔ v = 0 := by
  unfold Sign.of
  split
  · rename_i h; constructor
    · intro hc; cases hc
    · rintro rfl; omega
  · split
    · rename_i h; simp [h]
    · rename_i h; constructor
      · intro hc; cases hc
      · intro hc; exact absurd hc h

/-- R101, R102: what is stored is what is read. -/
@[simp] theorem BigReg.toInt_ofInt (v : Int) : (BigReg.ofInt v).toInt = v := by
  rw [BigReg.toInt, BigReg.ofInt, Sign.toInt_of, val_words, Int.sign_mul_natAbs]

@[simp] theorem BigReg.toInt_zero : BigReg.zero.toInt = 0 := rfl

@[simp] theorem BigReg.ofInt_zero : BigReg.ofInt 0 = BigReg.zero := by decide

/-- R101: a stored value is canonical; it fits n words exactly when |v| < B^n. -/
theorem BigReg.ofInt_form (v : Int) : ((BigReg.ofInt v).sign = .zero ↔ (BigReg.ofInt v).mag = []) ∧
    (BigReg.ofInt v).mag.head? ≠ some 0 := by
  refine ⟨?_, canon_words _⟩
  rw [BigReg.ofInt, Sign.of_eq_zero_iff, words_eq_nil_iff]
  omega

theorem State.xv_setX (s : State) (r q : Reg) (v : Int) : (s.setX r v).xv q = if q = r then v else s.xv q := by
  rw [State.xv, State.xv, State.setX_x]
  by_cases h : q = r
  · subst h; rw [if_pos rfl]; simp [Vector.get_eq_getElem]
  · have h2 : ¬ r.val = q.val := fun hc => h (Fin.ext hc.symm)
    rw [if_neg h]; simp [Vector.get_eq_getElem, h2]

theorem State.get_setX (s : State) (r q : Reg) (v : Int) :
    (s.setX r v).x.get q = if q = r then BigReg.ofInt v else s.x.get q := by
  rw [State.setX_x]
  by_cases h : q = r
  · subst h; rw [if_pos rfl]; simp [Vector.get_eq_getElem]
  · have h2 : ¬ r.val = q.val := fun hc => h (Fin.ext hc.symm)
    rw [if_neg h]; simp [Vector.get_eq_getElem, h2]

/-! The shared completions: everything each can answer. -/

theorem State.commitBounded_eq (s : State) (rd : Reg) (v : Int) :
    s.commitBounded rd v =
      .next (if wordBase ^ s.cfg.maxw ≤ v.natAbs then s.raise .capacity else (s.setX rd v).commit) := by
  rw [State.commitBounded]
  by_cases h : wordBase ^ s.cfg.maxw ≤ v.natAbs
  · rw [if_pos ((words_length_lt_iff _ _).2 h), if_pos h]; rfl
  · rw [if_neg (fun hc => h ((words_length_lt_iff _ _).1 hc)), if_neg h]; rfl

theorem State.commitStore_eq (s : State) (a : Nat) (X : List Word) :
    s.commitStore a X =
      .next (if s.cfg.omw < a + X.length then s.raise .omRange
        else ({ s with om := Memory.write s.om a X, res := resWord X.length } : State).commit) := by
  rw [State.commitStore]
  split
  · rfl
  · rfl

end Sys2Proof.Machine
end

