-- ==== Sys2Proof/Laws/Exec.lean ====
section
/-! SUPPORT. The commands over the integers: each datapath computation replaced by the integer it computes, and one
inversion lemma that says everything a command can do to the state. -/

namespace Sys2Proof.Machine

/-! The integer each command commits. -/

theorem execAdd_eq (rd rs1 rs2 : Reg) (s : State) :
    execAdd rd rs1 rs2 s = s.commitBounded rd (s.xv rs1 + s.xv rs2) := by rw [execAdd, sadd_eq]

theorem execSub_eq (rd rs1 rs2 : Reg) (s : State) :
    execSub rd rs1 rs2 s = s.commitBounded rd (s.xv rs1 - s.xv rs2) := by
  rw [execSub, sadd_eq, Int.sub_eq_add_neg]

theorem execMul_eq (rd rs1 rs2 : Reg) (s : State) :
    execMul rd rs1 rs2 s = s.commitBounded rd (s.xv rs1 * s.xv rs2) := by rw [execMul, smul_eq]

theorem execSqr_eq (rd rs1 : Reg) (s : State) :
    execSqr rd rs1 s = s.commitBounded rd (s.xv rs1 ^ 2) := by rw [execSqr, ssqr_eq]

theorem execPow_eq (rd rs1 : Reg) (imm : BitVec 32) (s : State) (h : 0 < s.cfg.maxw) :
    execPow rd rs1 imm s = if simm imm < 0 then s.err .domainExponent
      else s.commitBounded rd (s.xv rs1 ^ (simm imm).toNat) := by
  unfold execPow
  split
  · rfl
  · split
    · rename_i hc
      rw [State.commitBounded, if_pos (pow_capacity_early h hc)]
    · rw [spow_eq]

theorem execDiv_eq (rd rs1 rs2 : Reg) (s : State) :
    execDiv rd rs1 rs2 s = if s.xv rs2 = 0 then s.err .domainDivisor
      else s.commitX rd ((s.xv rs1).tdiv (s.xv rs2)) := by
  rw [execDiv, sdiv_eq]
  by_cases h : s.xv rs2 = 0
  · rw [if_pos h, if_pos h]
  · rw [if_neg h, if_neg h]

theorem execRem_eq (rd rs1 rs2 : Reg) (s : State) :
    execRem rd rs1 rs2 s = if s.xv rs2 = 0 then s.err .domainDivisor
      else s.commitX rd ((s.xv rs1).tmod (s.xv rs2)) := by
  rw [execRem, sdiv_eq]
  by_cases h : s.xv rs2 = 0
  · rw [if_pos h, if_pos h]
  · rw [if_neg h, if_neg h]

theorem execDivrem_eq (rd rd2 rs1 rs2 : Reg) (s : State) :
    execDivrem rd rd2 rs1 rs2 s = if s.xv rs2 = 0 then s.err .domainDivisor
      else .next ((s.setX rd ((s.xv rs1).tdiv (s.xv rs2))).setX rd2 ((s.xv rs1).tmod (s.xv rs2))).commit := by
  rw [execDivrem, sdiv_eq]
  by_cases h : s.xv rs2 = 0
  · rw [if_pos h, if_pos h]
  · rw [if_neg h, if_neg h]

theorem execMod_eq (rd rs1 rs2 : Reg) (s : State) :
    execMod rd rs1 rs2 s = if s.xv rs2 ≤ 0 then s.err .domainModulus
      else s.commitX rd (s.xv rs1 % s.xv rs2) := by
  unfold execMod
  split
  · rfl
  · rename_i h
    rw [sdiv_eq, if_neg (by omega)]
    simp only
    rw [tmod_residue (by omega)]

theorem execModpow_eq (rd rs1 rs2 rs3 : Reg) (s : State) :
    execModpow rd rs1 rs2 rs3 s = if s.xv rs3 ≤ 0 then s.err .domainModulus
      else if s.xv rs2 < 0 then s.err .domainExponent
      else s.commitX rd (s.xv rs1 ^ (s.xv rs2).toNat % s.xv rs3) := by
  unfold execModpow
  split
  · rfl
  · split
    · rfl
    · rename_i h _
      simp only
      rw [modpow_value (by omega)]

theorem execAnd_eq (rd rs1 rs2 : Reg) (s : State) :
    execAnd rd rs1 rs2 s = s.commitBounded rd ((s.xv rs1).land (s.xv rs2)) := by rw [execAnd, bitwise_and]

theorem execOr_eq (rd rs1 rs2 : Reg) (s : State) :
    execOr rd rs1 rs2 s = s.commitBounded rd ((s.xv rs1).lor (s.xv rs2)) := by rw [execOr, bitwise_or]

theorem execXor_eq (rd rs1 rs2 : Reg) (s : State) :
    execXor rd rs1 rs2 s = s.commitBounded rd ((s.xv rs1).xor (s.xv rs2)) := by rw [execXor, bitwise_xor]

theorem execAndnot_eq (rd rs1 rs2 : Reg) (s : State) :
    execAndnot rd rs1 rs2 s = s.commitBounded rd ((s.xv rs1).ldiff (s.xv rs2)) := by
  rw [execAndnot, bitwise_andnot]

theorem execNot_eq (rd rs1 : Reg) (s : State) :
    execNot rd rs1 s = s.commitBounded rd (-s.xv rs1 - 1) := by rw [execNot, tcNot_eq]

/-- A bit index past the sign: clearing it leaves a ≥ 0 alone and takes 2^i from a < 0. -/
theorem ldiff_two_pow_high {a : Int} {i : Nat} (h : bitlen a ≤ i) :
    a.ldiff (2 ^ i) = if 0 ≤ a then a else a - 2 ^ i := by
  have hp : (2 ^ i : Int) = Int.ofNat (2 ^ i) := by rw [Int.ofNat_eq_natCast]; push_cast; rfl
  cases a with
  | ofNat n =>
    have hn : n < 2 ^ i := (natBits_le_iff _ _).1 h
    rw [if_pos (by simp), hp, Int.ldiff]
    congr 1
    apply Nat.eq_of_testBit_eq
    intro j
    rw [Nat.testBit_ldiff, Nat.testBit_two_pow]
    by_cases hj : i = j
    · subst hj; rw [Nat.testBit_lt_two_pow hn]; rfl
    · simp [hj]
  | negSucc n =>
    have hn : n < 2 ^ i := (natBits_le_iff _ _).1 h
    rw [if_neg (by have := Int.negSucc_lt_zero n; omega), hp, Int.ldiff]
    have ho : n ||| 2 ^ i = n + 2 ^ i := by
      have := Nat.shiftLeft_add_eq_or_of_lt hn 1
      rw [Nat.one_shiftLeft] at this
      rw [Nat.or_comm, ← this, Nat.add_comm]
    rw [ho, Int.negSucc_eq, Int.negSucc_eq, Int.ofNat_eq_natCast]
    push_cast
    ring

theorem execClrbit_eq (rd rs1 : Reg) (imm : BitVec 32) (s : State) :
    execClrbit rd rs1 imm s = if simm imm < 0 then s.err .domainBitIndex
      else s.commitBounded rd ((s.xv rs1).ldiff (2 ^ (simm imm).toNat)) := by
  unfold execClrbit
  split
  · rfl
  · simp only
    have hl := bitlen_lt_tcLen (s.xv rs1)
    split
    · rename_i h
      rw [ldiff_two_pow_high (by omega), if_pos h.2]
    · split
      · rename_i h1 h2
        have hneg : ¬ 0 ≤ s.xv rs1 := fun hc => h1 ⟨h2.1, hc⟩
        rw [ldiff_two_pow_high (by omega), if_neg hneg, State.commitBounded, if_pos]
        rw [words_length_lt_iff, wordBase_pow]
        have h3 : 2 ^ (32 * s.cfg.maxw) ≤ 2 ^ (simm imm).toNat := Nat.pow_le_pow_right (by decide) h2.2
        have hp : ((2 ^ (simm imm).toNat : Nat) : Int) = 2 ^ (simm imm).toNat := by push_cast; rfl
        omega
      · rw [tcClrbit_eq]

theorem commitShl_eq (s : State) (rd : Reg) (a : Int) (n : Nat) : s.commitShl rd a n = s.commitBounded rd (a * 2 ^ n) := by
  rw [State.commitShl, State.commitBounded, sshl_eq]
  by_cases ha : a = 0
  · subst ha; simp
  · by_cases hc : 32 * s.cfg.maxw < natBits a.natAbs + n
    · rw [if_pos ⟨ha, hc⟩, if_pos ((shl_capacity_iff ha n s.cfg.maxw).1 hc)]
    · rw [if_neg (fun h => hc h.2), if_neg (fun h => hc ((shl_capacity_iff ha n s.cfg.maxw).2 h))]

theorem execShl_eq (rd rs1 : Reg) (imm : BitVec 32) (s : State) :
    execShl rd rs1 imm s = if simm imm = -2 ^ 31 then s.err .range
      else if 0 ≤ simm imm then s.commitBounded rd (s.xv rs1 * 2 ^ (simm imm).toNat)
      else s.commitBounded rd ((s.xv rs1).fdiv (2 ^ (-simm imm).toNat)) := by
  rw [execShl, commitShl_eq, sshr_eq]

theorem execShr_eq (rd rs1 : Reg) (imm : BitVec 32) (s : State) :
    execShr rd rs1 imm s = if simm imm = -2 ^ 31 then s.err .range
      else if 0 ≤ simm imm then s.commitBounded rd ((s.xv rs1).fdiv (2 ^ (simm imm).toNat))
      else s.commitBounded rd (s.xv rs1 * 2 ^ (-simm imm).toNat) := by
  rw [execShr, commitShl_eq, sshr_eq]

theorem execCmp_eq (rs1 rs2 : Reg) (s : State) : execCmp rs1 rs2 s = s.commitRes (s.xv rs1 - s.xv rs2).sign := by
  rw [execCmp, scmp_eq]

theorem execEq_eq (rs1 rs2 : Reg) (s : State) :
    execEq rs1 rs2 s = s.commitRes (if s.xv rs1 = s.xv rs2 then 1 else 0) := by
  rw [execEq, sameValue_eq]; simp only [decide_eq_true_eq]

theorem tcForm_eq (v : Int) : tcForm v = pattern (tcLen v) (sliceWord v) := by
  unfold tcForm
  congr 1
  funext k
  exact tcw_eq v k

theorem execSttc_eq (rs1 : Reg) (addr : BitVec 16) (s : State) :
    execSttc rs1 addr s =
      s.commitStore addr.toNat (pattern (bitlen (s.xv rs1) / 32 + 1) (sliceWord (s.xv rs1))) := by
  rw [execSttc, tcForm_eq]; rfl

/-! Everything a command can do. -/

/-- OR of two values that fit fits (45_bitwise.md R904). -/
theorem lor_fits {a b : Int} {n : Nat} (ha : a.natAbs < wordBase ^ n) (hb : b.natAbs < wordBase ^ n) :
    (a.lor b).natAbs < wordBase ^ n := by
  cases a with
  | ofNat p => cases b with
    | ofNat q =>
      have hp : p < 2 ^ (32 * n) := by rw [← wordBase_pow]; exact ha
      have hq : q < 2 ^ (32 * n) := by rw [← wordBase_pow]; exact hb
      rw [wordBase_pow]
      exact Nat.or_lt_two_pow hp hq
    | negSucc q =>
      have h := ldiff_le q p
      have hb' : q + 1 < wordBase ^ n := hb
      show Nat.ldiff q p + 1 < _
      omega
  | negSucc p => cases b with
    | ofNat q =>
      have h := ldiff_le p q
      have ha' : p + 1 < wordBase ^ n := ha
      show Nat.ldiff p q + 1 < _
      omega
    | negSucc q =>
      have h := Nat.and_le_left (n := p) (m := q)
      have ha' : p + 1 < wordBase ^ n := ha
      show (p &&& q) + 1 < _
      omega

/-- Every register of the state is within its capacity (R103). -/
abbrev Bounded (s : State) : Prop := ∀ r, (s.xv r).natAbs < wordBase ^ s.cfg.maxw

/-- The value fits a big register wherever the sources do (10_state.md R103). -/
def Fits (s : State) (v : Int) : Prop := 0 < s.cfg.maxw → Bounded s → v.natAbs < wordBase ^ s.cfg.maxw

/-- The states a command of NBI-CORE can leave (R1200): an error record, of an error its row of R1204 lists; a bare
completion; RES; OM and RES; one destination register; or two. -/
inductive Effect (i : Instr) (s : State) : State → Prop
  | err (e : CmdError) (he : Bounded s → (e.code, e.sub) ∈ i.errors) : Effect i s (s.raise e)
  | nothing : Effect i s s.commit
  | res (w : Word) (hw : i.writesRes = true) : Effect i s ({ s with res := w } : State).commit
  | store (a : Nat) (X : List Word) (w : Word) (hw : i.writesRes = true) (hs : i.span s = some (a, X.length))
      (h : a + X.length ≤ s.cfg.omw) : Effect i s ({ s with om := Memory.write s.om a X, res := w } : State).commit
  | reg (rd : Reg) (v : Int) (hrd : rd ∈ i.dests) (hv : Fits s v) : Effect i s (s.setX rd v).commit
  | reg2 (rd rd2 : Reg) (v v2 : Int) (hrd : rd ∈ i.dests) (hrd2 : rd2 ∈ i.dests) (hv : Fits s v) (hv2 : Fits s v2) :
      Effect i s ((s.setX rd v).setX rd2 v2).commit

theorem dests_sub_regs {i : Instr} {r : Reg} (h : r ∈ i.dests) : r ∈ i.regs := by
  cases i <;> simp_all [Instr.dests, Instr.regs]
  rcases h with h | h <;> simp [h]

theorem err_effect {i : Instr} {s : State} (e : CmdError) (he : (e.code, e.sub) ∈ i.errors) :
    ∃ t, s.err e = .next t ∧ Effect i s t := ⟨_, rfl, .err e (fun _ => he)⟩

theorem commitX_effect {i : Instr} {s : State} {rd : Reg} {v : Int} (hrd : rd ∈ i.dests) (hv : Fits s v) :
    ∃ t, s.commitX rd v = .next t ∧ Effect i s t := ⟨_, rfl, .reg rd v hrd hv⟩

theorem commitBounded_effect {i : Instr} {s : State} {rd : Reg} (v : Int) (hrd : rd ∈ i.dests)
    (he : Bounded s → wordBase ^ s.cfg.maxw ≤ v.natAbs → (5, 1) ∈ i.errors) :
    ∃ t, s.commitBounded rd v = .next t ∧ Effect i s t := by
  rw [State.commitBounded_eq]
  refine ⟨_, rfl, ?_⟩
  split
  · rename_i h; exact .err _ (fun hb => he hb h)
  · rename_i h; exact .reg rd v hrd (fun _ _ => by omega)

theorem commitRes_effect {i : Instr} {s : State} (v : Int) (hw : i.writesRes = true) :
    ∃ t, s.commitRes v = .next t ∧ Effect i s t := ⟨_, rfl, .res _ hw⟩

theorem commitStore_effect {i : Instr} {s : State} (a : Nat) (X : List Word) (hw : i.writesRes = true)
    (hs : i.span s = some (a, X.length)) (he : (6, 1) ∈ i.errors) :
    ∃ t, s.commitStore a X = .next t ∧ Effect i s t := by
  rw [State.commitStore_eq]
  refine ⟨_, rfl, ?_⟩
  split
  · exact .err _ (fun _ => he)
  · exact .store a X _ hw hs (by omega)

theorem ite_effect {i : Instr} {s : State} {p : Prop} [Decidable p] {a b : Out}
    (ha : p → ∃ t, a = .next t ∧ Effect i s t) (hb : ¬ p → ∃ t, b = .next t ∧ Effect i s t) :
    ∃ t, (if p then a else b) = .next t ∧ Effect i s t := by
  split
  · rename_i h; exact ha h
  · rename_i h; exact hb h

theorem fits_of_le {s : State} {r : Reg} {v : Int} (h : v.natAbs ≤ (s.xv r).natAbs) : Fits s v :=
  fun _ hr => h.trans_lt (hr r)

theorem fits_word {s : State} {v : Int} (h : v.natAbs < 2 ^ 32) : Fits s v := by
  intro hm _
  calc v.natAbs < 2 ^ 32 := h
    _ = wordBase ^ 1 := by rw [pow_one, wordBase]
    _ ≤ wordBase ^ s.cfg.maxw := Nat.pow_le_pow_right wordBase_pos hm

theorem fits_residue {s : State} {r : Reg} {v : Int} (hm : 0 < s.xv r) : Fits s (v % s.xv r) := by
  intro _ hr
  have h1 := Int.emod_nonneg v (b := s.xv r) (by omega)
  have h2 := Int.emod_lt_of_pos v hm
  have := hr r
  omega

theorem fits_ldmag {s : State} {X : List Word} {sg : Int} (h1 : (words (val X)).length ≤ s.cfg.maxw)
    (h2 : sg.natAbs ≤ 1) : Fits s (sg * (val X : Int)) := by
  intro _ _
  have hv := (words_length_le_iff _ _).1 h1
  rw [Int.natAbs_mul, Int.natAbs_natCast]
  calc sg.natAbs * val X ≤ 1 * val X := Nat.mul_le_mul_right _ h2
    _ < _ := by rw [Nat.one_mul]; exact hv

/-- R1200: a command completes, and this is all it can do. -/
theorem exec_effect (i : Instr) (s : State) : ∃ t, exec i s = .next t ∧ Effect i s t := by
  cases i with
  | nop => exact ⟨_, rfl, .nothing⟩
  | ldi rd imm =>
    refine commitX_effect (by simp [Instr.dests]) (fits_word ?_)
    have h1 := BitVec.toInt_lt (x := imm)
    have h2 := BitVec.le_toInt (x := imm)
    unfold simm
    omega
  | ldmag rd addr len sg =>
    rw [exec, execLdmag]
    refine ite_effect (fun _ => err_effect _ (by simp [Instr.errors, CmdError.code, CmdError.sub])) (fun _ => ite_effect (fun _ => err_effect _ (by simp [Instr.errors, CmdError.code, CmdError.sub])) (fun _ => ite_effect
      (fun _ => err_effect _ (by simp [Instr.errors, CmdError.code, CmdError.sub])) (fun _ => ite_effect (fun _ => err_effect _ (by simp [Instr.errors, CmdError.code, CmdError.sub])) (fun hl => commitX_effect (by simp [Instr.dests]) ?_))))
    refine fits_ldmag ?_ ?_
    · rw [words_of_canon (canon_strip _)]; omega
    · have h1 := BitVec.toInt_lt (x := sg)
      have h2 := BitVec.le_toInt (x := sg)
      unfold signOf at *
      omega
  | stmag rs1 addr => exact commitStore_effect _ _ rfl rfl (by simp [Instr.errors])
  | sttc rs1 addr => exact commitStore_effect _ _ rfl rfl (by simp [Instr.errors])
  | mov rd rs1 => exact commitX_effect (by simp [Instr.dests]) (fits_of_le (r := rs1) le_rfl)
  | signum rs1 => exact commitRes_effect _ rfl
  | maglen rs1 => exact commitRes_effect _ rfl
  | loword rs1 => exact commitRes_effect _ rfl
  | add rd rs1 rs2 => exact commitBounded_effect _ (by simp [Instr.dests]) (fun _ _ => by simp [Instr.errors])
  | sub rd rs1 rs2 => exact commitBounded_effect _ (by simp [Instr.dests]) (fun _ _ => by simp [Instr.errors])
  | mul rd rs1 rs2 => exact commitBounded_effect _ (by simp [Instr.dests]) (fun _ _ => by simp [Instr.errors])
  | sqr rd rs1 => exact commitBounded_effect _ (by simp [Instr.dests]) (fun _ _ => by simp [Instr.errors])
  | pow rd rs1 imm =>
    rw [exec, execPow]
    exact ite_effect (fun _ => err_effect _ (by simp [Instr.errors, CmdError.code, CmdError.sub])) (fun _ => ite_effect
      (fun _ => err_effect _ (by simp [Instr.errors, CmdError.code, CmdError.sub])) (fun _ => commitBounded_effect _ (by simp [Instr.dests]) (fun _ _ => by simp [Instr.errors])))
  | div rd rs1 rs2 =>
    rw [exec, execDiv_eq]
    refine ite_effect (fun _ => err_effect _ (by simp [Instr.errors, CmdError.code, CmdError.sub])) (fun _ => commitX_effect (by simp [Instr.dests]) (fits_of_le (r := rs1) ?_))
    rw [Int.natAbs_tdiv]; exact Nat.div_le_self _ _
  | rem rd rs1 rs2 =>
    rw [exec, execRem_eq]
    refine ite_effect (fun _ => err_effect _ (by simp [Instr.errors, CmdError.code, CmdError.sub])) (fun _ => commitX_effect (by simp [Instr.dests]) (fits_of_le (r := rs1) ?_))
    rw [Int.natAbs_tmod]; exact Nat.mod_le _ _
  | divrem rd rd2 rs1 rs2 =>
    rw [exec, execDivrem_eq]
    refine ite_effect (fun _ => err_effect _ (by simp [Instr.errors, CmdError.code, CmdError.sub])) (fun _ => ⟨_, rfl, .reg2 _ _ _ _ (by simp [Instr.dests]) (by simp [Instr.dests])
      (fits_of_le (r := rs1) ?_) (fits_of_le (r := rs1) ?_)⟩)
    · rw [Int.natAbs_tdiv]; exact Nat.div_le_self _ _
    · rw [Int.natAbs_tmod]; exact Nat.mod_le _ _
  | mod rd rs1 rs2 =>
    rw [exec, execMod_eq]
    exact ite_effect (fun _ => err_effect _ (by simp [Instr.errors, CmdError.code, CmdError.sub])) (fun hm => commitX_effect (by simp [Instr.dests]) (fits_residue (by omega)))
  | modpow rd rs1 rs2 rs3 =>
    rw [exec, execModpow_eq]
    exact ite_effect (fun _ => err_effect _ (by simp [Instr.errors, CmdError.code, CmdError.sub])) (fun hm => ite_effect (fun _ => err_effect _ (by simp [Instr.errors, CmdError.code, CmdError.sub]))
      (fun _ => commitX_effect (by simp [Instr.dests]) (fits_residue (by omega))))
  | and rd rs1 rs2 => exact commitBounded_effect _ (by simp [Instr.dests]) (fun _ _ => by simp [Instr.errors])
  | or rd rs1 rs2 =>
    rw [exec, execOr_eq]
    exact commitBounded_effect _ (by simp [Instr.dests]) (fun hb hc => absurd (lor_fits (hb rs1) (hb rs2)) (by omega))
  | xor rd rs1 rs2 => exact commitBounded_effect _ (by simp [Instr.dests]) (fun _ _ => by simp [Instr.errors])
  | andnot rd rs1 rs2 => exact commitBounded_effect _ (by simp [Instr.dests]) (fun _ _ => by simp [Instr.errors])
  | not rd rs1 => exact commitBounded_effect _ (by simp [Instr.dests]) (fun _ _ => by simp [Instr.errors])
  | clrbit rd rs1 imm =>
    rw [exec, execClrbit_eq]
    exact ite_effect (fun _ => err_effect _ (by simp [Instr.errors, CmdError.code, CmdError.sub])) (fun _ => commitBounded_effect _ (by simp [Instr.dests]) (fun _ _ => by simp [Instr.errors]))
  | bitlen rs1 => exact commitRes_effect _ rfl
  | bitcnt rs1 => exact commitRes_effect _ rfl
  | shl rd rs1 imm =>
    rw [exec, execShl_eq]
    exact ite_effect (fun _ => err_effect _ (by simp [Instr.errors, CmdError.code, CmdError.sub])) (fun _ => ite_effect (fun _ => commitBounded_effect _ (by simp [Instr.dests]) (fun _ _ => by simp [Instr.errors]))
      (fun _ => commitBounded_effect _ (by simp [Instr.dests]) (fun _ _ => by simp [Instr.errors])))
  | shr rd rs1 imm =>
    rw [exec, execShr_eq]
    exact ite_effect (fun _ => err_effect _ (by simp [Instr.errors, CmdError.code, CmdError.sub])) (fun _ => ite_effect (fun _ => commitBounded_effect _ (by simp [Instr.dests]) (fun _ _ => by simp [Instr.errors]))
      (fun _ => commitBounded_effect _ (by simp [Instr.dests]) (fun _ _ => by simp [Instr.errors])))
  | cmp rs1 rs2 => exact commitRes_effect _ rfl
  | eq rs1 rs2 => exact commitRes_effect _ rfl
  | abs rd rs1 =>
    exact commitX_effect (by simp [Instr.dests]) (fits_of_le (r := rs1) (by rw [Int.natAbs_natCast]))
  | neg rd rs1 =>
    exact commitX_effect (by simp [Instr.dests]) (fits_of_le (r := rs1) (by rw [Int.natAbs_neg]))

end Sys2Proof.Machine
end

