-- ==== Sys2Proof/Laws/Inv.lean ====
section
/-! SUPPORT. Which updates keep the invariant of Safety.lean: one lemma per shared operation. -/

namespace Sys2Proof.Machine

theorem BigReg.canonical_zero (n : Nat) : BigReg.zero.Canonical n := ⟨by simp [BigReg.zero], by simp [BigReg.zero], by simp [BigReg.zero]⟩

theorem BigReg.canonical_ofInt {n : Nat} {v : Int} (h : v.natAbs < wordBase ^ n) : (BigReg.ofInt v).Canonical n :=
  ⟨(BigReg.ofInt_form v).1, (BigReg.ofInt_form v).2, (words_length_le_iff _ _).2 h⟩

/-- R103, from the canonical form. -/
theorem BigReg.natAbs_lt {n : Nat} {r : BigReg} (h : r.Canonical n) : r.toInt.natAbs < wordBase ^ n := by
  have h1 : r.toInt.natAbs ≤ val r.mag := by
    rw [BigReg.toInt, Int.natAbs_mul, Int.natAbs_natCast]
    cases r.sign <;> simp [Sign.toInt]
  exact h1.trans_lt ((val_lt _).trans_le (Nat.pow_le_pow_right wordBase_pos h.2.2))

/-- A canonical register is the stored form of its value. -/
theorem BigReg.ofInt_toInt {n : Nat} {r : BigReg} (h : r.Canonical n) : BigReg.ofInt r.toInt = r := by
  obtain ⟨sg, mag⟩ := r
  obtain ⟨h1, h2, _⟩ := h
  simp only at h1 h2
  have hw : words (val mag) = mag := words_of_canon h2
  have hz : val mag = 0 ↔ mag = [] := by
    constructor
    · intro hv; rw [← hw, hv, words_zero]
    · rintro rfl; rfl
  unfold BigReg.toInt BigReg.ofInt
  simp only
  cases sg with
  | zero =>
    have hm := h1.1 rfl
    subst hm
    simp [Sign.toInt, Sign.of]
  | pos =>
    have hm : mag ≠ [] := fun hc => by cases h1.2 hc
    have hv : 0 < val mag := Nat.pos_of_ne_zero (fun hc => hm (hz.1 hc))
    rw [show Sign.pos.toInt = 1 from rfl, Int.one_mul, Int.natAbs_natCast, hw, Sign.of, if_neg (by omega), if_neg (by omega)]
  | neg =>
    have hm : mag ≠ [] := fun hc => by cases h1.2 hc
    have hv : 0 < val mag := Nat.pos_of_ne_zero (fun hc => hm (hz.1 hc))
    rw [show Sign.neg.toInt = -1 from rfl, Int.neg_one_mul, Int.natAbs_neg, Int.natAbs_natCast, hw, Sign.of, if_pos (by omega)]

theorem State.Inv.maxw_pos {s : State} (h : s.Inv) : 0 < s.cfg.maxw := h.cfg.2.2.1

theorem State.Inv.xv_lt {s : State} (h : s.Inv) (r : Reg) : (s.xv r).natAbs < wordBase ^ s.cfg.maxw :=
  BigReg.natAbs_lt (h.regs r)

theorem get_replicate_zero (r : Reg) : (Vector.replicate 16 BigReg.zero).get r = BigReg.zero := by
  simp [Vector.get_eq_getElem]

/-! Completions. -/

theorem inv_raise {s : State} (h : s.Inv) (hr : s.rstN = true) (e : CmdError) : (s.raise e).Inv where
  cfg := h.cfg
  regs := h.regs
  slots := h.slots
  memWf := h.memWf
  memBelow := h.memBelow
  busyDone := by simp
  latch := by simp
  lasterr := .inr ⟨e, rfl, rfl⟩
  held := by simp [hr]

theorem inv_commit {s : State} (h : s.Inv) (hr : s.rstN = true) : s.commit.Inv where
  cfg := h.cfg
  regs := h.regs
  slots := h.slots
  memWf := h.memWf
  memBelow := h.memBelow
  busyDone := by simp
  latch := by simp
  lasterr := .inl ⟨rfl, rfl⟩
  held := by simp [hr]

theorem inv_setX {s : State} (h : s.Inv) (hr : s.rstN = true) {rd : Reg} {v : Int} (hrd : rd.val < s.cfg.nbr)
    (hv : v.natAbs < wordBase ^ s.cfg.maxw) : (s.setX rd v).Inv where
  cfg := h.cfg
  regs := fun r => by
    rw [State.get_setX]
    split
    · exact BigReg.canonical_ofInt hv
    · exact h.regs r
  slots := fun r hn => by
    rw [State.get_setX, if_neg]
    · exact h.slots r hn
    · rintro rfl; exact absurd hn (by rw [State.setX_cfg]; omega)
  memWf := h.memWf
  memBelow := h.memBelow
  busyDone := h.busyDone
  latch := h.latch
  lasterr := h.lasterr
  held := by simp [hr]

theorem inv_res {s : State} (h : s.Inv) (hr : s.rstN = true) (w : Word) : ({ s with res := w } : State).Inv where
  cfg := h.cfg
  regs := h.regs
  slots := h.slots
  memWf := h.memWf
  memBelow := h.memBelow
  busyDone := h.busyDone
  latch := h.latch
  lasterr := h.lasterr
  held := by simp [hr]

theorem inv_om {s : State} (h : s.Inv) (hr : s.rstN = true) {m : Memory} (h1 : Memory.wf m) (h2 : Memory.below m s.cfg.omw) :
    ({ s with om := m } : State).Inv where
  cfg := h.cfg
  regs := h.regs
  slots := h.slots
  memWf := h1
  memBelow := h2
  busyDone := h.busyDone
  latch := h.latch
  lasterr := h.lasterr
  held := by simp [hr]

/-- Whatever a well-formed command does keeps the invariant. -/
theorem inv_effect {i : Instr} {s t : State} (h : s.Inv) (hr : s.rstN = true) (hi : ∀ r ∈ i.regs, r.val < s.cfg.nbr)
    (he : Effect i s t) : t.Inv := by
  cases he with
  | err e _ => exact inv_raise h hr e
  | nothing => exact inv_commit h hr
  | res w _ => exact inv_commit (inv_res h hr w) hr
  | store a X w _ _ hX =>
    exact inv_commit (inv_res (inv_om h hr (Memory.wf_write h.memWf a X) (Memory.below_write h.memBelow hX)) hr w) hr
  | reg rd v hrd hv => exact inv_commit (inv_setX h hr (hi _ (dests_sub_regs hrd)) (hv h.maxw_pos h.xv_lt)) hr
  | reg2 rd rd2 v v2 hrd hrd2 hv hv2 =>
    exact inv_commit (inv_setX (inv_setX h hr (hi _ (dests_sub_regs hrd)) (hv h.maxw_pos h.xv_lt)) hr (hi _ (dests_sub_regs hrd2))
      (hv2 h.maxw_pos h.xv_lt)) hr

/-! The reset values. -/

theorem softReset_idem (s : State) : s.softReset.softReset = s.softReset := rfl

theorem inv_softReset {s : State} (h : s.Inv) : s.softReset.Inv where
  cfg := h.cfg
  regs := fun r => by rw [State.softReset_x, get_replicate_zero]; exact BigReg.canonical_zero _
  slots := fun r _ => by rw [State.softReset_x, get_replicate_zero]
  memWf := h.memWf
  memBelow := h.memBelow
  busyDone := by simp [Status.zero]
  latch := by simp [Status.zero]
  lasterr := .inl ⟨rfl, rfl⟩
  held := fun _ => rfl

theorem inv_powerDown {s : State} (h : s.Inv) : s.powerDown.Inv where
  cfg := h.cfg
  regs := (inv_softReset h).regs
  slots := (inv_softReset h).slots
  memWf := h.memWf
  memBelow := h.memBelow
  busyDone := (inv_softReset h).busyDone
  latch := (inv_softReset h).latch
  lasterr := .inl ⟨rfl, rfl⟩
  held := fun _ => rfl

theorem inv_powerOn {s : State} (h : s.Inv) (om : List (Nat × Word)) : (s.powerOn om).Inv where
  cfg := h.cfg
  regs := (inv_softReset h).regs
  slots := (inv_softReset h).slots
  memWf := (Memory.ofContents_spec _ _).1
  memBelow := (Memory.ofContents_spec _ _).2
  busyDone := (inv_softReset h).busyDone
  latch := (inv_softReset h).latch
  lasterr := .inl ⟨rfl, rfl⟩
  held := by simp

/-! The host. -/

/-- A status that sets neither BUSY nor DONE keeps the invariant. -/
theorem inv_status {s : State} (h : s.Inv) (hr : s.rstN = true) {st : Status} (hb : st.busy = s.status.busy)
    (hd : st.done = true → s.status.done = true) : ({ s with status := st } : State).Inv where
  cfg := h.cfg
  regs := h.regs
  slots := h.slots
  memWf := h.memWf
  memBelow := h.memBelow
  busyDone := fun hc => by
    have h1 := h.busyDone (hb ▸ hc)
    cases h2 : st.done with
    | false => rfl
    | true => rw [hd h2] at h1; cases h1
  latch := fun hc => h.latch (hb ▸ hc)
  lasterr := h.lasterr
  held := by simp [hr]

theorem inv_issue {s : State} (h : s.Inv) (hr : s.rstN = true) (w : Word) : (s.issue w).Inv where
  cfg := h.cfg
  regs := h.regs
  slots := h.slots
  memWf := h.memWf
  memBelow := h.memBelow
  busyDone := by simp
  latch := fun _ => by
    rw [State.issue_cl, State.issue_cmdHi, BitVec.extractLsb'_append_eq_of_le (by omega)]
    exact BitVec.extractLsb'_eq_self
  lasterr := h.lasterr
  held := by simp [hr]

theorem inv_ie {s : State} (h : s.Inv) (hr : s.rstN = true) (b : Bool) : ({ s with ie := b } : State).Inv where
  cfg := h.cfg
  regs := h.regs
  slots := h.slots
  memWf := h.memWf
  memBelow := h.memBelow
  busyDone := h.busyDone
  latch := h.latch
  lasterr := h.lasterr
  held := by simp [hr]

theorem inv_cmdLo {s : State} (h : s.Inv) (hr : s.rstN = true) (w : Word) : ({ s with cmdLo := w } : State).Inv where
  cfg := h.cfg
  regs := h.regs
  slots := h.slots
  memWf := h.memWf
  memBelow := h.memBelow
  busyDone := h.busyDone
  latch := h.latch
  lasterr := h.lasterr
  held := by simp [hr]

theorem inv_response {s : State} (h : s.Inv) (hr : s.rstN = true) (r : Response) : ({ s with response := r } : State).Inv where
  cfg := h.cfg
  regs := h.regs
  slots := h.slots
  memWf := h.memWf
  memBelow := h.memBelow
  busyDone := h.busyDone
  latch := h.latch
  lasterr := h.lasterr
  held := by simp [hr]

/-- What is still to come is no part of the block. -/
theorem inv_agenda {s : State} (h : s.Inv) (l : List Event) : ({ s with agenda := l } : State).Inv where
  cfg := h.cfg
  regs := h.regs
  slots := h.slots
  memWf := h.memWf
  memBelow := h.memBelow
  busyDone := h.busyDone
  latch := h.latch
  lasterr := h.lasterr
  held := fun hl => by
    have := h.held hl
    have e : ({ s with agenda := l } : State).softReset = { s.softReset with agenda := l } := rfl
    rw [e, this]

theorem rstN_writeReg (s : State) (r : HostReg) (w : Word) : (s.writeReg r w).rstN = s.rstN := by
  cases r <;> simp only [State.writeReg] <;> split <;> rfl

theorem rstN_hostWrite (s : State) (off : BitVec 19) (size : Size) (w : Word) : (s.hostWrite off size w).rstN = s.rstN := by
  unfold State.hostWrite
  split
  · exact rstN_writeReg _ _ _
  · split <;> rfl
  · rfl

theorem rstN_hostRead (s : State) (off : BitVec 19) (size : Size) : (s.hostRead off size).1.rstN = s.rstN := by
  unfold State.hostRead
  split
  · rfl
  · split <;> rfl
  · rfl

theorem rstN_serve (s : State) (q : HostReq) : (s.serve q).rstN = s.rstN := by
  cases q with
  | read off size => exact rstN_hostRead s off size
  | write off size data => exact rstN_hostWrite s off size data

theorem inv_writeReg {s : State} (h : s.Inv) (hr : s.rstN = true) (r : HostReg) (w : Word) : (s.writeReg r w).Inv := by
  cases r <;> simp only [State.writeReg]
  case ctrl =>
    split
    · exact inv_softReset h
    · exact inv_ie h hr _
  case status => exact inv_status h hr rfl (by simp; tauto)
  case cmdlo => exact inv_cmdLo h hr w
  case cmdhi =>
    split
    · exact inv_status h hr rfl (fun hd => hd)
    · exact inv_issue h hr w
  all_goals exact h

/-- An OM offset names a word of OM (20_memory.md R201, R211). -/
theorem target_om_lt {c : Config} {off : BitVec 19} {size : Size} {a : Nat} (h : target c off size = .om a) : a < c.omw := by
  unfold target mapOffset at h
  split at h
  · split at h
    · cases h
    · split at h
      · rename_i hc
        injection h with h
        omega
      · cases h
  · cases h

theorem inv_hostWrite {s : State} (h : s.Inv) (hr : s.rstN = true) (off : BitVec 19) (size : Size) (w : Word) :
    (s.hostWrite off size w).Inv := by
  unfold State.hostWrite
  split
  · exact inv_writeReg h hr _ w
  · rename_i a ht
    split
    · exact inv_status h hr rfl (fun hd => hd)
    · exact inv_om h hr (Memory.wf_writeWord h.memWf a w) (Memory.below_writeWord h.memBelow (target_om_lt ht))
  · exact inv_status h hr rfl (fun hd => hd)

theorem inv_hostRead {s : State} (h : s.Inv) (hr : s.rstN = true) (off : BitVec 19) (size : Size) :
    (s.hostRead off size).1.Inv := by
  unfold State.hostRead
  split
  · exact h
  · split
    · exact inv_status h hr rfl (fun hd => hd)
    · exact h
  · exact inv_status h hr rfl (fun hd => hd)

theorem inv_serve {s : State} (h : s.Inv) (hr : s.rstN = true) (q : HostReq) : (s.serve q).Inv := by
  cases q with
  | read off size => exact inv_response (inv_hostRead h hr off size) (by rw [rstN_hostRead, hr]) _
  | write off size data => exact inv_response (inv_hostWrite h hr off size data) (by rw [rstN_hostWrite, hr]) _

/-! The engine. -/

/-- The engine's step always answers, and keeps the invariant. -/
theorem engineStep_inv {s : State} (h : s.Inv) : ∃ t, s.engineStep = .next t ∧ t.Inv := by
  unfold State.engineStep
  split
  · rename_i hb
    rw [Bool.and_eq_true] at hb
    unfold State.execLatch
    split
    · rename_i i hd
      obtain ⟨t, h1, h2⟩ := exec_effect i s
      exact ⟨t, h1, inv_effect h hb.1 (decode_ok_regs hd) h2⟩
    · exact ⟨_, rfl, inv_raise h hb.1 _⟩
  · exact ⟨s, rfl, h⟩

end Sys2Proof.Machine
end

