-- ==== Sys2Proof/Laws/PerInstr.lean ====
section
/-! SUPPORT. The family `Encoding`: for each command, its word carries its opcode, passes its format's mask, and builds
the command back (30_encoding.md R301, R302, R305, R306). -/

namespace Sys2Proof

/-! The masks of R305, field by field: a field the format reads is 0 in the mask, every other field is all ones. -/

theorem mask_N : Format.N.mask = packRaw 0xFF 0xF 0xF 0xF 0xF 0x3F 0x3 0xFFFFFFFF := by decide
theorem mask_LI : Format.LI.mask = packRaw 0xFF 0x0 0xF 0xF 0xF 0x3F 0x3 0x0 := by decide
theorem mask_LM : Format.LM.mask = packRaw 0xFF 0x0 0xF 0xF 0xF 0x3F 0x0 0x0 := by decide
theorem mask_SM : Format.SM.mask = packRaw 0xFF 0xF 0x0 0xF 0xF 0x3F 0x3 0xFFFF0000 := by decide
theorem mask_R1 : Format.R1.mask = packRaw 0xFF 0x0 0x0 0xF 0xF 0x3F 0x3 0xFFFFFFFF := by decide
theorem mask_R2 : Format.R2.mask = packRaw 0xFF 0x0 0x0 0x0 0xF 0x3F 0x3 0xFFFFFFFF := by decide
theorem mask_R3 : Format.R3.mask = packRaw 0xFF 0x0 0x0 0x0 0x0 0x3F 0x3 0xFFFFFFFF := by decide
theorem mask_D2 : Format.D2.mask = packRaw 0xFF 0x0 0x0 0x0 0x0 0x3F 0x3 0xFFFFFFFF := by decide
theorem mask_RI : Format.RI.mask = packRaw 0xFF 0x0 0x0 0xF 0xF 0x3F 0x3 0x0 := by decide
theorem mask_Q1 : Format.Q1.mask = packRaw 0xFF 0xF 0x0 0xF 0xF 0x3F 0x3 0xFFFFFFFF := by decide
theorem mask_Q2 : Format.Q2.mask = packRaw 0xFF 0xF 0x0 0x0 0xF 0x3F 0x3 0xFFFFFFFF := by decide

theorem match_eq (o : Opcode) : o.matchWord = packRaw o.byte 0 0 0 0 0 0 0 := by cases o <;> decide

theorem imm_addr_mask (addr : BitVec 16) : ((0 : BitVec 16) ++ addr) &&& (0xFFFF0000 : BitVec 32) = 0 := by
  have h : (0xFFFF0000 : BitVec 32) = (0xFFFF : BitVec 16) ++ (0 : BitVec 16) := by decide
  rw [h]
  exact BitVec.and_append.trans ((congrArg₂ _ BitVec.zero_and BitVec.and_zero).trans (by decide))

theorem bits_zero_and (m : BitVec 4) : Reg.bits 0 &&& m = 0 := BitVec.zero_and

theorem and_ones8 (b : BitVec 8) : b &&& 0xFF = b := BitVec.and_allOnes

/-- A packed word under a mask that keeps the opcode and kills or meets zero in every other field. -/
theorem pack_mask {op : BitVec 8} {rd rs1 rs2 rs3 : Reg} {sg : BitVec 2} {imm : BitVec 32}
    {b c d e : BitVec 4} {g : BitVec 2} {h : BitVec 32} (hb : rd.bits &&& b = 0) (hc : rs1.bits &&& c = 0)
    (hd : rs2.bits &&& d = 0) (he : rs3.bits &&& e = 0) (hg : sg &&& g = 0) (hh : imm &&& h = 0) :
    pack op rd rs1 rs2 rs3 sg imm &&& packRaw 0xFF b c d e 0x3F g h = packRaw op 0 0 0 0 0 0 0 := by
  rw [pack_eq, packRaw_and, and_ones8, hb, hc, hd, he, hg, hh]
  exact congrArg (fun z => packRaw op 0 0 0 0 z 0 0) BitVec.zero_and

namespace Laws.Encoding

/-- The word of a command carries it whole. -/
def Statement (i : Instr) : Prop :=
  Field.op (encode i) = i.opcode.byte ∧ encode i &&& i.opcode.format.mask = i.opcode.matchWord ∧
    i.opcode.build (encode i) = i

theorem nop : Statement (.nop) := by
  refine ⟨field_op_pack .., ?_, rfl⟩
  rw [Instr.opcode, Opcode.format, mask_N, match_eq]
  exact pack_mask (bits_zero_and _) (bits_zero_and _) (bits_zero_and _) (bits_zero_and _) (BitVec.zero_and) (BitVec.zero_and)

theorem ldi (rd : Reg) (imm : BitVec 32) : Statement (.ldi rd imm) := by
  refine ⟨field_op_pack .., ?_, by simp [Instr.opcode, Opcode.build, encode]⟩
  rw [Instr.opcode, Opcode.format, mask_LI, match_eq]
  exact pack_mask (BitVec.and_zero) (bits_zero_and _) (bits_zero_and _) (bits_zero_and _) (BitVec.zero_and) (BitVec.and_zero)

theorem ldmag (rd : Reg) (addr : BitVec 16) (len : BitVec 16) (sg : BitVec 2) : Statement (.ldmag rd addr len sg) := by
  refine ⟨field_op_pack .., ?_, by simp [Instr.opcode, Opcode.build, encode]⟩
  rw [Instr.opcode, Opcode.format, mask_LM, match_eq]
  exact pack_mask (BitVec.and_zero) (bits_zero_and _) (bits_zero_and _) (bits_zero_and _) (BitVec.and_zero) (BitVec.and_zero)

theorem stmag (rs1 : Reg) (addr : BitVec 16) : Statement (.stmag rs1 addr) := by
  refine ⟨field_op_pack .., ?_, by simp [Instr.opcode, Opcode.build, encode]⟩
  rw [Instr.opcode, Opcode.format, mask_SM, match_eq]
  exact pack_mask (bits_zero_and _) (BitVec.and_zero) (bits_zero_and _) (bits_zero_and _) (BitVec.zero_and) (imm_addr_mask addr)

theorem sttc (rs1 : Reg) (addr : BitVec 16) : Statement (.sttc rs1 addr) := by
  refine ⟨field_op_pack .., ?_, by simp [Instr.opcode, Opcode.build, encode]⟩
  rw [Instr.opcode, Opcode.format, mask_SM, match_eq]
  exact pack_mask (bits_zero_and _) (BitVec.and_zero) (bits_zero_and _) (bits_zero_and _) (BitVec.zero_and) (imm_addr_mask addr)

theorem mov (rd : Reg) (rs1 : Reg) : Statement (.mov rd rs1) := by
  refine ⟨field_op_pack .., ?_, by simp [Instr.opcode, Opcode.build, encode]⟩
  rw [Instr.opcode, Opcode.format, mask_R1, match_eq]
  exact pack_mask (BitVec.and_zero) (BitVec.and_zero) (bits_zero_and _) (bits_zero_and _) (BitVec.zero_and) (BitVec.zero_and)

theorem signum (rs1 : Reg) : Statement (.signum rs1) := by
  refine ⟨field_op_pack .., ?_, by simp [Instr.opcode, Opcode.build, encode]⟩
  rw [Instr.opcode, Opcode.format, mask_Q1, match_eq]
  exact pack_mask (bits_zero_and _) (BitVec.and_zero) (bits_zero_and _) (bits_zero_and _) (BitVec.zero_and) (BitVec.zero_and)

theorem maglen (rs1 : Reg) : Statement (.maglen rs1) := by
  refine ⟨field_op_pack .., ?_, by simp [Instr.opcode, Opcode.build, encode]⟩
  rw [Instr.opcode, Opcode.format, mask_Q1, match_eq]
  exact pack_mask (bits_zero_and _) (BitVec.and_zero) (bits_zero_and _) (bits_zero_and _) (BitVec.zero_and) (BitVec.zero_and)

theorem loword (rs1 : Reg) : Statement (.loword rs1) := by
  refine ⟨field_op_pack .., ?_, by simp [Instr.opcode, Opcode.build, encode]⟩
  rw [Instr.opcode, Opcode.format, mask_Q1, match_eq]
  exact pack_mask (bits_zero_and _) (BitVec.and_zero) (bits_zero_and _) (bits_zero_and _) (BitVec.zero_and) (BitVec.zero_and)

theorem add (rd : Reg) (rs1 : Reg) (rs2 : Reg) : Statement (.add rd rs1 rs2) := by
  refine ⟨field_op_pack .., ?_, by simp [Instr.opcode, Opcode.build, encode]⟩
  rw [Instr.opcode, Opcode.format, mask_R2, match_eq]
  exact pack_mask (BitVec.and_zero) (BitVec.and_zero) (BitVec.and_zero) (bits_zero_and _) (BitVec.zero_and) (BitVec.zero_and)

theorem sub (rd : Reg) (rs1 : Reg) (rs2 : Reg) : Statement (.sub rd rs1 rs2) := by
  refine ⟨field_op_pack .., ?_, by simp [Instr.opcode, Opcode.build, encode]⟩
  rw [Instr.opcode, Opcode.format, mask_R2, match_eq]
  exact pack_mask (BitVec.and_zero) (BitVec.and_zero) (BitVec.and_zero) (bits_zero_and _) (BitVec.zero_and) (BitVec.zero_and)

theorem mul (rd : Reg) (rs1 : Reg) (rs2 : Reg) : Statement (.mul rd rs1 rs2) := by
  refine ⟨field_op_pack .., ?_, by simp [Instr.opcode, Opcode.build, encode]⟩
  rw [Instr.opcode, Opcode.format, mask_R2, match_eq]
  exact pack_mask (BitVec.and_zero) (BitVec.and_zero) (BitVec.and_zero) (bits_zero_and _) (BitVec.zero_and) (BitVec.zero_and)

theorem sqr (rd : Reg) (rs1 : Reg) : Statement (.sqr rd rs1) := by
  refine ⟨field_op_pack .., ?_, by simp [Instr.opcode, Opcode.build, encode]⟩
  rw [Instr.opcode, Opcode.format, mask_R1, match_eq]
  exact pack_mask (BitVec.and_zero) (BitVec.and_zero) (bits_zero_and _) (bits_zero_and _) (BitVec.zero_and) (BitVec.zero_and)

theorem pow (rd : Reg) (rs1 : Reg) (imm : BitVec 32) : Statement (.pow rd rs1 imm) := by
  refine ⟨field_op_pack .., ?_, by simp [Instr.opcode, Opcode.build, encode]⟩
  rw [Instr.opcode, Opcode.format, mask_RI, match_eq]
  exact pack_mask (BitVec.and_zero) (BitVec.and_zero) (bits_zero_and _) (bits_zero_and _) (BitVec.zero_and) (BitVec.and_zero)

theorem div (rd : Reg) (rs1 : Reg) (rs2 : Reg) : Statement (.div rd rs1 rs2) := by
  refine ⟨field_op_pack .., ?_, by simp [Instr.opcode, Opcode.build, encode]⟩
  rw [Instr.opcode, Opcode.format, mask_R2, match_eq]
  exact pack_mask (BitVec.and_zero) (BitVec.and_zero) (BitVec.and_zero) (bits_zero_and _) (BitVec.zero_and) (BitVec.zero_and)

theorem rem (rd : Reg) (rs1 : Reg) (rs2 : Reg) : Statement (.rem rd rs1 rs2) := by
  refine ⟨field_op_pack .., ?_, by simp [Instr.opcode, Opcode.build, encode]⟩
  rw [Instr.opcode, Opcode.format, mask_R2, match_eq]
  exact pack_mask (BitVec.and_zero) (BitVec.and_zero) (BitVec.and_zero) (bits_zero_and _) (BitVec.zero_and) (BitVec.zero_and)

theorem divrem (rd : Reg) (rd2 : Reg) (rs1 : Reg) (rs2 : Reg) : Statement (.divrem rd rd2 rs1 rs2) := by
  refine ⟨field_op_pack .., ?_, by simp [Instr.opcode, Opcode.build, encode]⟩
  rw [Instr.opcode, Opcode.format, mask_D2, match_eq]
  exact pack_mask (BitVec.and_zero) (BitVec.and_zero) (BitVec.and_zero) (BitVec.and_zero) (BitVec.zero_and) (BitVec.zero_and)

theorem mod (rd : Reg) (rs1 : Reg) (rs2 : Reg) : Statement (.mod rd rs1 rs2) := by
  refine ⟨field_op_pack .., ?_, by simp [Instr.opcode, Opcode.build, encode]⟩
  rw [Instr.opcode, Opcode.format, mask_R2, match_eq]
  exact pack_mask (BitVec.and_zero) (BitVec.and_zero) (BitVec.and_zero) (bits_zero_and _) (BitVec.zero_and) (BitVec.zero_and)

theorem modpow (rd : Reg) (rs1 : Reg) (rs2 : Reg) (rs3 : Reg) : Statement (.modpow rd rs1 rs2 rs3) := by
  refine ⟨field_op_pack .., ?_, by simp [Instr.opcode, Opcode.build, encode]⟩
  rw [Instr.opcode, Opcode.format, mask_R3, match_eq]
  exact pack_mask (BitVec.and_zero) (BitVec.and_zero) (BitVec.and_zero) (BitVec.and_zero) (BitVec.zero_and) (BitVec.zero_and)

theorem and (rd : Reg) (rs1 : Reg) (rs2 : Reg) : Statement (.and rd rs1 rs2) := by
  refine ⟨field_op_pack .., ?_, by simp [Instr.opcode, Opcode.build, encode]⟩
  rw [Instr.opcode, Opcode.format, mask_R2, match_eq]
  exact pack_mask (BitVec.and_zero) (BitVec.and_zero) (BitVec.and_zero) (bits_zero_and _) (BitVec.zero_and) (BitVec.zero_and)

theorem or (rd : Reg) (rs1 : Reg) (rs2 : Reg) : Statement (.or rd rs1 rs2) := by
  refine ⟨field_op_pack .., ?_, by simp [Instr.opcode, Opcode.build, encode]⟩
  rw [Instr.opcode, Opcode.format, mask_R2, match_eq]
  exact pack_mask (BitVec.and_zero) (BitVec.and_zero) (BitVec.and_zero) (bits_zero_and _) (BitVec.zero_and) (BitVec.zero_and)

theorem xor (rd : Reg) (rs1 : Reg) (rs2 : Reg) : Statement (.xor rd rs1 rs2) := by
  refine ⟨field_op_pack .., ?_, by simp [Instr.opcode, Opcode.build, encode]⟩
  rw [Instr.opcode, Opcode.format, mask_R2, match_eq]
  exact pack_mask (BitVec.and_zero) (BitVec.and_zero) (BitVec.and_zero) (bits_zero_and _) (BitVec.zero_and) (BitVec.zero_and)

theorem andnot (rd : Reg) (rs1 : Reg) (rs2 : Reg) : Statement (.andnot rd rs1 rs2) := by
  refine ⟨field_op_pack .., ?_, by simp [Instr.opcode, Opcode.build, encode]⟩
  rw [Instr.opcode, Opcode.format, mask_R2, match_eq]
  exact pack_mask (BitVec.and_zero) (BitVec.and_zero) (BitVec.and_zero) (bits_zero_and _) (BitVec.zero_and) (BitVec.zero_and)

theorem not (rd : Reg) (rs1 : Reg) : Statement (.not rd rs1) := by
  refine ⟨field_op_pack .., ?_, by simp [Instr.opcode, Opcode.build, encode]⟩
  rw [Instr.opcode, Opcode.format, mask_R1, match_eq]
  exact pack_mask (BitVec.and_zero) (BitVec.and_zero) (bits_zero_and _) (bits_zero_and _) (BitVec.zero_and) (BitVec.zero_and)

theorem clrbit (rd : Reg) (rs1 : Reg) (imm : BitVec 32) : Statement (.clrbit rd rs1 imm) := by
  refine ⟨field_op_pack .., ?_, by simp [Instr.opcode, Opcode.build, encode]⟩
  rw [Instr.opcode, Opcode.format, mask_RI, match_eq]
  exact pack_mask (BitVec.and_zero) (BitVec.and_zero) (bits_zero_and _) (bits_zero_and _) (BitVec.zero_and) (BitVec.and_zero)

theorem bitlen (rs1 : Reg) : Statement (.bitlen rs1) := by
  refine ⟨field_op_pack .., ?_, by simp [Instr.opcode, Opcode.build, encode]⟩
  rw [Instr.opcode, Opcode.format, mask_Q1, match_eq]
  exact pack_mask (bits_zero_and _) (BitVec.and_zero) (bits_zero_and _) (bits_zero_and _) (BitVec.zero_and) (BitVec.zero_and)

theorem bitcnt (rs1 : Reg) : Statement (.bitcnt rs1) := by
  refine ⟨field_op_pack .., ?_, by simp [Instr.opcode, Opcode.build, encode]⟩
  rw [Instr.opcode, Opcode.format, mask_Q1, match_eq]
  exact pack_mask (bits_zero_and _) (BitVec.and_zero) (bits_zero_and _) (bits_zero_and _) (BitVec.zero_and) (BitVec.zero_and)

theorem shl (rd : Reg) (rs1 : Reg) (imm : BitVec 32) : Statement (.shl rd rs1 imm) := by
  refine ⟨field_op_pack .., ?_, by simp [Instr.opcode, Opcode.build, encode]⟩
  rw [Instr.opcode, Opcode.format, mask_RI, match_eq]
  exact pack_mask (BitVec.and_zero) (BitVec.and_zero) (bits_zero_and _) (bits_zero_and _) (BitVec.zero_and) (BitVec.and_zero)

theorem shr (rd : Reg) (rs1 : Reg) (imm : BitVec 32) : Statement (.shr rd rs1 imm) := by
  refine ⟨field_op_pack .., ?_, by simp [Instr.opcode, Opcode.build, encode]⟩
  rw [Instr.opcode, Opcode.format, mask_RI, match_eq]
  exact pack_mask (BitVec.and_zero) (BitVec.and_zero) (bits_zero_and _) (bits_zero_and _) (BitVec.zero_and) (BitVec.and_zero)

theorem cmp (rs1 : Reg) (rs2 : Reg) : Statement (.cmp rs1 rs2) := by
  refine ⟨field_op_pack .., ?_, by simp [Instr.opcode, Opcode.build, encode]⟩
  rw [Instr.opcode, Opcode.format, mask_Q2, match_eq]
  exact pack_mask (bits_zero_and _) (BitVec.and_zero) (BitVec.and_zero) (bits_zero_and _) (BitVec.zero_and) (BitVec.zero_and)

theorem eq (rs1 : Reg) (rs2 : Reg) : Statement (.eq rs1 rs2) := by
  refine ⟨field_op_pack .., ?_, by simp [Instr.opcode, Opcode.build, encode]⟩
  rw [Instr.opcode, Opcode.format, mask_Q2, match_eq]
  exact pack_mask (bits_zero_and _) (BitVec.and_zero) (BitVec.and_zero) (bits_zero_and _) (BitVec.zero_and) (BitVec.zero_and)

theorem abs (rd : Reg) (rs1 : Reg) : Statement (.abs rd rs1) := by
  refine ⟨field_op_pack .., ?_, by simp [Instr.opcode, Opcode.build, encode]⟩
  rw [Instr.opcode, Opcode.format, mask_R1, match_eq]
  exact pack_mask (BitVec.and_zero) (BitVec.and_zero) (bits_zero_and _) (bits_zero_and _) (BitVec.zero_and) (BitVec.zero_and)

theorem neg (rd : Reg) (rs1 : Reg) : Statement (.neg rd rs1) := by
  refine ⟨field_op_pack .., ?_, by simp [Instr.opcode, Opcode.build, encode]⟩
  rw [Instr.opcode, Opcode.format, mask_R1, match_eq]
  exact pack_mask (BitVec.and_zero) (BitVec.and_zero) (bits_zero_and _) (bits_zero_and _) (BitVec.zero_and) (BitVec.zero_and)

end Laws.Encoding

end Sys2Proof
end

