-- ==== Sys2Proof/Tests/Slice0.lean ====
section
/-! SUPPORT. The model's own tests. Expected results come from the spec: the encoding vectors of 95_test_vectors.md section 2,
the examples and corner cases of the command rules, the host protocol vectors of section 7; the file ends with a witness for
the hypotheses of each statement of Certificates/Slice0/Obligations.lean. -/

namespace Sys2Proof.Tests

open Sys2Proof Sys2Proof.Machine

/-! WellFormed: one ill-formed term for each check (R302, R307). -/

theorem test_wf_register_at_nbr : (Instr.add 8 1 2).wellFormed 8 = false ∧ (Instr.add 7 1 2).wellFormed 8 = true := by decide

theorem test_wf_same_destination :
    (Instr.divrem 3 3 1 2).wellFormed 16 = false ∧ (Instr.divrem 3 4 3 3).wellFormed 16 = true := by decide

/-! Decoding: every row of R306, by the words of 95_test_vectors.md section 2. -/

/-- A word decodes to a command, and that command encodes to the word. -/
def codes (w : Nat) (i : Instr) : Bool := decodeTableWord 64 w == some i && encode i == BitVec.ofNat 64 w

/-- Why a build of `nbr` registers refuses a word. -/
def refusal (nbr : Nat) (c : BitVec 64) : Option Illegal :=
  match decode nbr c with
  | .error e => some e
  | .ok _ => none

theorem test_decode_transfer :
    codes 0x0000000000000000 .nop = true ∧
    codes 0x01100000FFFFFFF9 (.ldi 1 0xFFFFFFF9) = true ∧
    codes 0x0220000300030010 (.ldmag 2 16 3 0b11) = true ∧
    codes 0x0302000000000020 (.stmag 2 32) = true ∧
    codes 0x0401000000000000 (.sttc 1 0) = true ∧
    codes 0x0552000000000000 (.mov 5 2) = true ∧
    codes 0x0802000000000000 (.signum 2) = true ∧
    codes 0x0902000000000000 (.maglen 2) = true ∧
    codes 0x0A01000000000000 (.loword 1) = true := by decide

theorem test_decode_addsub :
    codes 0x1031200000000000 (.add 3 1 2) = true ∧
    codes 0x1131200000000000 (.sub 3 1 2) = true := by decide

theorem test_decode_multiply :
    codes 0x1231200000000000 (.mul 3 1 2) = true ∧
    codes 0x1321000000000000 (.sqr 2 1) = true ∧
    codes 0x1421000000000002 (.pow 2 1 2) = true := by decide

theorem test_decode_divide :
    codes 0x1831200000000000 (.div 3 1 2) = true ∧
    codes 0x1941200000000000 (.rem 4 1 2) = true ∧
    codes 0x1A31240000000000 (.divrem 3 4 1 2) = true ∧
    codes 0x1B51200000000000 (.mod 5 1 2) = true := by decide

theorem test_decode_modpow :
    codes 0x1C41230000000000 (.modpow 4 1 2 3) = true := by decide

theorem test_decode_bitwise :
    codes 0x2031200000000000 (.and 3 1 2) = true ∧
    codes 0x2131200000000000 (.or 3 1 2) = true ∧
    codes 0x2231200000000000 (.xor 3 1 2) = true ∧
    codes 0x2331200000000000 (.andnot 3 1 2) = true ∧
    codes 0x2431000000000000 (.not 3 1) = true ∧
    codes 0x2531000000000028 (.clrbit 3 1 40) = true ∧
    codes 0x2801000000000000 (.bitlen 1) = true ∧
    codes 0x2901000000000000 (.bitcnt 1) = true := by decide

theorem test_decode_shift :
    codes 0x2C440000FFFFFFFB (.shl 4 4 0xFFFFFFFB) = true ∧
    codes 0x2D21000000000001 (.shr 2 1 1) = true := by decide

theorem test_decode_compare :
    codes 0x3001200000000000 (.cmp 1 2) = true ∧
    codes 0x3101200000000000 (.eq 1 2) = true ∧
    codes 0x3221000000000000 (.abs 2 1) = true ∧
    codes 0x3321000000000000 (.neg 2 1) = true := by decide

theorem test_illegal_undefined_opcode :
    refusal 16 0x0600000000000000 = some .undefinedOpcode ∧
    refusal 16 0xFF00000000000000 = some .undefinedOpcode := by decide

theorem test_illegal_unused_field :
    refusal 16 0x1031200000000001 = some .unusedField ∧
    refusal 16 0x0000000400000000 = some .unusedField ∧
    refusal 16 0x1031200100000000 = some .unusedField ∧
    refusal 16 0x0302000000010020 = some .unusedField ∧
    refusal 16 0x3321500000000000 = some .unusedField ∧
    refusal 16 0x0112000000000005 = some .unusedField := by decide

theorem test_illegal_order :
    refusal 16 0x1A31230000000001 = some .unusedField ∧
    refusal 16 0x1A31230000000000 = some .sameDest ∧
    refusal 8 0x1091200000000000 = some .badRegister := by decide

/-! One step from reset with a placed word, observed. -/

/-- Registers and OM words laid down in the reset state, RES = 0x55. -/
def start (regs : List (Reg × Int)) (om : List (Nat × Word)) : State :=
  regs.foldl (fun s p => s.setX p.1 p.2) { State.reset with om := Memory.ofContents 4096 om, res := 0x55 }

/-- The state after a step that goes on. -/
def next? : Out → Option State
  | .next t => some t
  | _ => none

/-- A command word, placed and run. -/
def run (s : State) (w : Nat) : Option State := next? (step (s.withFetchWord 64 w))

/-- A register and LASTERR afterwards. -/
def reg (s : State) (w : Nat) (r : Reg) : Option (Int × Word) := (run s w).map (fun t => (t.xv r, t.lasterr.word))

/-- RES and LASTERR afterwards. -/
def res (s : State) (w : Nat) : Option (Word × Word) := (run s w).map (fun t => (t.res, t.lasterr.word))

/-- OM words and RES afterwards. -/
def om (s : State) (w : Nat) (a n : Nat) : Option (List Word × Word) :=
  (run s w).map (fun t => (Memory.read t.om a n, t.res))

theorem test_nop : (run (start [] []) 0).map (fun t => (t.lasterr.word, t.status.word, t.x == State.reset.x, t.res)) =
    some (0x00000000, 0x2, true, 0x55) := by decide

theorem test_ldi_negative : reg (start [] []) 0x01100000FFFFFFF9 1 =
    some (-7, 0x0100) := by decide

theorem test_ldi_most_negative : reg (start [] []) 0x0110000080000000 1 =
    some (-0x80000000, 0x0100) := by decide

theorem test_ldmag_three_words : reg (start [] [(16, 1), (18, 2)]) 0x0220000300030010 2 =
    some (-(2 ^ 64 + 2), 0x0200) := by decide

theorem test_ldmag_omrange_before_sign : reg (start [(1, 9)] []) 0x0210000200020FFF 1 =
    some (9, 0x00010206) := by decide

theorem test_stmag_words : om (start [(2, -(2 ^ 64 + 2))] []) 0x0302000000000020 32 3 =
    some ([1, 0, 2], 3) := by decide

theorem test_stmag_zero_at_end : om (start [] []) 0x0301000000001000 4095 1 =
    some ([0], 0) := by decide

theorem test_sttc_sign_word : om (start [(1, 0x80000000)] []) 0x0401000000000028 40 2 =
    some ([0, 0x80000000], 2) := by decide

theorem test_sttc_negative : om (start [(1, -0x100000000)] []) 0x0401000000000028 40 2 =
    some ([0xFFFFFFFF, 0], 2) := by decide

theorem test_mov : reg (start [(2, -(2 ^ 64 + 2))] []) 0x0552000000000000 5 =
    some (-(2 ^ 64 + 2), 0x0500) := by decide

theorem test_signum_negative : res (start [(1, -(2 ^ 64 + 2))] []) 0x0801000000000000 = some (0xFFFFFFFF, 0x0800) := by decide

theorem test_maglen_two : res (start [(1, 2 ^ 32)] []) 0x0901000000000000 = some (2, 0x0900) := by decide

theorem test_loword_negative : res (start [(1, -0x100000005)] []) 0x0A01000000000000 = some (0xFFFFFFFB, 0x0A00) := by decide

theorem test_add_carry : reg (start [(1, 0xFFFFFFFFFFFFFFFF), (2, 1)] []) 0x1031200000000000 3 =
    some (2 ^ 64, 0x1000) := by decide

theorem test_add_alias : reg (start [(1, 2 ^ 63)] []) 0x1011100000000000 1 =
    some (2 ^ 64, 0x1000) := by decide

theorem test_sub_sign : reg (start [(1, 3), (2, 5)] []) 0x1131200000000000 3 =
    some (-2, 0x1100) := by decide

theorem test_sub_borrow : reg (start [(1, 2 ^ 64), (2, 1)] []) 0x1131200000000000 3 =
    some (0xFFFFFFFFFFFFFFFF, 0x1100) := by decide

theorem test_mul_words : reg (start [(1, 0xFFFFFFFF), (2, 0xFFFFFFFF)] []) 0x1231200000000000 3 =
    some (0xFFFFFFFE00000001, 0x1200) := by decide

theorem test_mul_zero_negative : reg (start [(1, 0), (2, -9)] []) 0x1231200000000000 3 =
    some (0, 0x1200) := by decide

theorem test_sqr_negative : reg (start [(1, -0x100000001)] []) 0x1321000000000000 2 =
    some (0x10000000200000001, 0x1300) := by decide

theorem test_pow_odd_negative : reg (start [(1, -3)] []) 0x1421000000000003 2 =
    some (-27, 0x1400) := by decide

theorem test_pow_capacity : reg (start [(1, 3), (2, 5)] []) 0x142100007FFFFFFF 2 =
    some (5, 0x00011405) := by decide

theorem test_div_add_back : reg (start [(1, 0x7FFFFFFF000000017FFFFFFF), (2, 0x27FFFFFFF)] []) 0x1831200000000000 3 =
    some (0x33333332E147AE14, 0x1800) := by decide

theorem test_div_toward_zero : reg (start [(1, -7), (2, 2)] []) 0x1831200000000000 3 =
    some (-3, 0x1800) := by decide

theorem test_rem_sign_of_dividend : reg (start [(1, -7), (2, 2)] []) 0x1941200000000000 4 =
    some (-1, 0x1900) := by decide

theorem test_divrem_remainder : reg (start [(1, 0x7FFFFFFF000000017FFFFFFF), (2, 0x27FFFFFFF)] []) 0x1A31240000000000 4 =
    some (0x26147AE13, 0x1A00) := by decide

theorem test_divrem_zero_divisor : reg (start [(1, 7), (3, 8)] []) 0x1A31240000000000 3 =
    some (8, 0x00031A03) := by decide

theorem test_mod_nonnegative : reg (start [(1, -7), (2, 2)] []) 0x1B51200000000000 5 =
    some (1, 0x1B00) := by decide

theorem test_mod_zero_modulus : reg (start [(1, -7), (5, 6)] []) 0x1B51200000000000 5 =
    some (6, 0x00021B03) := by decide

theorem test_modpow_odd : reg (start [(1, 4), (2, 13), (3, 497)] []) 0x1C41230000000000 4 =
    some (445, 0x1C00) := by decide +kernel

theorem test_modpow_even : reg (start [(1, 3), (2, 5), (3, 8)] []) 0x1C41230000000000 4 =
    some (3, 0x1C00) := by decide

theorem test_and_three_words : reg (start [(1, -(2 ^ 32 + 1)), (2, 2 ^ 64 - 1)] []) 0x2031200000000000 3 =
    some (0xFFFFFFFEFFFFFFFF, 0x2000) := by decide

theorem test_or_negative : reg (start [(1, -6), (2, 1)] []) 0x2131200000000000 3 =
    some (-5, 0x2100) := by decide

theorem test_xor_negative : reg (start [(1, -6), (2, 15)] []) 0x2231200000000000 3 =
    some (-11, 0x2200) := by decide

theorem test_andnot_negative : reg (start [(1, -6), (2, 15)] []) 0x2331200000000000 3 =
    some (-16, 0x2300) := by decide

theorem test_not : reg (start [(1, 5)] []) 0x2431000000000000 3 =
    some (-6, 0x2400) := by decide

theorem test_clrbit_beyond_sign : reg (start [(1, -1)] []) 0x2531000000000028 3 =
    some (-(2 ^ 40 + 1), 0x2500) := by decide

theorem test_clrbit_sign_bit : reg (start [(1, -1)] []) 0x253100000000001F 3 =
    some (-2 ^ 31 - 1, 0x2500) := by decide

theorem test_bitlen_negative : res (start [(1, -(2 ^ 64 + 2))] []) 0x2801000000000000 = some (65, 0x2800) := by decide

theorem test_bitcnt_negative : res (start [(1, -6)] []) 0x2901000000000000 = some (2, 0x2900) := by decide

theorem test_shl_negative_distance : reg (start [(4, -7)] []) 0x2C440000FFFFFFFB 4 =
    some (-1, 0x2C00) := by decide

theorem test_shl_whole_word : reg (start [(1, 0x1649A75C212838E75E09A31F95885CC4)] []) 0x2C21000000000020 2 =
    some (127240330459418935590980101350655993331249577984, 0x2C00) := by decide

theorem test_shr_rounds_down : reg (start [(1, -5)] []) 0x2D21000000000001 2 =
    some (-3, 0x2D00) := by decide

theorem test_shr_range : reg (start [(1, -5), (2, 4)] []) 0x2D21000080000000 2 =
    some (4, 0x00012D04) := by decide

theorem test_cmp_two_negatives : res (start [(1, -2), (2, -3)] []) 0x3001200000000000 = some (1, 0x3000) := by decide

theorem test_cmp_zero_negative : res (start [(1, -1), (2, 0)] []) 0x3001200000000000 = some (0xFFFFFFFF, 0x3000) := by decide

theorem test_eq_different : res (start [(1, 1), (2, -1)] []) 0x3101200000000000 = some (0, 0x3100) := by decide

theorem test_abs : reg (start [(1, -7)] []) 0x3221000000000000 2 =
    some (7, 0x3200) := by decide

theorem test_neg_zero : reg (start [(2, 3)] []) 0x3321000000000000 2 =
    some (0, 0x3300) := by decide

theorem test_illegal_completes : (run (start [(1, 7), (2, 2)] []) 0x0600000000000000).map
    (fun t => (t.lasterr.word, t.status.word, t.res, t.xv 1)) = some (0x00010601, 0x6, 0x55, 7) := by decide

/-! Host protocol (95_test_vectors.md section 7). -/

/-- The word a host read returns. -/
def read (s : State) (off : BitVec 19) : Word := (s.hostRead off .b32).2

/-- A 32-bit host write. -/
def write (s : State) (off : BitVec 19) (d : Word) : State := s.serve (.write off .b32 d)

theorem test_H1_constants : [0x000, 0x004, 0x008, 0x00C, 0x010, 0x014, 0x018, 0x01C].map (read State.reset) =
    [0x4E424943, 1, 0x00100100, 0x1000, 0, 0, 0, 0] := by decide

/-- `LDI x1, -7` issued by the two host writes (H2). -/
def busy : State := write (write State.reset 0x020 0xFFFFFFF9) 0x024 0x01100000

theorem test_H2_issue : read busy 0x014 = 1 ∧ busy.cl = 0x01100000FFFFFFF9 ∧ busy.xv 1 = 0 := by decide

theorem test_H3_complete : (next? (step busy)).map (fun t => (read t 0x014, read t 0x018, t.xv 1)) =
    some (0x2, 0x100, -7) := by decide

theorem test_H5_refused_read : read busy 0x40000 = 0 ∧ read (busy.serve (.read 0x40000 .b32)) 0x014 = 0x9 := by decide

theorem test_H6_refused_write : (write busy 0x40004 0x1234).om = [] ∧ read (write busy 0x40004 0x1234) 0x014 = 0x9 := by decide

theorem test_H7_refused_issue : (write busy 0x024 0).cl = busy.cl ∧ read (write busy 0x024 0) 0x024 = 0x01100000 := by decide

theorem test_H9_illegal : read State.reset 0x002 = 0 ∧ read State.reset 0x028 = 0 ∧ read State.reset 0x44000 = 0 ∧
    read (State.reset.serve (.read 0x44000 .b32)) 0x014 = 0x10 ∧
    read (State.reset.serve (.write 0x020 .b8 5)) 0x020 = 0 := by decide

theorem test_H11_H12_irq : let s := write { State.reset with status := ⟨false, true, false, false, false⟩ } 0x010 1
    s.irq = true ∧ (write s 0x014 2).irq = false := by decide

theorem test_H14_issue_keeps_err :
    read (write (write { State.reset with status := ⟨false, true, true, false, false⟩ } 0x020 0) 0x024 0) 0x014 = 0x5 := by
  decide

theorem test_H15_soft_reset : let s := write { busy with ie := true, om := [(0, 7)] } 0x010 3
    (read s 0x014, read s 0x010, s.om, s.xv 1) = (0, 0, [(0, 7)], 0) := by decide

theorem test_H17_set_wins :
    (next? (step { busy with agenda := [.sameCycle (.write 0x014 .b32 0x6)] })).map (fun t => (read t 0x014, t.xv 1)) =
      some (0x2, -7) := by decide

theorem test_power_on : (next? (step { busy with rstN := false, agenda := [.rstHigh [(2, 5), (4096, 9)]] })).map
    (fun t => (read t 0x014, read t 0x40008, t.cl, t.om)) = some (0, 5, 0, [(8, 5)]) := by decide

theorem test_access_in_reset : next? (step { State.reset with rstN := false, agenda := [.host (.read 0 .b32)] }) = none := by
  decide

theorem test_aperture_decode : (Config.mk 16 256 4096 0x80000).offsetOf 0x80014 = some 0x014 ∧
    (Config.mk 16 256 4096 0x80000).offsetOf 0x100000 = none := by decide

/-! Assembler (R310, R311, R313). -/

theorem test_asm_add : Asm.line "ADD x3, x1, x2 ; sum".toList = some [.add 3 1 2] := by decide

theorem test_asm_shl : (Asm.line "SHL x4, x4, -5".toList).map (List.map encode) = some [0x2C440000FFFFFFFB] := by decide

theorem test_asm_ldmag : (Asm.line "LDMAG x2, 16, 3, -1".toList).map (List.map encode) = some [0x0220000300030010] := by decide

theorem test_asm_hex_immediate : Asm.line "LDI x1, 0xFFFFFFFF".toList = some [.ldi 1 0xFFFFFFFF] ∧
    Asm.line "LDI x1, 4294967295".toList = none := by decide

theorem test_asm_pseudo : Asm.line "SETSIGN x3, x4, -1".toList = some [.abs 3 4, .neg 3 3] ∧
    Asm.line "MODMUL x3, x1, x2, x3".toList = none ∧ Asm.line "SHLW x2, x1, 3".toList = some [.shl 2 1 96] := by decide
/-! Witnesses: for each statement with hypotheses, a state and operands that meet them, at the boundaries of its clauses. -/

/-- A build with 4 registers of one word and 8 OM words, holding a in x1 and b in x2. -/
def small (a b : Int) : State :=
  (({ State.reset with cfg := ⟨4, 1, 8, 0⟩ } : State).setX 1 a).setX 2 b

theorem small_inv {a b : Int} (ha : a.natAbs < 2 ^ 32) (hb : b.natAbs < 2 ^ 32) : (small a b).Inv := by
  have h0 : ({ State.reset with cfg := ⟨4, 1, 8, 0⟩ } : State).Inv :=
    { cfg := by decide
      regs := fun r => by
        show ((Vector.replicate 16 BigReg.zero).get r).Canonical 1
        rw [get_replicate_zero]; exact BigReg.canonical_zero 1
      slots := fun r _ => get_replicate_zero r
      memWf := by decide
      memBelow := by decide
      busyDone := by decide
      latch := by decide
      lasterr := .inl ⟨rfl, rfl⟩
      held := by intro h; cases h }
  have h1 := inv_setX (rd := 1) (v := a) h0 rfl (by decide) (by simpa [wordBase] using ha)
  exact inv_setX (rd := 2) (v := b) h1 rfl (show 2 < 4 by decide) (by simpa [wordBase] using hb)

/-- The state after a command. -/
def after (i : Instr) (s : State) : State := (next? (exec i s)).getD s

theorem exec_after (i : Instr) (s : State) : exec i s = .next (after i s) := by
  obtain ⟨t, h, _⟩ := exec_effect i s
  simp [after, next?, h]

/-- The state after a step that goes on. -/
def stepped (s : State) : State := (next? (step s)).getD s

theorem step_stepped {s : State} (h : (next? (step s)).isSome = true) : step s = .next (stepped s) := by
  unfold stepped
  cases hs : step s with
  | next t => rfl
  | fault r => rw [hs] at h; cases h
  | refused r => rw [hs] at h; cases h

/-! Encoding. -/

theorem witness_DecodeOfEncode : (Instr.divrem 15 14 15 0).wellFormed 16 = true ∧ (Instr.add 1 1 0).wellFormed 2 = true := by
  decide

theorem witness_EncodeOfDecode : decode 8 0x1071200000000000 = .ok (.add 7 1 2) := by rfl

theorem witness_IllegalOrder_opcode : ∀ o : Opcode, o.byte ≠ (0x0600000000000000 : BitVec 64).extractLsb' 56 8 := by
  intro o; cases o <;> decide

theorem witness_IllegalOrder_unused : Opcode.byte .add = (0x1031200000000001 : BitVec 64).extractLsb' 56 8 ∧
    (0x1031200000000001 : BitVec 64) &&& (Opcode.format .add).mask &&& 0x00FFFFFFFFFFFFFF ≠ 0 := by decide

theorem witness_IllegalOrder_register : Opcode.byte .add = (0x1081200000000000 : BitVec 64).extractLsb' 56 8 ∧
    (0x1081200000000000 : BitVec 64) &&& (Opcode.format .add).mask &&& 0x00FFFFFFFFFFFFFF = 0 ∧
    ∃ r ∈ (Opcode.build .add 0x1081200000000000).regs, 8 ≤ r.val := by decide

theorem witness_IllegalOrder_same : Opcode.byte .divrem = (0x1A31230000000000 : BitVec 64).extractLsb' 56 8 ∧
    (0x1A31230000000000 : BitVec 64) &&& (Opcode.format .divrem).mask &&& 0x00FFFFFFFFFFFFFF = 0 ∧
    (∀ r ∈ (Opcode.build .divrem 0x1A31230000000000).regs, r.val < 4) ∧
    (0x1A31230000000000 : BitVec 64).extractLsb' 52 4 = (0x1A31230000000000 : BitVec 64).extractLsb' 40 4 := by decide

theorem witness_IllegalOrder_ok : Opcode.byte .divrem = (0x1A30210000000000 : BitVec 64).extractLsb' 56 8 ∧
    (0x1A30210000000000 : BitVec 64) &&& (Opcode.format .divrem).mask &&& 0x00FFFFFFFFFFFFFF = 0 ∧
    (∀ r ∈ (Opcode.build .divrem 0x1A30210000000000).regs, r.val < 4) ∧
    (0x1A30210000000000 : BitVec 64).extractLsb' 52 4 ≠ (0x1A30210000000000 : BitVec 64).extractLsb' 40 4 := by decide

/-! The step. -/

theorem witness_StepRunsDecoded : busy.rstN = true ∧ busy.status.busy = true ∧ busy.agenda = [] ∧
    decode busy.cfg.nbr busy.cl = .ok (.ldi 1 0xFFFFFFF9) := ⟨rfl, rfl, rfl, rfl⟩

theorem witness_StepRunsDecoded_agenda : let s := { busy with agenda := [.complete, .rstLow] }
    s.rstN = true ∧ s.status.busy = true ∧ s.agenda = .complete :: [.rstLow] ∧
      decode s.cfg.nbr s.cl = .ok (.ldi 1 0xFFFFFFF9) := ⟨rfl, rfl, rfl, rfl⟩

/-- A busy block of 8 registers with a word in its latch. -/
def latched (c : BitVec 64) : State := { busy with cfg := ⟨8, 256, 4096, 0⟩, cl := c }

theorem witness_IllegalCompletes : (latched 0).rstN = true ∧ (latched 0).status.busy = true ∧ (latched 0).agenda = [] ∧
    decode (latched 0x0600000000000000).cfg.nbr (latched 0x0600000000000000).cl = .error .undefinedOpcode ∧
    decode (latched 0x1031200100000000).cfg.nbr (latched 0x1031200100000000).cl = .error .unusedField ∧
    decode (latched 0x1081200000000000).cfg.nbr (latched 0x1081200000000000).cl = .error .badRegister ∧
    decode (latched 0x1A31230000000000).cfg.nbr (latched 0x1A31230000000000).cl = .error .sameDest :=
  ⟨rfl, rfl, rfl, rfl, rfl, rfl, rfl⟩

theorem witness_PlacedWordRuns : (Instr.add 3 1 2).wellFormed (small 1 2).cfg.nbr = true := by decide

theorem witness_IdleWaits : State.reset.status.busy = false ∧ State.reset.agenda = [] ∧
    ({ State.reset with agenda := [.complete] } : State).agenda = .complete :: [] := by decide

theorem witness_CommandCompletes : (Config.mk 2 1 1 0).Legal ∧ (Config.mk 16 65535 65536 0x80000).Legal ∧
    State.reset.cfg.Legal := by decide

theorem witness_ErrorTable : (small 3 0).Inv ∧ exec (.pow 2 1 0xFFFFFFFF) (small 3 0) = .next (after (.pow 2 1 0xFFFFFFFF) (small 3 0)) ∧
    (after (.pow 2 1 0xFFFFFFFF) (small 3 0)).lasterr.code ≠ 0 :=
  ⟨small_inv (by decide) (by decide), exec_after _ _, by decide⟩

/-! Transfer commands. -/

theorem witness_NopAndLoadImmediate : State.reset.cl = encode .nop ∧
    (0x0000000400000000 : BitVec 64).extractLsb' 56 8 = 0x00 ∧ (0x0000000400000000 : BitVec 64) ≠ 0 := by decide

/-- The small build with OM[6] = 1 and OM[7] = w. -/
def loaded (w : Word) (hi : Word) : State := { small 0 0 with om := Memory.ofContents 8 [(6, hi), (7, w)] }

theorem witness_LoadMagnitude_range : (loaded 5 1).cfg.omw < (7 : BitVec 16).toNat + (2 : BitVec 16).toNat := by decide

theorem witness_LoadMagnitude_sign : (6 : BitVec 16).toNat + (2 : BitVec 16).toNat ≤ (loaded 5 1).cfg.omw ∧
    (0b10 : BitVec 2) = 0b10 := by decide

theorem witness_LoadMagnitude_mismatch : (6 : BitVec 16).toNat + (2 : BitVec 16).toNat ≤ (loaded 5 1).cfg.omw ∧
    (loaded 5 1).omValue 6 2 ≠ 0 ∧ (0b01 : BitVec 2) ≠ 0b10 ∧ (0b01 : BitVec 2) ≠ 0b00 ∧ (loaded 5 1).omValue 8 0 = 0 := by
  decide

theorem witness_LoadMagnitude_fits : ((0b11 : BitVec 2) = 0b00 ↔ (loaded 0xFFFFFFFF 0).omValue 6 2 = 0) ∧
    ((0b11 : BitVec 2).toInt * ((loaded 0xFFFFFFFF 0).omValue 6 2 : Int)).natAbs < wordBase ^ (loaded 0xFFFFFFFF 0).cfg.maxw := by
  decide

theorem witness_LoadMagnitude_capacity : ((0b01 : BitVec 2) = 0b00 ↔ (loaded 0 1).omValue 6 2 = 0) ∧
    wordBase ^ (loaded 0 1).cfg.maxw ≤ ((0b01 : BitVec 2).toInt * ((loaded 0 1).omValue 6 2 : Int)).natAbs := by decide

theorem witness_StoreMagnitude : Memory.wf (small 5 0).om ∧ (5 : Nat) < wordBase ^ 1 ∧
    (∀ k, (5 : Nat) < wordBase ^ k → 1 ≤ k) ∧ ((small 5 0).xv 1).natAbs = 5 ∧
    (small 5 0).cfg.omw < (8 : BitVec 16).toNat + 1 ∧ (7 : BitVec 16).toNat + 1 ≤ (small 5 0).cfg.omw :=
  ⟨by decide, by decide, fun k h => by cases k with | zero => simp at h | succ n => omega, by decide, by decide, by decide⟩

theorem witness_StoreTwosComplement : Memory.wf (small (2 ^ 31) 0).om ∧ bitlen ((small (2 ^ 31) 0).xv 1) / 32 + 1 = 2 ∧
    (small (2 ^ 31) 0).cfg.omw < (7 : BitVec 16).toNat + 2 ∧ (6 : BitVec 16).toNat + 2 ≤ (small (2 ^ 31) 0).cfg.omw := by decide

theorem witness_StoreThenLoad : let s := small (-5) 0
    let t := after (.stmag 1 7) s
    let u := after (.ldmag 3 7 (BitVec.ofNat 16 (words (s.xv 1).natAbs).length) (BitVec.ofInt 2 (s.xv 1).sign)) t
    s.Inv ∧ t.lasterr.code = 0 ∧ exec (.stmag 1 7) s = .next t ∧
      exec (.ldmag 3 7 (BitVec.ofNat 16 (words (s.xv 1).natAbs).length) (BitVec.ofInt 2 (s.xv 1).sign)) t = .next u :=
  ⟨small_inv (by decide) (by decide), by decide, exec_after _ _, exec_after _ _⟩

theorem witness_MoveAbsNeg_ReadQueries : (small (-(2 ^ 32 - 1)) (2 ^ 32 - 1)).Inv := small_inv (by decide) (by decide)

/-! Arithmetic: the last value that fits one word, and the first that does not. -/

theorem witness_AddSub : ((small (2 ^ 32 - 2) 1).xv 1 + (small (2 ^ 32 - 2) 1).xv 2).natAbs < wordBase ^ (small (2 ^ 32 - 2) 1).cfg.maxw ∧
    wordBase ^ (small (2 ^ 32 - 1) 1).cfg.maxw ≤ ((small (2 ^ 32 - 1) 1).xv 1 + (small (2 ^ 32 - 1) 1).xv 2).natAbs ∧
    ((small (-1) (2 ^ 32 - 2)).xv 1 - (small (-1) (2 ^ 32 - 2)).xv 2).natAbs < wordBase ^ (small (-1) (2 ^ 32 - 2)).cfg.maxw ∧
    wordBase ^ (small (-1) (2 ^ 32 - 1)).cfg.maxw ≤ ((small (-1) (2 ^ 32 - 1)).xv 1 - (small (-1) (2 ^ 32 - 1)).xv 2).natAbs := by
  decide

theorem witness_MulSqr : ((small 65535 65537).xv 1 * (small 65535 65537).xv 2).natAbs < wordBase ^ (small 65535 65537).cfg.maxw ∧
    wordBase ^ (small 65536 65536).cfg.maxw ≤ ((small 65536 65536).xv 1 * (small 65536 65536).xv 2).natAbs ∧
    ((small 65535 0).xv 1 * (small 65535 0).xv 1).natAbs < wordBase ^ (small 65535 0).cfg.maxw := by decide

theorem witness_Power : (small 2 0).cfg.Legal ∧ (0xFFFFFFFF : BitVec 32).toInt < 0 ∧ 0 ≤ (31 : BitVec 32).toInt ∧
    ((small 2 0).xv 1 ^ (31 : BitVec 32).toInt.toNat).natAbs < wordBase ^ (small 2 0).cfg.maxw ∧
    wordBase ^ (small 2 0).cfg.maxw ≤ ((small 2 0).xv 1 ^ (32 : BitVec 32).toInt.toNat).natAbs := by decide

theorem witness_Division : (small 7 0).xv 2 = 0 ∧ (small 7 (-1)).xv 2 ≠ 0 := by decide

theorem witness_DivisionIdentity : (3 : Reg) ≠ 2 ∧ (small (-7) 2).xv 2 ≠ 0 := by decide

theorem witness_Residue : (small 7 0).xv 2 ≤ 0 ∧ 0 < (small (-7) 1).xv 2 := by decide

theorem witness_ModularPower : (small 0 0).xv 3 ≤ 0 ∧ 0 < (small 1 (-1)).xv 1 ∧ (small 1 (-1)).xv 2 < 0 ∧
    0 < (small 1 0).xv 1 ∧ 0 ≤ (small 1 0).xv 2 := by decide

theorem witness_ModmulExpansion : let s := ({ State.reset with cfg := ⟨5, 1, 8, 0⟩ } : State).setX 1 6 |>.setX 2 7 |>.setX 4 5
    let t := after (.mul 3 1 2) s
    let u := after (.mod 3 3 4) t
    (3 : Reg) ≠ 4 ∧ exec (.mul 3 1 2) s = .next t ∧ t.lasterr.code = 0 ∧ exec (.mod 3 3 4) t = .next u ∧ u.lasterr.code = 0 :=
  ⟨by decide, exec_after _ _, by decide, exec_after _ _, by decide⟩

/-! Bitwise commands and shifts. -/

theorem witness_BitwiseTwo_fits : let s := small (-(2 ^ 32 - 1)) (-3)
    s.Inv ∧ ((s.xv 1).land (s.xv 2)).natAbs < wordBase ^ s.cfg.maxw ∧ ((s.xv 1).lor (s.xv 2)).natAbs < wordBase ^ s.cfg.maxw ∧
      ((s.xv 1).xor (s.xv 2)).natAbs < wordBase ^ s.cfg.maxw ∧
      (((small 6 (-3)).xv 1).land ((small 6 (-3)).xv 2).lnot).natAbs < wordBase ^ (small 6 (-3)).cfg.maxw :=
  ⟨small_inv (by decide) (by decide), by decide, by decide, by decide, by decide⟩

theorem witness_BitwiseTwo_capacity : let s := small (-(2 ^ 32 - 1)) (-2)
    let t := small (-1) (2 ^ 32 - 1)
    let u := small (-(2 ^ 32 - 1)) 1
    wordBase ^ s.cfg.maxw ≤ ((s.xv 1).land (s.xv 2)).natAbs ∧ wordBase ^ t.cfg.maxw ≤ ((t.xv 1).xor (t.xv 2)).natAbs ∧
      wordBase ^ u.cfg.maxw ≤ ((u.xv 1).land (u.xv 2).lnot).natAbs := by decide

theorem witness_BitwiseTwo_or_capacity : let s := (small 0 0).setX 1 (2 ^ 32)
    wordBase ^ s.cfg.maxw ≤ ((s.xv 1).lor (s.xv 2)).natAbs := by decide

theorem witness_NotAndClearBit : (-(small (2 ^ 32 - 2) 0).xv 1 - 1).natAbs < wordBase ^ (small (2 ^ 32 - 2) 0).cfg.maxw ∧
    wordBase ^ (small (2 ^ 32 - 1) 0).cfg.maxw ≤ (-(small (2 ^ 32 - 1) 0).xv 1 - 1).natAbs ∧
    (0xFFFFFFFF : BitVec 32).toInt < 0 ∧ 0 ≤ (0 : BitVec 32).toInt ∧
    (((small (-1) 0).xv 1).land (2 ^ (31 : BitVec 32).toInt.toNat : Int).lnot).natAbs < wordBase ^ (small (-1) 0).cfg.maxw ∧
    wordBase ^ (small (-1) 0).cfg.maxw ≤ (((small (-1) 0).xv 1).land (2 ^ (32 : BitVec 32).toInt.toNat : Int).lnot).natAbs := by
  decide

theorem witness_BitCounts : (small (-(2 ^ 32 - 1)) 0).Inv := small_inv (by decide) (by decide)

theorem witness_Shifts : (0x80000000 : BitVec 32).toInt = -2 ^ 31 ∧ 0 ≤ (31 : BitVec 32).toInt ∧
    ((small 1 0).xv 1 * 2 ^ (31 : BitVec 32).toInt.toNat).natAbs < wordBase ^ (small 1 0).cfg.maxw ∧
    wordBase ^ (small 1 0).cfg.maxw ≤ ((small 1 0).xv 1 * 2 ^ (32 : BitVec 32).toInt.toNat).natAbs ∧
    ((small (-1) 0).xv 1).fdiv (2 ^ (31 : BitVec 32).toInt.toNat) = -1 ∧
    (-2 ^ 31 < (0x80000001 : BitVec 32).toInt ∧ (0x80000001 : BitVec 32).toInt < 0) ∧
    (-2 ^ 31 < (0xFFFFFFFF : BitVec 32).toInt ∧ (0xFFFFFFFF : BitVec 32).toInt < 0) := by decide

theorem witness_ShiftInverse : (small 1 0).Inv ∧ 0 ≤ (31 : BitVec 32).toInt ∧
    exec (.shl 3 1 31) (small 1 0) = .next (after (.shl 3 1 31) (small 1 0)) ∧
    (after (.shl 3 1 31) (small 1 0)).lasterr.code = 0 ∧ (0x7FFFFFFF : BitVec 32).toInt ≠ -2 ^ 31 :=
  ⟨small_inv (by decide) (by decide), by decide, exec_after _ _, by decide, by decide⟩

theorem witness_Compare : (small 5 5).xv 1 = (small 5 5).xv 2 ∧ (small 1 (-1)).xv 1 ≠ (small 1 (-1)).xv 2 := by decide

/-! Frames. -/

theorem witness_RegisterFrame_ControlFrame : exec (.add 3 1 2) { small 1 2 with status := ⟨true, false, true, false, false⟩ } =
      .next (after (.add 3 1 2) { small 1 2 with status := ⟨true, false, true, false, false⟩ }) ∧
    (0 : Reg) ∉ (Instr.add 3 1 2).dests ∧ (Instr.add 3 1 2).writesRes = false := ⟨exec_after _ _, by decide, by decide⟩

theorem witness_MemoryFrame : Memory.wf (loaded 5 1).om ∧
    exec (.stmag 1 3) { small 5 0 with om := (loaded 5 1).om } = .next (after (.stmag 1 3) { small 5 0 with om := (loaded 5 1).om }) ∧
    (Instr.stmag 1 3).span { small 5 0 with om := (loaded 5 1).om } = some (3, 1) ∧ (Instr.cmp 1 2).span (small 5 0) = none :=
  ⟨by decide, exec_after _ _, by decide, by decide⟩

theorem witness_ResRegister : exec (.stmag 1 8) (small 5 0) = .next (after (.stmag 1 8) (small 5 0)) ∧
    (after (.stmag 1 8) (small 5 0)).lasterr.code ≠ 0 ∧ (Instr.nop).writesRes = false := ⟨exec_after _ _, by decide, rfl⟩

theorem witness_RegistersBounded : (small (2 ^ 32 - 1) 1).Inv ∧
    exec (.sub 3 1 2) (small (2 ^ 32 - 1) 1) = .next (after (.sub 3 1 2) (small (2 ^ 32 - 1) 1)) :=
  ⟨small_inv (by decide) (by decide), exec_after _ _⟩

/-! The host interface. -/

theorem witness_CtrlRegister_SoftReset : (0x00000001 : Word).getLsbD 1 = false ∧ (0x00000003 : Word).getLsbD 1 = true ∧
    ({ State.reset with ie := true } : State).ie = true := by decide

theorem witness_SoftResetAborts : (0x2 : Word).getLsbD 1 = true ∧
    ({ busy with agenda := [.host (.write 0x010 .b32 0x2), .complete] } : State).rstN = true ∧
    ({ busy with agenda := [.host (.write 0x010 .b32 0x2), .complete] } : State).agenda =
      [.host (.write 0x010 .b32 0x2), .complete] := by decide

theorem witness_CmdhiRegister : State.reset.status.busy = false ∧ busy.status.busy = true := by decide

theorem witness_ConstantRegisters : (Config.mk 16 65535 65536 0).Legal ∧ (Config.mk 2 1 1 0).Legal := by decide

theorem witness_ReadOnlyRegisters : (0x01C : BitVec 19) ∈ ([0x000, 0x004, 0x008, 0x00C, 0x018, 0x01C] : List (BitVec 19)) ∧
    (9 : Nat) < 10 := by decide

theorem witness_Interrupt : exec .nop { busy with ie := true } = .next (after .nop { busy with ie := true }) ∧
    State.reset.status.busy = false ∧ (0x2 : Word).getLsbD 1 = true := ⟨exec_after _ _, by decide, by decide⟩

theorem witness_HostOperandMemory : State.reset.status.busy = false ∧ Memory.wf State.reset.om ∧
    4095 < State.reset.cfg.omw ∧ (0x43FFC : BitVec 19).toNat = 0x40000 + 4 * 4095 := by decide

theorem witness_IllegalHostAccess : Size.b16 ≠ .b32 ∧ (0x022 : BitVec 19).toNat % 4 ≠ 0 ∧
    (0x28 ≤ (0x3FFFC : BitVec 19).toNat ∧ (0x3FFFC : BitVec 19).toNat < 0x40000) ∧
    0x40000 + 4 * State.reset.cfg.omw ≤ (0x44000 : BitVec 19).toNat := by decide

theorem witness_RefusedWhileBusy : busy.status.busy = true ∧ 4095 < busy.cfg.omw ∧
    (0x43FFC : BitVec 19).toNat = 0x40000 + 4 * 4095 ∧ (0x1 : Word).getLsbD 1 = false ∧ (0x2 : Word).getLsbD 1 = true := by
  decide

theorem witness_EveryRequestAnswered : ({ State.reset with agenda := [.host (.read 0x002 .b8)] } : State).rstN = true ∧
    ({ State.reset with agenda := [.host (.read 0x002 .b8)] } : State).agenda = .host (.read 0x002 .b8) :: [] := by decide

/-- ERR is 1 and the host is about to clear it. -/
def clearing : State := { State.reset with status := ⟨false, true, true, false, false⟩, agenda := [.host (.write 0x014 .b32 4)] }

theorem witness_ErrIsSticky : clearing.status.err = true ∧ step clearing = .next (stepped clearing) ∧
    (stepped clearing).status.err = false := ⟨rfl, step_stepped (by decide), by decide⟩

theorem witness_SameCycleSetWins : let s := { latched 0xFF00000000000000 with agenda := [.sameCycle (.write 0x014 .b32 0x6)] }
    s.cfg.Legal ∧ s.rstN = true ∧ s.status.busy = true ∧ s.agenda = .sameCycle (.write 0x014 .b32 0x6) :: [] ∧
      (stepped s).lasterr.code ≠ 0 := by decide

/-! Reset and the invariant. -/

theorem witness_PowerOn :
    let s : State := { small 5 0 with rstN := false, agenda := [.rstHigh ((List.range 8).map (fun a => (a, (7 : Word))))] }
    s.rstN = false ∧ s.agenda = .rstHigh ((List.range s.cfg.omw).map (fun a => (a, (fun _ => (7 : Word)) a))) :: [] := by decide

theorem witness_OnlyResetAccessStops :
    let s : State := { State.reset with rstN := false, agenda := [.host (.read 0 .b32)] }
    let t : State := { State.reset with rstN := false, agenda := [.sameCycle (.read 0 .b32)] }
    s.cfg.Legal ∧ s.rstN = false ∧ s.agenda = .host (.read 0 .b32) :: [] ∧ t.rstN = false ∧
      t.agenda = .sameCycle (.read 0 .b32) :: [] := by decide

theorem witness_ConfigurationFixed : step busy = .next (stepped busy) := step_stepped (by decide)

/-- `ADD x3, x1, x2` issued on the small build, which then overflows. -/
def smallBusy : State := (small (2 ^ 32 - 1) 1).issue 0x10312000

theorem witness_StepKeepsInvariant : smallBusy.Inv ∧ step smallBusy = .next (stepped smallBusy) ∧
    (stepped smallBusy).lasterr.word = 0x00011005 :=
  ⟨inv_issue (small_inv (by decide) (by decide)) rfl _, step_stepped (by decide), by decide⟩

end Sys2Proof.Tests
end

section
/-! What one command and one step can do, as rules to derive facts about every step from (20_memory.md R213, R214): the
inversion of `exec`, and the induction principle of `step`. -/

namespace Sys2Proof.Machine

/-- A completed command left one of the states of `Effect` (R1200). -/
theorem effect_of_exec {i : Instr} {s t : State} (h : exec i s = .next t) : Effect i s t := by
  obtain ⟨u, hu, he⟩ := exec_effect i s
  rw [h] at hu
  cases hu
  exact he

/-- What a host transaction, the engine and a change of rst_n keep, every event keeps. -/
theorem onEvent_preserves {P : State → Prop}
    (hserve : ∀ s q, s.rstN = true → P s → P (s.serve q))
    (hengine : ∀ s t, s.engineStep = .next t → P s → P t)
    (hdown : ∀ s, P s → P s.powerDown)
    (hon : ∀ s om, P s → P (s.powerOn om))
    {s t : State} {e : Event} (h : s.onEvent e = .next t) (hP : P s) : P t := by
  cases hr : s.rstN <;> cases e <;> simp only [State.onEvent, State.hostStep, hr] at h
  case true.host q => cases h; exact hserve s q hr hP
  case true.sameCycle q => exact hengine _ t h (hserve s q hr hP)
  case true.rstLow => cases h; exact hdown s hP
  case false.rstHigh om => cases h; exact hon s om hP
  case true.complete | false.complete => exact hengine s t h hP
  case true.rstHigh | false.rstLow => cases h; exact hP
  case false.host | false.sameCycle => cases h

/-- What the four kinds of event keep, and what does not depend on what is still to come, every step keeps. -/
theorem step_preserves {P : State → Prop}
    (hagenda : ∀ s l, P s → P { s with agenda := l })
    (hserve : ∀ s q, s.rstN = true → P s → P (s.serve q))
    (hengine : ∀ s t, s.engineStep = .next t → P s → P t)
    (hdown : ∀ s, P s → P s.powerDown)
    (hon : ∀ s om, P s → P (s.powerOn om))
    {s t : State} (h : step s = .next t) (hP : P s) : P t := by
  unfold step State.advance at h
  split at h
  · exact hengine s t h hP
  · exact onEvent_preserves hserve hengine hdown hon h (hagenda s _ hP)

/-- What the engine leaves meets the invariant. -/
theorem inv_of_engineStep {s t : State} (h : s.engineStep = .next t) (hs : s.Inv) : t.Inv := by
  obtain ⟨u, hu, huInv⟩ := engineStep_inv hs
  rw [h] at hu
  cases hu
  exact huInv

/-! The build. -/

theorem cfg_effect {i : Instr} {s t : State} (h : Effect i s t) : t.cfg = s.cfg := by cases h <;> rfl

theorem cfg_engineStep {s t : State} (h : s.engineStep = .next t) : t.cfg = s.cfg := by
  unfold State.engineStep State.execLatch at h
  split at h
  · split at h
    · exact cfg_effect (effect_of_exec h)
    · cases h; rfl
  · cases h; rfl

theorem cfg_writeReg (s : State) (r : HostReg) (w : Word) : (s.writeReg r w).cfg = s.cfg := by
  cases r <;> simp only [State.writeReg] <;> split <;> rfl

/-- A host read leaves the state as it is, or sets OVR or HERR (R206, R208, R210). -/
theorem hostRead_cases (s : State) (off : BitVec 19) (size : Size) :
    (s.hostRead off size).1 = s ∨ (s.hostRead off size).1 = { s with status := s.status.refuse } ∨
      (s.hostRead off size).1 = { s with status := s.status.illegalAccess } := by
  unfold State.hostRead
  split
  · exact .inl rfl
  · split
    · exact .inr (.inl rfl)
    · exact .inl rfl
  · exact .inr (.inr rfl)

theorem cfg_hostWrite (s : State) (off : BitVec 19) (size : Size) (w : Word) : (s.hostWrite off size w).cfg = s.cfg := by
  unfold State.hostWrite
  split
  · exact cfg_writeReg _ _ _
  · split <;> rfl
  · rfl

theorem cfg_serve (s : State) (q : HostReq) : (s.serve q).cfg = s.cfg := by
  cases q with
  | read off size =>
    change (s.hostRead off size).1.cfg = s.cfg
    obtain h | h | h := hostRead_cases s off size <;> rw [h]
  | write off size data => exact cfg_hostWrite s off size data

/-! What a command leaves. -/

theorem bounded_setX {s : State} {rd : Reg} {v : Int} (hs : Bounded s) (hv : v.natAbs < wordBase ^ s.cfg.maxw) :
    Bounded (s.setX rd v) := by
  intro r
  rw [State.xv_setX]
  split
  · exact hv
  · exact hs r

/-- R103: whatever a command does keeps every register within its capacity. -/
theorem bounded_effect {i : Instr} {s t : State} (hm : 0 < s.cfg.maxw) (hs : Bounded s) (h : Effect i s t) :
    Bounded t := by
  cases h with
  | err | nothing | res | store => exact hs
  | reg rd v _ hv => exact bounded_setX hs (hv hm hs)
  | reg2 rd rd2 v v2 _ _ hv hv2 => exact bounded_setX (bounded_setX hs (hv hm hs)) (hv2 hm hs)

/-- R114: a command that is not listed there, and one that errs, keeps RES. -/
theorem res_effect {i : Instr} {s t : State} (h : Effect i s t) (hn : i.writesRes = false ∨ t.lasterr.code ≠ 0) :
    t.res = s.res := by
  cases h with
  | err | nothing | reg | reg2 => rfl
  | res _ hw | store _ _ _ hw => simp [hw] at hn

/-- R1209: after a completion DONE is 1, so IRQ is IE. -/
theorem irq_effect {i : Instr} {s t : State} (h : Effect i s t) : t.irq = s.ie := by
  cases h <;> simp [State.irq]

theorem irq_serve_read (s : State) (off : BitVec 19) (size : Size) : (s.serve (.read off size)).irq = s.irq := by
  change (s.hostRead off size).1.irq = s.irq
  obtain h | h | h := hostRead_cases s off size <;> rw [h] <;> rfl

end Sys2Proof.Machine
end

section
/-! The host register block at its offsets (10_state.md R110 to R119): the bits a register reads, and what a write to it
does. -/

namespace Sys2Proof.Machine

/-! The registers that are put together from fields. -/

theorem ctrlWord_eq (b : Bool) : ctrlWord b = if b then 1 else 0 := by cases b <;> rfl

theorem Status.getLsbD_word (st : Status) (k : Nat) : st.word.getLsbD k =
    (decide (k = 0) && st.busy || decide (k = 1) && st.done || decide (k = 2) && st.err || decide (k = 3) && st.ovr ||
      decide (k = 4) && st.herr) := by
  simp only [Status.word, BitVec.getLsbD_append, BitVec.getLsbD_ofBool]
  match k with
  | 0 | 1 | 2 | 3 | 4 => simp
  | k + 5 => simp

theorem Status.write_eq (st : Status) (d : Word) : st.write d =
    ⟨st.busy, st.done && !d.getLsbD 1, st.err && !d.getLsbD 2, st.ovr && !d.getLsbD 3, st.herr && !d.getLsbD 4⟩ := by
  simp [Status.write, rw1c]

theorem LastErr.word_fields (e : LastErr) : e.word.extractLsb' 0 8 = e.code ∧ e.word.extractLsb' 8 8 = e.op ∧
    e.word.extractLsb' 16 8 = e.sub ∧ e.word.extractLsb' 24 8 = 0 := by
  unfold LastErr.word
  refine ⟨BitVec.extractLsb'_append_eq_right, ?_, ?_, ?_⟩ <;> rw [BitVec.extractLsb'_append_eq_of_le (by decide)]
  · exact BitVec.extractLsb'_append_eq_right
  · rw [BitVec.extractLsb'_append_eq_of_le (by decide)]; exact BitVec.extractLsb'_append_eq_right
  · rw [BitVec.extractLsb'_append_eq_of_le (by decide)]; exact BitVec.extractLsb'_append_eq_left

theorem cfgWord_fields (c : Config) : (cfgWord c).extractLsb' 0 16 = BitVec.ofNat 16 c.maxw ∧
    (cfgWord c).extractLsb' 16 5 = BitVec.ofNat 5 c.nbr ∧ (cfgWord c).extractLsb' 21 11 = 0 := by
  unfold cfgWord
  refine ⟨BitVec.extractLsb'_append_eq_right, ?_, ?_⟩ <;> rw [BitVec.extractLsb'_append_eq_of_le (by decide)]
  · exact BitVec.extractLsb'_append_eq_right
  · exact BitVec.extractLsb'_append_eq_left

theorem omsizeWord_fields (c : Config) : (omsizeWord c).extractLsb' 0 17 = BitVec.ofNat 17 c.omw ∧
    (omsizeWord c).extractLsb' 17 15 = 0 :=
  ⟨BitVec.extractLsb'_append_eq_right, BitVec.extractLsb'_append_eq_left⟩

/-! A write to each register. -/

theorem writeReg_ctrl_run (s : State) {d : Word} (h : d.getLsbD 1 = false) :
    s.writeReg .ctrl d = { s with ie := d.getLsbD 0 } := by simp only [State.writeReg, h, Bool.false_eq_true, if_false]

theorem writeReg_ctrl_reset (s : State) {d : Word} (h : d.getLsbD 1 = true) : s.writeReg .ctrl d = s.softReset := by
  simp only [State.writeReg, h, if_true]

theorem writeReg_status (s : State) (d : Word) : s.writeReg .status d = { s with status :=
    ⟨s.status.busy, s.status.done && !d.getLsbD 1, s.status.err && !d.getLsbD 2, s.status.ovr && !d.getLsbD 3,
      s.status.herr && !d.getLsbD 4⟩ } := by
  rw [State.writeReg, Status.write_eq]

theorem writeReg_cmdhi_idle {s : State} (h : s.status.busy = false) (d : Word) : s.writeReg .cmdhi d = s.issue d := by
  simp only [State.writeReg, h, Bool.false_eq_true, if_false]

theorem writeReg_cmdhi_busy {s : State} (h : s.status.busy = true) (d : Word) :
    s.writeReg .cmdhi d = { s with status := { s.status with ovr := true } } := by
  simp [State.writeReg, h, Status.refuse, rw1c]

/-- The registers marked RO in the table of R110. -/
def HostReg.readOnly : List HostReg := [.id, .version, .cfg, .omsize, .lasterr, .res]

theorem writeReg_readOnly (s : State) {r : HostReg} (h : r ∈ HostReg.readOnly) (d : Word) : s.writeReg r d = s := by
  fin_cases h <;> rfl

/-! The host access at the offset of a register. -/

theorem serve_write_ctrl_run (s : State) {d : Word} (h : d.getLsbD 1 = false) :
    s.serve (.write 0x010 .b32 d) = { s with ie := d.getLsbD 0, response := .ack } :=
  (serve_write_reg s .ctrl d).trans (by rw [writeReg_ctrl_run s h])

theorem serve_write_ctrl_reset (s : State) {d : Word} (h : d.getLsbD 1 = true) :
    s.serve (.write 0x010 .b32 d) = { s.softReset with response := .ack } :=
  (serve_write_reg s .ctrl d).trans (by rw [writeReg_ctrl_reset s h])

theorem serve_write_status (s : State) (d : Word) : s.serve (.write 0x014 .b32 d) = { s with
    status := ⟨s.status.busy, s.status.done && !d.getLsbD 1, s.status.err && !d.getLsbD 2,
      s.status.ovr && !d.getLsbD 3, s.status.herr && !d.getLsbD 4⟩, response := .ack } :=
  (serve_write_reg s .status d).trans (by rw [writeReg_status])

theorem serve_write_cmdlo (s : State) (d : Word) :
    s.serve (.write 0x020 .b32 d) = { s with cmdLo := d, response := .ack } := serve_write_reg s .cmdlo d

theorem serve_write_cmdhi_idle {s : State} (h : s.status.busy = false) (d : Word) :
    s.serve (.write 0x024 .b32 d) = { s.issue d with response := .ack } :=
  (serve_write_reg s .cmdhi d).trans (by rw [writeReg_cmdhi_idle h])

theorem serve_write_cmdhi_busy {s : State} (h : s.status.busy = true) (d : Word) :
    s.serve (.write 0x024 .b32 d) = { s with status := { s.status with ovr := true }, response := .ack } :=
  (serve_write_reg s .cmdhi d).trans (by rw [writeReg_cmdhi_busy h])

/-- The ten registers stand at the first ten word offsets (R110). -/
theorem exists_reg_at {k : Nat} (h : k < 10) : ∃ r : HostReg, r.offset = 4 * k := by
  have hall : ∀ j < 10, ∃ r ∈ HostReg.all, r.offset = 4 * j := by decide
  obtain ⟨r, _, hr⟩ := hall k h
  exact ⟨r, hr⟩

end Sys2Proof.Machine
end

section
/-! The statements of the family 10_state.md, by tier. -/

namespace Sys2Proof.Machine

/-- Settles O60: the host, the engine and the resets each keep the invariant, so every step does. -/
theorem stepKeepsInvariant : Obligations.StepKeepsInvariant := by
  intro s t hs h
  exact step_preserves (fun _ l hu => inv_agenda hu l) (fun _ q hr hu => inv_serve hu hr q)
    (fun _ _ => inv_of_engineStep) (fun _ => inv_powerDown) (fun _ om hu => inv_powerOn hu om) h hs

/-- Settles O36: a command leaves the old state with registers, OM or RES written, and its completion record. -/
theorem controlFrame : Obligations.ControlFrame := by
  intro i s t h
  cases effect_of_exec h <;> simp

/-- Settles O37, from what a command can do to RES and from the accesses at its offset. -/
theorem resRegister : Obligations.ResRegister :=
  ⟨fun _ _ _ h hn => res_effect (effect_of_exec h) hn, fun _ => rfl,
    fun s d => ⟨serve_read_reg s .res, serve_write_reg s .res d⟩, rfl⟩

/-- Settles O38: every value a command writes fits where its sources do. -/
theorem registersBounded : Obligations.RegistersBounded := by
  intro s hs
  exact ⟨hs.xv_lt, fun i t h => bounded_effect hs.maxw_pos hs.xv_lt (effect_of_exec h)⟩

/-- Settles O48: DONE is 1 after every completion, and each of the host's writes lowers one side of the conjunction. -/
theorem interrupt : Obligations.Interrupt := by
  refine ⟨rfl, fun _ => rfl, irq_serve_read, fun _ _ _ h => irq_effect (effect_of_exec h), ?_, ?_, ?_⟩
  · intro s d hidle
    rw [serve_write_cmdhi_idle hidle]
    simp [State.irq]
  · intro s d hclear
    rw [serve_write_status, hclear]
    simp [State.irq]
  · intro s d
    cases hsrst : d.getLsbD 1
    · rw [serve_write_ctrl_run s hsrst]
      simp [State.irq]
    · rw [serve_write_ctrl_reset s hsrst]
      simp [State.irq]

/-- Settles O58: no kind of event writes `cfg`. -/
theorem configurationFixed : Obligations.ConfigurationFixed := by
  intro s t h
  exact step_preserves (P := fun u => u.cfg = s.cfg) (fun _ _ hu => hu) (fun u q _ hu => (cfg_serve u q).trans hu)
    (fun _ _ hv hu => (cfg_engineStep hv).trans hu) (fun _ hu => hu) (fun _ _ hu => hu) h rfl

/-- Settles O39, by the two cases of SRST. -/
theorem ctrlRegister : Obligations.CtrlRegister := by
  refine ⟨fun s d => ⟨?_, serve_write_ctrl_run s, serve_write_ctrl_reset s, ?_⟩, rfl⟩
  · rw [← ctrlWord_eq]; exact serve_read_reg s .ctrl
  · intro hie; rw [State.irq, hie, Bool.true_and]

/-- Settles O42: the bits of the word the five flags make up. -/
theorem statusRegister : Obligations.StatusRegister := by
  refine fun s d => ⟨⟨s.status.word, serve_read_reg s .status, ?_⟩, serve_write_status s d⟩
  simp only [Status.getLsbD_word]
  refine ⟨by simp, by simp, by simp, by simp, by simp, fun k hk => ?_⟩
  match k with
  | k + 5 => simp

/-- Settles O43: the fields of the word LASTERR makes up. -/
theorem lasterrRegister : Obligations.LasterrRegister :=
  ⟨fun s d => ⟨⟨s.lasterr.word, serve_read_reg s .lasterr, s.lasterr.word_fields⟩, serve_write_reg s .lasterr d⟩, rfl⟩

/-- Settles O44: the write to CMDLO takes no look at BUSY. -/
theorem cmdloRegister : Obligations.CmdloRegister := by
  refine ⟨fun s d => ⟨serve_write_cmdlo s d, ?_⟩, rfl⟩
  rw [serve_write_cmdlo]
  exact serve_read_reg { s with cmdLo := d, response := .ack } .cmdlo

/-- Settles O45, by the two cases of BUSY. -/
theorem cmdhiRegister : Obligations.CmdhiRegister :=
  ⟨fun s d => ⟨fun h => serve_write_cmdhi_idle h d, fun h => serve_write_cmdhi_busy h d, serve_read_reg s .cmdhi⟩, rfl⟩

/-- Settles O46: the parameters of a legal build fit their fields. -/
theorem constantRegisters : Obligations.ConstantRegisters := by
  intro s hs
  obtain ⟨_, hnbr, _, hmaxw, _, homw, _⟩ := hs
  obtain ⟨hfMaxw, hfNbr, hfTop⟩ := cfgWord_fields s.cfg
  obtain ⟨hfOmw, hfHigh⟩ := omsizeWord_fields s.cfg
  refine ⟨serve_read_reg s .id, serve_read_reg s .version, cfgWord s.cfg, omsizeWord s.cfg, serve_read_reg s .cfg, ?_, ?_,
    hfTop, serve_read_reg s .omsize, ?_, hfHigh⟩
  · rw [hfMaxw, BitVec.toNat_ofNat, Nat.mod_eq_of_lt (by omega)]
  · rw [hfNbr, BitVec.toNat_ofNat, Nat.mod_eq_of_lt (by omega)]
  · rw [hfOmw, BitVec.toNat_ofNat, Nat.mod_eq_of_lt (by omega)]

/-- Settles O47: each listed offset is that of a read-only register, and each of the first ten words is a register. -/
theorem readOnlyRegisters : Obligations.ReadOnlyRegisters := by
  refine ⟨fun s d off hoff => ?_, fun s k hk => ?_⟩
  · obtain ⟨r, hr, rfl⟩ : ∃ r ∈ HostReg.readOnly, BitVec.ofNat 19 r.offset = off := List.mem_map.1 hoff
    rw [serve_write_reg, writeReg_readOnly s hr]
  · obtain ⟨r, hr⟩ := exists_reg_at hk
    exact ⟨s.readReg r, by rw [← hr, serve_read_reg]⟩

/-- Settles O55: every slot of the register file holds the canonical zero, and the rest computes. -/
theorem resetValues : Obligations.ResetValues := by
  refine ⟨fun r => ?_, rfl, rfl, rfl, rfl, rfl, rfl, rfl, rfl, rfl, rfl⟩
  have hx : State.reset.x.get r = BigReg.zero := get_replicate_zero r
  rw [State.xv, hx]
  exact ⟨rfl, rfl, rfl⟩

/-- Settles O59: every register is the canonical zero, and OM lists nothing. -/
theorem resetMeetsInvariant : Obligations.ResetMeetsInvariant where
  cfg := by decide
  regs r := by rw [State.reset, get_replicate_zero]; exact BigReg.canonical_zero _
  slots r _ := get_replicate_zero r
  memWf := by decide
  memBelow := by decide
  busyDone := by decide
  latch := by decide
  lasterr := .inl ⟨rfl, rfl⟩
  held := by decide

end Sys2Proof.Machine
end

section
/-! The step by its next event, and what the engine does with the latch (20_memory.md R213, R214); the word of a well-formed
command decodes to it (30_encoding.md R312). -/

namespace Sys2Proof

/-- The word of every command carries its opcode and its fields, whatever the format. -/
theorem Laws.Encoding.statement (i : Instr) : Laws.Encoding.Statement i := by
  cases i with
  | nop => exact Laws.Encoding.nop
  | ldi => exact Laws.Encoding.ldi ..
  | ldmag => exact Laws.Encoding.ldmag ..
  | stmag => exact Laws.Encoding.stmag ..
  | sttc => exact Laws.Encoding.sttc ..
  | mov => exact Laws.Encoding.mov ..
  | signum => exact Laws.Encoding.signum ..
  | maglen => exact Laws.Encoding.maglen ..
  | loword => exact Laws.Encoding.loword ..
  | add => exact Laws.Encoding.add ..
  | sub => exact Laws.Encoding.sub ..
  | mul => exact Laws.Encoding.mul ..
  | sqr => exact Laws.Encoding.sqr ..
  | pow => exact Laws.Encoding.pow ..
  | div => exact Laws.Encoding.div ..
  | rem => exact Laws.Encoding.rem ..
  | divrem => exact Laws.Encoding.divrem ..
  | mod => exact Laws.Encoding.mod ..
  | modpow => exact Laws.Encoding.modpow ..
  | and => exact Laws.Encoding.and ..
  | or => exact Laws.Encoding.or ..
  | xor => exact Laws.Encoding.xor ..
  | andnot => exact Laws.Encoding.andnot ..
  | not => exact Laws.Encoding.not ..
  | clrbit => exact Laws.Encoding.clrbit ..
  | bitlen => exact Laws.Encoding.bitlen ..
  | bitcnt => exact Laws.Encoding.bitcnt ..
  | shl => exact Laws.Encoding.shl ..
  | shr => exact Laws.Encoding.shr ..
  | cmp => exact Laws.Encoding.cmp ..
  | eq => exact Laws.Encoding.eq ..
  | abs => exact Laws.Encoding.abs ..
  | neg => exact Laws.Encoding.neg ..

theorem decode_encode {nbr : Nat} {i : Instr} (h : i.wellFormed nbr = true) : decode nbr (encode i) = .ok i := by
  obtain ⟨hop, hmask, hbuild⟩ := Laws.Encoding.statement i
  exact decode_of hop hmask hbuild h

end Sys2Proof

namespace Sys2Proof.Machine

theorem step_of_agenda_nil {s : State} (h : s.agenda = []) : step s = s.engineStep := by
  rw [step, State.advance, h]

theorem step_of_agenda_cons {s : State} {e : Event} {rest : List Event} (h : s.agenda = e :: rest) :
    step s = ({ s with agenda := rest } : State).onEvent e := by
  rw [step, State.advance, h]

theorem step_of_complete {s : State} {rest : List Event} (h : s.agenda = .complete :: rest) :
    step s = ({ s with agenda := rest } : State).engineStep := step_of_agenda_cons h

theorem step_of_host {s : State} {q : HostReq} {rest : List Event} (hr : s.rstN = true) (h : s.agenda = .host q :: rest) :
    step s = .next (({ s with agenda := rest } : State).serve q) := by
  rw [step_of_agenda_cons h, State.onEvent, State.hostStep, if_pos hr]

/-- With BUSY = 0 the completion is not enabled (R213). -/
theorem engineStep_idle {s : State} (h : s.status.busy = false) : s.engineStep = .next s := by
  rw [State.engineStep, h, Bool.and_false, if_neg Bool.false_ne_true]

theorem engineStep_busy {s : State} {i : Instr} (hr : s.rstN = true) (hb : s.status.busy = true)
    (hd : decode s.cfg.nbr s.cl = .ok i) : s.engineStep = exec i s := by
  rw [State.engineStep, hr, hb, Bool.and_self, if_pos rfl, State.execLatch, hd]

/-! A placed word (log 15). -/

/-- The two halves the host writes make up the word again (R116). -/
@[simp] theorem State.issueWord_cl (s : State) (c : BitVec 64) : (s.issueWord c).cl = c := by
  change c.extractLsb' 32 32 ++ c.extractLsb' 0 32 = c
  rw [BitVec.extractLsb'_append_extractLsb'_eq_extractLsb' (by omega)]
  exact BitVec.extractLsb'_eq_self

/-- The issued word completes before what was scheduled. -/
theorem step_issueWord {s : State} {c : BitVec 64} {i : Instr} (hd : decode s.cfg.nbr c = .ok i) :
    step (s.issueWord c) = exec i { s.issueWord c with agenda := s.agenda } := by
  have hlatch : decode s.cfg.nbr (s.issueWord c).cl = .ok i := by rw [State.issueWord_cl, hd]
  by_cases h : s.agenda = []
  · have hnil : (s.issueWord c).agenda = s.agenda := by rw [State.issueWord, if_pos h, h]
    rw [step_of_agenda_nil (hnil.trans h), ← hnil]
    exact engineStep_busy rfl rfl hlatch
  · have hcons : (s.issueWord c).agenda = .complete :: s.agenda := by rw [State.issueWord, if_neg h]
    rw [step_of_complete hcons]
    exact engineStep_busy rfl rfl hlatch

theorem withFetchWord_toNat (s : State) (c : BitVec 64) : s.withFetchWord 64 c.toNat = s.issueWord c := by
  rw [State.withFetchWord, Nat.mod_eq_of_lt c.isLt, BitVec.ofNat_toNat, BitVec.setWidth_eq]

end Sys2Proof.Machine
end

section
/-! What a host access does, by what it reaches and by BUSY (20_memory.md R201, R206, R210, R219), and what a command leaves
in OM (R200). -/

namespace Sys2Proof.Machine

theorem Status.refuse_eq (st : Status) : st.refuse = { st with ovr := true } := rfl

theorem Status.illegalAccess_eq (st : Status) : st.illegalAccess = { st with herr := true } := rfl

section
variable {s : State} {off : BitVec 19} {size : Size} {a : Nat}

theorem serve_read_om_idle (ht : target s.cfg off size = .om a) (hb : s.status.busy = false) :
    s.serve (.read off size) = { s with response := .data (Memory.readWord s.om a) } := by
  simp [State.serve, State.hostRead, ht, hb]

theorem serve_write_om_idle (ht : target s.cfg off size = .om a) (hb : s.status.busy = false) (d : Word) :
    s.serve (.write off size d) = { s with om := Memory.writeWord s.om a d, response := .ack } := by
  simp [State.serve, State.hostWrite, ht, hb]

theorem serve_read_om_busy (ht : target s.cfg off size = .om a) (hb : s.status.busy = true) :
    s.serve (.read off size) = { s with status := { s.status with ovr := true }, response := .data 0 } := by
  simp [State.serve, State.hostRead, ht, hb, Status.refuse_eq]

theorem serve_write_om_busy (ht : target s.cfg off size = .om a) (hb : s.status.busy = true) (d : Word) :
    s.serve (.write off size d) = { s with status := { s.status with ovr := true }, response := .ack } := by
  simp [State.serve, State.hostWrite, ht, hb, Status.refuse_eq]

theorem serve_read_illegal (ht : target s.cfg off size = .illegal) :
    s.serve (.read off size) = { s with status := { s.status with herr := true }, response := .data 0 } := by
  simp [State.serve, State.hostRead, ht, Status.illegalAccess_eq]

theorem serve_write_illegal (ht : target s.cfg off size = .illegal) (d : Word) :
    s.serve (.write off size d) = { s with status := { s.status with herr := true }, response := .ack } := by
  simp [State.serve, State.hostWrite, ht, Status.illegalAccess_eq]

end

/-- An access is illegal by its form, or by its offset (R203, R211). -/
theorem target_illegal {c : Config} {off : BitVec 19} {size : Size} (h : size ≠ .b32 ∨ off.toNat % 4 ≠ 0 ∨
    (0x28 ≤ off.toNat ∧ off.toNat < omOffset) ∨ omOffset + 4 * c.omw ≤ off.toNat) : target c off size = .illegal := by
  obtain hsize | halign | hhole := h
  · exact target_illegal_form (.inl hsize)
  · exact target_illegal_form (.inr halign)
  · by_cases hsize : size = .b32
    · rw [hsize]; exact target_illegal_hole hhole
    · exact target_illegal_form (.inl hsize)

/-! What is still to come. -/

theorem agenda_writeReg (s : State) (r : HostReg) (w : Word) : (s.writeReg r w).agenda = s.agenda := by
  cases r <;> simp only [State.writeReg] <;> split <;> rfl

theorem agenda_hostWrite (s : State) (off : BitVec 19) (size : Size) (w : Word) :
    (s.hostWrite off size w).agenda = s.agenda := by
  unfold State.hostWrite
  split
  · exact agenda_writeReg _ _ _
  · split <;> rfl
  · rfl

theorem agenda_serve (s : State) (q : HostReq) : (s.serve q).agenda = s.agenda := by
  cases q with
  | read off size =>
    change (s.hostRead off size).1.agenda = s.agenda
    obtain h | h | h := hostRead_cases s off size <;> rw [h]
  | write off size data => exact agenda_hostWrite s off size data

/-! What a command leaves in OM. -/

theorem om_effect_of_span_none {i : Instr} {s t : State} (h : Effect i s t) (hn : i.span s = none) : t.om = s.om := by
  cases h with
  | err | nothing | res | reg | reg2 => rfl
  | store _ _ _ _ hs => rw [hn] at hs; cases hs

/-- Outside its span a command leaves every byte of OM, whether it commits or errs. -/
theorem readByte_effect_other {i : Instr} {s t : State} (hm : Memory.wf s.om) (h : Effect i s t) {a n b : Nat}
    (hspan : i.span s = some (a, n)) (hb : b < 4 * a ∨ 4 * (a + n) ≤ b) :
    Memory.readByte t.om b = Memory.readByte s.om b := by
  cases h with
  | err | nothing | res | reg | reg2 => rfl
  | store a' X _ _ hs =>
    rw [hspan] at hs
    cases hs
    exact Memory.readByte_write_other hm X (by omega)

end Sys2Proof.Machine
end

section
/-! The statements of the family 20_memory.md, by tier. -/

namespace Sys2Proof.Machine

/-- Settles O9: the placed word stands in the latch of a busy block, and it decodes to the command it encodes. -/
theorem placedWordRuns : Obligations.PlacedWordRuns := by
  intro s i hi
  rw [withFetchWord_toNat]
  exact step_issueWord (decode_encode hi)

/-- Settles O35, from what a command can do to OM. -/
theorem memoryFrame : Obligations.MemoryFrame := by
  intro i s t hm h
  have heff := effect_of_exec h
  exact ⟨fun hn _ => by rw [om_effect_of_span_none heff hn], fun _ _ hs _ hb => readByte_effect_other hm heff hs hb⟩

/-- Settles O49: the offset reaches OM[a], and a written word is the only one that reads otherwise. -/
theorem hostOperandMemory : Obligations.HostOperandMemory := by
  intro s off a d hidle hm ha hoff
  have ht : target s.cfg off .b32 = .om a := target_om ha hoff
  refine ⟨serve_read_om_idle ht hidle, _, serve_write_om_idle ht hidle d, ?_, fun b hb => ?_⟩
  · rw [Memory.readWord_writeWord hm, if_pos rfl]
  · rw [Memory.readWord_writeWord hm, if_neg hb]

/-- Settles O50: such an access reaches nothing. -/
theorem illegalHostAccess : Obligations.IllegalHostAccess := by
  intro s off size d h
  have ht : target s.cfg off size = .illegal := target_illegal h
  exact ⟨serve_read_illegal ht, serve_write_illegal ht d⟩

/-- Settles O51: only OM and CMDHI look at BUSY. -/
theorem refusedWhileBusy : Obligations.RefusedWhileBusy := by
  intro s off a d hb
  refine ⟨fun ha hoff => ?_, serve_write_cmdhi_busy hb d, serve_read_reg s, serve_write_ctrl_run s,
    serve_write_ctrl_reset s, ?_, serve_write_cmdlo s d⟩
  · have ht : target s.cfg off .b32 = .om a := target_om ha hoff
    exact ⟨serve_read_om_busy ht hb, serve_write_om_busy ht hb d⟩
  · rw [serve_write_status, hb]

/-- Settles O7: in both cases the step is the engine's, in a busy state with this latch. -/
theorem stepRunsDecoded : Obligations.StepRunsDecoded := by
  intro s i hr hb hd
  refine ⟨fun h => ?_, fun rest h => ?_⟩
  · rw [step_of_agenda_nil h, engineStep_busy hr hb hd]
  · rw [step_of_complete h]
    exact engineStep_busy hr hb hd

/-- Settles O10: in both cases the step is the engine's, in an idle state. -/
theorem idleWaits : Obligations.IdleWaits := by
  intro s hidle
  refine ⟨fun h => ?_, fun rest h => ?_⟩
  · rw [step_of_agenda_nil h, engineStep_idle hidle]
  · rw [step_of_complete h]
    exact engineStep_idle hidle

/-- Settles O52: the host's step writes the response last, by the kind of the request. -/
theorem everyRequestAnswered : Obligations.EveryRequestAnswered := by
  intro s q rest hr h
  refine ⟨_, step_of_host hr h, agenda_serve _ q, ?_, ?_⟩
  · rintro off size rfl
    exact ⟨_, rfl⟩
  · rintro off size d rfl
    rfl

end Sys2Proof.Machine
end

section
/-! The encoding as a whole (30_encoding.md R301, R302, R305, R307, R312): the word of a format, and the answers of the decoder
in terms of the bits. -/

namespace Sys2Proof

/-! The word of a format. -/

/-- The word a format makes of the fields it reads in `c`, every field it does not read 0 (R305). -/
def Format.word (f : Format) (op : BitVec 8) (c : BitVec 64) : BitVec 64 :=
  match f with
  | .N => pack op 0 0 0 0 0 0
  | .LI => pack op (Field.rd c) 0 0 0 0 (Field.imm c)
  | .LM => pack op (Field.rd c) 0 0 0 (Field.sg c) (Field.len c ++ Field.addr c)
  | .SM => pack op 0 (Field.rs1 c) 0 0 0 ((0 : BitVec 16) ++ Field.addr c)
  | .R1 => pack op (Field.rd c) (Field.rs1 c) 0 0 0 0
  | .R2 => pack op (Field.rd c) (Field.rs1 c) (Field.rs2 c) 0 0 0
  | .R3 | .D2 => pack op (Field.rd c) (Field.rs1 c) (Field.rs2 c) (Field.rs3 c) 0 0
  | .RI => pack op (Field.rd c) (Field.rs1 c) 0 0 0 (Field.imm c)
  | .Q1 => pack op 0 (Field.rs1 c) 0 0 0 0
  | .Q2 => pack op 0 (Field.rs1 c) (Field.rs2 c) 0 0 0

/-- The encoder writes each field of a command where the decoder read it. -/
theorem encode_build (o : Opcode) (c : BitVec 64) : encode (o.build c) = o.format.word o.byte c := by cases o <;> rfl

theorem zero_eq_of_and_allOnes {n : Nat} {x : BitVec n} (h : x &&& BitVec.allOnes n = 0) : 0 = x := by
  rw [← h, BitVec.and_allOnes]

theorem len_append_addr (c : BitVec 64) : Field.len c ++ Field.addr c = Field.imm c :=
  BitVec.extractLsb'_append_extractLsb'_eq_extractLsb' (by omega)

/-- An immediate whose upper half is 0 is its address field (R304). -/
theorem zero_append_addr {c : BitVec 64} (h : Field.imm c &&& 0xFFFF0000 = 0) :
    (0 : BitVec 16) ++ Field.addr c = Field.imm c := by
  have hmask : (0xFFFF0000 : BitVec 32) = BitVec.allOnes 16 ++ 0#16 := by decide
  rw [← len_append_addr, hmask, BitVec.and_append, BitVec.and_zero] at h
  have hlen : Field.len c &&& BitVec.allOnes 16 = 0 := (BitVec.append_left_inj 0#16).1 h
  rw [← len_append_addr, ← zero_eq_of_and_allOnes hlen]

theorem extract_packRaw_rsv (a : BitVec 8) (b c d e : BitVec 4) (f : BitVec 6) (g : BitVec 2) (h : BitVec 32) :
    (packRaw a b c d e f g h).extractLsb' 34 6 = f := by
  unfold packRaw
  iterate 2 rw [BitVec.extractLsb'_append_eq_of_le (by omega)]
  rw [BitVec.extractLsb'_append_eq_of_add_le (by omega)]
  exact BitVec.extractLsb'_eq_self

/-- The converse of `pack_mask`: a word that passes a mask is packed from fields of which each is the word's own once the
mask meets nothing of it there. -/
theorem pack_eq_of_mask {w : BitVec 64} {op : BitVec 8} {b c d e : BitVec 4} {g : BitVec 2} {m : BitVec 32}
    {rd rs1 rs2 rs3 : Reg} {sg : BitVec 2} {imm : BitVec 32}
    (h : w &&& packRaw 0xFF b c d e 0x3F g m = packRaw op 0 0 0 0 0 0 0)
    (hrd : w.extractLsb' 52 4 &&& b = 0 → rd.bits = w.extractLsb' 52 4)
    (hrs1 : w.extractLsb' 48 4 &&& c = 0 → rs1.bits = w.extractLsb' 48 4)
    (hrs2 : w.extractLsb' 44 4 &&& d = 0 → rs2.bits = w.extractLsb' 44 4)
    (hrs3 : w.extractLsb' 40 4 &&& e = 0 → rs3.bits = w.extractLsb' 40 4)
    (hsg : w.extractLsb' 32 2 &&& g = 0 → sg = w.extractLsb' 32 2)
    (himm : w.extractLsb' 0 32 &&& m = 0 → imm = w.extractLsb' 0 32) :
    pack op rd rs1 rs2 rs3 sg imm = w := by
  have field (k n : Nat) := congrArg (BitVec.extractLsb' k n) h
  simp only [BitVec.extractLsb'_and] at field
  have hop := field 56 8
  have hrsv := field 34 6
  rw [extract_packRaw_op, extract_packRaw_op, and_ones8] at hop
  rw [extract_packRaw_rsv, extract_packRaw_rsv] at hrsv
  rw [← packRaw_extract w, pack_eq, hop, ← zero_eq_of_and_allOnes hrsv,
    hrd (by simpa only [extract_packRaw_rd] using field 52 4),
    hrs1 (by simpa only [extract_packRaw_rs1] using field 48 4),
    hrs2 (by simpa only [extract_packRaw_rs2] using field 44 4),
    hrs3 (by simpa only [extract_packRaw_rs3] using field 40 4),
    hsg (by simpa only [extract_packRaw_sg] using field 32 2),
    himm (by simpa only [extract_packRaw_imm] using field 0 32)]

/-- A word that passes its format's mask is the word of the fields the format reads (R305). -/
theorem Format.word_eq_of_mask {f : Format} {op : BitVec 8} {c : BitVec 64}
    (h : c &&& f.mask = packRaw op 0 0 0 0 0 0 0) : f.word op c = c := by
  have read {n : Nat} {x m : BitVec n} : x &&& m = 0 → x = x := fun _ => rfl
  have zero {n : Nat} {x : BitVec n} : x &&& BitVec.allOnes n = 0 → 0 = x := zero_eq_of_and_allOnes
  cases f with
  | N => rw [mask_N] at h; exact pack_eq_of_mask h zero zero zero zero zero zero
  | LI => rw [mask_LI] at h; exact pack_eq_of_mask h read zero zero zero zero read
  | LM => rw [mask_LM] at h; exact pack_eq_of_mask h read zero zero zero read (fun _ => len_append_addr c)
  | SM => rw [mask_SM] at h; exact pack_eq_of_mask h zero read zero zero zero zero_append_addr
  | R1 => rw [mask_R1] at h; exact pack_eq_of_mask h read read zero zero zero zero
  | R2 => rw [mask_R2] at h; exact pack_eq_of_mask h read read read zero zero zero
  | R3 => rw [mask_R3] at h; exact pack_eq_of_mask h read read read read zero zero
  | D2 => rw [mask_D2] at h; exact pack_eq_of_mask h read read read read zero zero
  | RI => rw [mask_RI] at h; exact pack_eq_of_mask h read read zero zero zero read
  | Q1 => rw [mask_Q1] at h; exact pack_eq_of_mask h zero read zero zero zero zero
  | Q2 => rw [mask_Q2] at h; exact pack_eq_of_mask h zero read read zero zero zero

theorem encode_of_decode {nbr : Nat} {c : BitVec 64} {i : Instr} (h : decode nbr c = .ok i) : encode i = c := by
  obtain ⟨-, hmask, hbuild, -⟩ := decode_ok h
  calc encode i = encode (i.opcode.build c) := by rw [hbuild]
    _ = i.opcode.format.word i.opcode.byte c := encode_build _ c
    _ = c := Format.word_eq_of_mask (hmask.trans (match_eq _))

/-! The decoder's answers. -/

theorem ofByte_eq_none_iff {b : BitVec 8} : Opcode.ofByte b = none ↔ b ∉ Opcode.all.map Opcode.byte := by
  simp [Opcode.ofByte, List.find?_eq_none]

/-- ILLEGAL(1) is decided by the opcode byte alone (R308). -/
theorem decode_undefinedOpcode_iff {nbr : Nat} {c : BitVec 64} :
    decode nbr c = .error .undefinedOpcode ↔ Field.op c ∉ Opcode.all.map Opcode.byte := by
  rw [← ofByte_eq_none_iff, decode]
  cases Opcode.ofByte (Field.op c) with
  | none => simp
  | some o => simp only; split_ifs <;> simp

theorem decode_undefinedOpcode {nbr : Nat} {c : BitVec 64} (h : ∀ o : Opcode, o.byte ≠ Field.op c) :
    decode nbr c = .error .undefinedOpcode := by
  rw [decode_undefinedOpcode_iff, List.mem_map]
  exact fun ⟨o, _, ho⟩ => h o ho

theorem mask_op (f : Format) : f.mask.extractLsb' 56 8 = BitVec.allOnes 8 := by cases f <;> decide

/-- A word and its 56 bits below the opcode: they are 0 exactly when the word is the opcode's match word. -/
theorem eq_matchWord_iff {o : Opcode} {w : BitVec 64} (h : w.extractLsb' 56 8 = o.byte) :
    w = o.matchWord ↔ w &&& 0x00FFFFFFFFFFFFFF = 0 := by
  have hw : w = o.byte ++ w.extractLsb' 0 56 := by
    rw [← h, BitVec.extractLsb'_append_extractLsb'_eq_extractLsb' (by omega)]
    exact BitVec.extractLsb'_eq_self.symm
  have hlow : (0x00FFFFFFFFFFFFFF : BitVec 64) = 0#8 ++ BitVec.allOnes 56 := by decide
  have hzero : (0 : BitVec 64) = 0#8 ++ 0#56 := by decide
  rw [hw, Opcode.matchWord, hlow, hzero, BitVec.and_append, BitVec.and_zero, BitVec.and_allOnes]
  exact (BitVec.append_right_inj o.byte).trans (BitVec.append_right_inj 0#8).symm

section
variable {nbr : Nat} {c : BitVec 64} {o : Opcode} (ho : o.byte = Field.op c)
include ho

/-- R312: the masked word differs from the match word exactly when some must-be-zero bit is set. -/
theorem masked_eq_matchWord_iff :
    c &&& o.format.mask = o.matchWord ↔ c &&& o.format.mask &&& 0x00FFFFFFFFFFFFFF = 0 := by
  apply eq_matchWord_iff
  rw [BitVec.extractLsb'_and, mask_op, BitVec.and_allOnes, ho, Field.op]

theorem decode_unusedField (hm : c &&& o.format.mask ≠ o.matchWord) : decode nbr c = .error .unusedField := by
  rw [decode, ← ho, ofByte_byte]
  exact if_pos hm

variable (hm : c &&& o.format.mask = o.matchWord)
include hm

theorem decode_badRegister (hr : ∃ r ∈ (o.build c).regs, nbr ≤ r.val) : decode nbr c = .error .badRegister := by
  rw [decode, ← ho, ofByte_byte]
  simp only
  rw [if_neg (not_not_intro hm), if_pos]
  simpa using hr

variable (hr : ∀ r ∈ (o.build c).regs, r.val < nbr)
include hr

theorem decode_sameDest (hd : (o.build c).sameDest = true) : decode nbr c = .error .sameDest := by
  rw [decode, ← ho, ofByte_byte]
  simp only
  rw [if_neg (not_not_intro hm), if_neg, if_pos hd]
  simpa using hr

theorem decode_build (hd : (o.build c).sameDest = false) : decode nbr c = .ok (o.build c) := by
  have hwf : (o.build c).wellFormed nbr = true := by simpa [Instr.wellFormed, hd] using hr
  apply decode_of _ _ _ hwf
  all_goals rw [build_opcode]
  · exact ho.symm
  · exact hm

end

/-- ILLEGAL(4) is DIVREM's alone: its two destinations are the fields rd and rs3 (R307). -/
theorem sameDest_build_iff {o : Opcode} {c : BitVec 64} :
    (o.build c).sameDest = true ↔ o = .divrem ∧ c.extractLsb' 52 4 = c.extractLsb' 40 4 := by
  cases o
  case divrem =>
    change decide (Field.rd c = Field.rs3 c) = true ↔ _
    rw [decide_eq_true_eq, Field.rd, Field.rs3, BitVec.toFin_inj, eq_self_iff_true, true_and]
  all_goals simp [Opcode.build, Instr.sameDest]

end Sys2Proof
end

section
/-! A bounded or a modular command that committed (42_multiply.md R603, 43_divide.md R715). -/

namespace Sys2Proof.Machine

theorem code_raise_ne_zero (s : State) (e : CmdError) : (s.raise e).lasterr.code ≠ 0 := by
  change e.code ≠ 0
  cases e <;> simp [CmdError.code]

theorem eq_of_commitBounded {s t : State} {rd : Reg} {v : Int} (h : s.commitBounded rd v = .next t)
    (hcode : t.lasterr.code = 0) : t = (s.setX rd v).commit := by
  rw [State.commitBounded_eq] at h
  cases h
  split at hcode
  · exact absurd hcode (code_raise_ne_zero s _)
  · rename_i hfits
    exact if_neg hfits

theorem eq_of_exec_mul {s t : State} {rd rs1 rs2 : Reg} (h : exec (.mul rd rs1 rs2) s = .next t)
    (hcode : t.lasterr.code = 0) : t = (s.setX rd (s.xv rs1 * s.xv rs2)).commit := by
  rw [exec, execMul_eq] at h
  exact eq_of_commitBounded h hcode

theorem eq_of_exec_mod {s t : State} {rd rs1 rs2 : Reg} (h : exec (.mod rd rs1 rs2) s = .next t)
    (hcode : t.lasterr.code = 0) : t = (s.setX rd ((s.xv rs1).fmod (s.xv rs2))).commit := by
  rw [exec, execMod_eq] at h
  split at h
  · cases h
    exact absurd hcode (code_raise_ne_zero s _)
  · rename_i hpos
    cases h
    rw [Int.fmod_eq_emod_of_nonneg _ (by omega)]

@[simp] theorem State.xv_commit (s : State) (r : Reg) : s.commit.xv r = s.xv r := rfl

end Sys2Proof.Machine
end

section
/-! The statements of the family 30_encoding.md, by tier. -/

namespace Sys2Proof.Machine

/-- Settles O3: the word of a command carries its opcode, passes its mask and builds it back. -/
theorem decodeOfEncode : Obligations.DecodeOfEncode := fun _ _ hi => decode_encode hi

/-- Settles O4: a word that passes its format's mask is the word of the fields the format reads. -/
theorem encodeOfDecode : Obligations.EncodeOfDecode := by
  intro nbr c i h
  obtain ⟨-, -, -, hwf⟩ := decode_ok h
  exact ⟨encode_of_decode h, hwf⟩

/-- Settles O5, one lemma for each answer of the decoder. -/
theorem illegalOrder : Obligations.IllegalOrder := by
  refine fun nbr c => ⟨decode_undefinedOpcode, fun o ho => ⟨fun hbits => ?_, fun hbits => ?_⟩⟩
  · exact decode_unusedField ho (mt (masked_eq_matchWord_iff ho).1 hbits)
  · have hm : c &&& o.format.mask = o.matchWord := (masked_eq_matchWord_iff ho).2 hbits
    refine ⟨decode_badRegister ho hm, fun hr => ⟨fun hd => ?_, fun hd => ?_⟩⟩
    · exact decode_sameDest ho hm hr (sameDest_build_iff.2 hd)
    · exact decode_build ho hm hr (Bool.eq_false_iff.2 (mt sameDest_build_iff.1 hd))

/-- Settles O6: the listed bytes are the opcode column of R306, and the word of NOP is 0. -/
theorem undefinedOpcodes : Obligations.UndefinedOpcodes := by
  have hnop : encode .nop = 0 := by decide
  refine ⟨fun nbr c => decode_undefinedOpcode_iff, fun nbr c => ⟨fun h => ?_, fun h => ?_⟩⟩
  · rw [← encode_of_decode h, hnop]
  · rw [h, ← hnop]
    exact decode_encode rfl

/-- Settles O27: the product stands in xd, and MOD reads the modulus MUL left alone. -/
theorem modmulExpansion : Obligations.ModmulExpansion := by
  refine fun s t u rd ra rb rm hne => ⟨if_neg hne, fun hmul ht hmod hu => ?_⟩
  rw [eq_of_exec_mod hmod hu, eq_of_exec_mul hmul ht]
  simp only [State.xv_commit, State.xv_setX, if_true, if_neg hne.symm]

/-- Settles O1, by running the decoder and the encoder on the two words. -/
theorem workedEncodings : Obligations.WorkedEncodings :=
  ⟨rfl, rfl, rfl, rfl, rfl, rfl⟩

/-- Settles O2, by running the decoder on each word. -/
theorem formatWords : Obligations.FormatWords :=
  ⟨rfl, rfl, rfl, rfl, rfl, rfl, rfl, rfl, rfl, rfl, rfl, rfl⟩

end Sys2Proof.Machine
end

section
/-! The completion records of 60_exceptions.md R1200 to R1203 in the terms of Safety.lean, what the stores and LDMAG do
(40_transfer.md R403 to R405), and the registers a command leaves (R400). -/

namespace Sys2Proof.Machine

/-! The word of a command (R305, R306). -/

theorem coded (i : Instr) : i.Coded i.opcode.byte i.opcode.format :=
  ⟨(Laws.Encoding.statement i).1, rfl⟩

/-! Completion records. -/

theorem Status.complete_eq_after (st : Status) (erred : Bool) : st.complete erred = st.after erred := by
  simp [Status.complete, Status.after, rw1c, Bool.or_comm]

theorem State.commit_eq_completed (s : State) : s.commit = s.completed := by
  rw [State.commit, Status.complete_eq_after]; rfl

theorem State.raise_eq_erred (s : State) (e : CmdError) : s.raise e = s.erred e.code e.sub := by
  rw [State.raise, Status.complete_eq_after]; rfl

theorem State.err_eq_erred (s : State) (e : CmdError) : s.err e = .next (s.erred e.code e.sub) :=
  congrArg _ (s.raise_eq_erred e)

theorem State.commitX_eq_wrote (s : State) (rd : Reg) (v : Int) : s.commitX rd v = .next (s.wrote rd v) :=
  congrArg _ (State.commit_eq_completed _)

theorem State.commitRes_eq_resulted (s : State) (v : Int) : s.commitRes v = .next (s.resulted v) :=
  congrArg _ (State.commit_eq_completed _)

theorem writesOrCapacity_of_commitBounded {i : Instr} {s : State} {rd : Reg} {v : Int}
    (h : exec i s = s.commitBounded rd v) : WritesOrCapacity i s rd v := by
  rw [State.commitBounded_eq] at h
  refine ⟨fun hfits => ?_, fun hbig => ?_⟩
  · rw [h, if_neg (by omega), State.commit_eq_completed]; rfl
  · rw [h, if_pos hbig, State.raise_eq_erred]; rfl

/-! Stores (R404, R405). -/

theorem commitStore_omRange {s : State} {a : Nat} {X : List Word} (h : s.cfg.omw < a + X.length) :
    s.commitStore a X = .next (s.erred 6 1) := by
  rw [State.commitStore, if_pos h]
  exact s.err_eq_erred .omRange

theorem commitStore_fits {s : State} {a : Nat} {X : List Word} (h : a + X.length ≤ s.cfg.omw) :
    s.commitStore a X =
      .next { s.completed with om := Memory.write s.om a X, res := BitVec.ofNat 32 X.length } := by
  rw [State.commitStore, if_neg (by omega), State.commit_eq_completed, resWord, BitVec.ofInt_natCast]
  rfl

/-- The length of a register's magnitude fits LDMAG's length field (R9, R304). -/
theorem State.Inv.toNat_length {s : State} (h : s.Inv) (r : Reg) :
    (BitVec.ofNat 16 (words (s.xv r).natAbs).length).toNat = (words (s.xv r).natAbs).length := by
  have hlen := (words_length_le_iff _ _).2 (h.xv_lt r)
  obtain ⟨-, -, -, hmaxw, -⟩ := h.cfg
  rw [BitVec.toNat_ofNat, Nat.mod_eq_of_lt (by omega)]

/-- Word k of a list, the most significant first, is `lw` counted from the other end (R13). -/
theorem getD_eq_lw {X : List Word} {k : Nat} (h : k < X.length) : X.getD k 0 = lw X (X.length - 1 - k) := by
  rw [lw, List.getD_reverse _ (by omega)]
  congr 1
  omega

theorem lw_pattern {K j : Nat} (f : Nat → Word) (h : j < K) : lw (pattern K f) j = f j := by
  simp [lw, pattern, h]

/-- A store that fits OM (R404, R405): the words written, the bytes left alone, and the rest of the state. -/
theorem commitStore_stores {s : State} {a : Nat} {X : List Word} (hm : Memory.wf s.om)
    (h : a + X.length ≤ s.cfg.omw) : ∃ t, s.commitStore a X = .next t ∧
      (∀ k, k < X.length → Memory.readWord t.om (a + k) = lw X (X.length - 1 - k)) ∧
      (∀ b, b < 4 * a ∨ 4 * (a + X.length) ≤ b → Memory.readByte t.om b = Memory.readByte s.om b) ∧
      t = { s.completed with om := t.om, res := BitVec.ofNat 32 X.length } := by
  refine ⟨_, commitStore_fits h, fun k hk => ?_, fun b hb => Memory.readByte_write_other hm X (by omega), rfl⟩
  rw [Memory.readWord_write hm, if_pos (by omega), Nat.add_sub_cancel_left, getD_eq_lw hk]

theorem eq_of_exec_stmag {s t : State} {rs1 : Reg} {addr : BitVec 16} (h : exec (.stmag rs1 addr) s = .next t)
    (hcode : t.lasterr.code = 0) : addr.toNat + (words (s.xv rs1).natAbs).length ≤ s.cfg.omw ∧
      t = { s.completed with
        om := Memory.write s.om addr.toNat (words (s.xv rs1).natAbs)
        res := BitVec.ofNat 32 (words (s.xv rs1).natAbs).length } := by
  change s.commitStore addr.toNat (words (s.xv rs1).natAbs) = .next t at h
  obtain hrange | hfits := Nat.lt_or_ge s.cfg.omw (addr.toNat + (words (s.xv rs1).natAbs).length)
  · rw [commitStore_omRange hrange] at h
    cases h
    exact absurd hcode (show (6 : BitVec 8) ≠ 0 by decide)
  · rw [commitStore_fits hfits] at h
    cases h
    exact ⟨hfits, rfl⟩

/-! LDMAG (R403). -/

theorem Memory.read_succ (m : Memory) (a n : Nat) :
    Memory.read m a (n + 1) = Memory.read m a n ++ [Memory.readWord m (a + n)] := by
  induction n generalizing a with
  | zero => rfl
  | succ n ih => rw [Memory.read, ih, Memory.read, List.cons_append, Nat.add_right_comm, Nat.add_assoc]

theorem omValue_eq_val (s : State) (a n : Nat) : s.omValue a n = val (Memory.read s.om a n) := by
  induction n with
  | zero => rfl
  | succ n ih =>
    have hlast : s.omValue a (n + 1) = s.omValue a n * 2 ^ 32 + (Memory.readWord s.om (a + n)).toNat := by
      rw [State.omValue, List.range_succ, List.foldl_append]; rfl
    rw [hlast, ih, Memory.read_succ, val_append]
    simp [val, wordBase]

/-- A number stored as its words is what OM then reads as (R204). -/
theorem omValue_of_write_words {s t : State} (hm : Memory.wf s.om) {a v : Nat}
    (ht : t.om = Memory.write s.om a (words v)) : t.omValue a (words v).length = v := by
  rw [omValue_eq_val, ht, Memory.read_write hm, val_words]

theorem signOf_lt_iff (sg : BitVec 2) : signOf sg < -1 ↔ sg = 0b10 := by decide +revert

theorem signOf_eq_zero_iff (sg : BitVec 2) : signOf sg = 0 ↔ sg = 0b00 := by decide +revert

/-- The sg field that names the sign of v (R303). -/
theorem signOf_ofInt_sign (v : Int) : signOf (BitVec.ofInt 2 v.sign) = v.sign := by
  obtain h | h | h := Int.sign_trichotomy v <;> rw [h] <;> rfl

theorem ofInt_sign_eq_zero_iff (v : Int) : BitVec.ofInt 2 v.sign = 0b00 ↔ v = 0 := by
  rw [← signOf_eq_zero_iff, signOf_ofInt_sign, Int.sign_eq_zero_iff_zero]

theorem ofInt_sign_ne_two (v : Int) : BitVec.ofInt 2 v.sign ≠ 0b10 := by
  rw [ne_eq, ← signOf_lt_iff, signOf_ofInt_sign]
  obtain h | h | h := Int.sign_trichotomy v <;> rw [h] <;> decide

theorem natAbs_signOf {sg : BitVec 2} (h2 : sg ≠ 0b10) (h0 : sg ≠ 0b00) : (signOf sg).natAbs = 1 := by
  decide +revert

/-- A sign that agrees with the magnitude leaves its size alone. -/
theorem natAbs_signOf_mul {sg : BitVec 2} {V : Nat} (h2 : sg ≠ 0b10) (h0 : sg = 0b00 ↔ V = 0) :
    (signOf sg * (V : Int)).natAbs = V := by
  rw [Int.natAbs_mul, Int.natAbs_natCast]
  by_cases hV : V = 0
  · rw [hV, Nat.mul_zero]
  · rw [natAbs_signOf h2 (mt h0.1 hV), Nat.one_mul]

/-- R403 over the value read: the magnitude check is CAPACITY's check of the signed value. -/
theorem execLdmag_eq (rd : Reg) (addr len : BitVec 16) (sg : BitVec 2) (s : State) :
    execLdmag rd addr len sg s =
      if s.cfg.omw < addr.toNat + len.toNat then s.err .omRange
      else if sg = 0b10 then s.err .constructSign
      else if ¬ (sg = 0b00 ↔ s.omValue addr.toNat len.toNat = 0) then s.err .constructMismatch
      else s.commitBounded rd (signOf sg * (s.omValue addr.toNat len.toNat : Int)) := by
  have hX : strip (Memory.read s.om addr.toNat len.toNat) = words (s.omValue addr.toNat len.toNat) := by
    rw [strip_eq_words, omValue_eq_val]
  refine ite_congr rfl (fun _ => rfl) fun _ => ite_congr (propext (signOf_lt_iff sg)) (fun _ => rfl) fun h2 =>
    ite_congr ?_ (fun _ => rfl) fun h0 => ?_
  · simp only [hX, words_eq_nil_iff, signOf_eq_zero_iff, ne_eq, eq_iff_iff]
  · rw [hX, val_words, State.commitBounded, natAbs_signOf_mul h2 (not_not.1 h0)]

theorem exec_ldmag_of_fits {s : State} {rd : Reg} {addr len : BitVec 16} {sg : BitVec 2}
    (hr : addr.toNat + len.toNat ≤ s.cfg.omw) (h2 : sg ≠ 0b10)
    (h0 : sg = 0b00 ↔ s.omValue addr.toNat len.toNat = 0) :
    exec (.ldmag rd addr len sg) s = s.commitBounded rd (signOf sg * (s.omValue addr.toNat len.toNat : Int)) := by
  rw [exec, execLdmag_eq, if_neg (by omega), if_neg h2, if_neg (not_not_intro h0)]

/-! Canonical registers (10_state.md R101). -/

theorem State.Inv.get_eq_ofInt {s : State} (h : s.Inv) (r : Reg) : s.x.get r = BigReg.ofInt (s.xv r) :=
  (BigReg.ofInt_toInt (h.regs r)).symm

theorem Sign.of_of_neg {v : Int} (h : v < 0) : Sign.of v = .neg := if_pos h

theorem Sign.of_of_pos {v : Int} (h : 0 < v) : Sign.of v = .pos := by
  rw [Sign.of, if_neg (by omega), if_neg (by omega)]

theorem Sign.of_natAbs (v : Int) : Sign.of v.natAbs = if Sign.of v = .neg then .pos else Sign.of v := by
  obtain h | rfl | h := lt_trichotomy v 0
  · rw [Sign.of_of_neg h, if_pos rfl, Sign.of_of_pos (by omega)]
  · rfl
  · rw [Int.natAbs_of_nonneg h.le, Sign.of_of_pos h, if_neg (by decide)]

/-- The sign NEG stores for the sign it reads (R1103). -/
def Sign.negated : Sign → Sign
  | .neg => .pos
  | .zero => .zero
  | .pos => .neg

theorem Sign.of_neg (v : Int) : Sign.of (-v) = (Sign.of v).negated := by
  obtain h | rfl | h := lt_trichotomy v 0
  · rw [Sign.of_of_neg h, Sign.of_of_pos (by omega)]; rfl
  · rfl
  · rw [Sign.of_of_pos h, Sign.of_of_neg (by omega)]; rfl

/-! What a command leaves in the register file (R400). -/

theorem x_effect_other {i : Instr} {s t : State} (h : Effect i s t) {r : Reg} (hr : r ∉ i.dests) :
    t.x.get r = s.x.get r := by
  have other {u : State} {rd : Reg} (v : Int) (hrd : rd ∈ i.dests) : (u.setX rd v).x.get r = u.x.get r := by
    rw [State.get_setX, if_neg]
    rintro rfl
    exact hr hrd
  cases h with
  | err | nothing | res | store => rfl
  | reg rd v hrd => exact other v hrd
  | reg2 rd rd2 v v2 hrd hrd2 => exact (other v2 hrd2).trans (other v hrd)

end Sys2Proof.Machine
end

section
/-! The statements of the family 40_transfer.md, by tier. -/

namespace Sys2Proof.Machine

/-- Settles O14, check by check. -/
theorem loadMagnitude : Obligations.LoadMagnitude := by
  intro s rd addr len sg a n
  refine ⟨coded _, fun hr => ?_, fun hr => ⟨fun h2 => ?_, fun h2 => ⟨fun h0 => ?_, fun h0 => ?_⟩⟩⟩
  · rw [exec, execLdmag_eq, if_pos hr]
    exact s.err_eq_erred .omRange
  · rw [exec, execLdmag_eq, if_neg (by omega), if_pos h2]
    exact s.err_eq_erred .constructSign
  · rw [exec, execLdmag_eq, if_neg (by omega), if_neg h2, if_pos (by tauto)]
    exact s.err_eq_erred .constructMismatch
  · exact writesOrCapacity_of_commitBounded (exec_ldmag_of_fits hr h2 h0)

/-- Settles O15: the words are those of the canonical list of |v|, whose length is the least that holds it. -/
theorem storeMagnitude : Obligations.StoreMagnitude := by
  intro s rs1 addr hm v a
  have hlen := words_length_le_iff v
  refine ⟨coded _, (words v).length, (hlen _).1 le_rfl, fun k => (hlen k).2, commitStore_omRange, fun hr => ?_⟩
  obtain ⟨t, ht, hwords, hother, hrest⟩ := commitStore_stores hm hr
  refine ⟨t, ht, fun k hk => ?_, hother, hrest⟩
  rw [hwords k hk, lw_eq, val_words]

/-- Settles O16: the words are those of the infinite form, as many as the pattern has. -/
theorem storeTwosComplement : Obligations.StoreTwosComplement := by
  intro s rs1 addr hm v a n
  have hexec : exec (.sttc rs1 addr) s = s.commitStore a (pattern n (sliceWord v)) := execSttc_eq rs1 addr s
  have hlen : (pattern n (sliceWord v)).length = n := pattern_length n _
  refine ⟨coded _, fun hr => ?_, fun hr => ?_⟩
  · rw [hexec, commitStore_omRange (by rwa [hlen])]
  · obtain ⟨t, ht, hwords, hother, hrest⟩ := commitStore_stores hm (X := pattern n (sliceWord v)) (by rwa [hlen])
    rw [hlen] at hwords hother hrest
    refine ⟨t, hexec.trans ht, fun k hk => ?_, hother, hrest⟩
    rw [hwords k hk, lw_pattern _ (by omega), sliceWord]

/-- Settles O17: what STMAG committed is read back, and the sign the command names is that of the value. -/
theorem storeThenLoad : Obligations.StoreThenLoad := by
  intro s t u rs1 rd addr hs hcode hstore hload
  obtain ⟨hfits, ht⟩ := eq_of_exec_stmag hstore hcode
  have hcfg : t.cfg = s.cfg := by rw [ht]; rfl
  have hlen := hs.toNat_length rs1
  have hval : t.omValue addr.toNat (words (s.xv rs1).natAbs).length = (s.xv rs1).natAbs :=
    omValue_of_write_words hs.memWf (by rw [ht])
  rw [← hlen] at hfits hval
  have hagree : BitVec.ofInt 2 (s.xv rs1).sign = 0b00 ↔ (s.xv rs1).natAbs = 0 := by
    rw [ofInt_sign_eq_zero_iff, Int.natAbs_eq_zero]
  rw [exec_ldmag_of_fits (by rwa [hcfg]) (ofInt_sign_ne_two _) (by rwa [hval]), hval, signOf_ofInt_sign,
    Int.sign_mul_natAbs, State.commitBounded_eq, hcfg, if_neg (not_le.2 (hs.xv_lt rs1))] at hload
  cases hload
  exact ⟨rfl, by rw [State.xv_commit, State.xv_setX, if_pos rfl]⟩

/-- Settles O34, from what a command can do to the registers and to RES. -/
theorem registerFrame : Obligations.RegisterFrame := by
  intro i s t h
  have heff := effect_of_exec h
  exact ⟨fun _ => x_effect_other heff, fun hn => res_effect heff (.inl hn)⟩

/-- Settles O18: a canonical register is the stored form of its value, so only the sign is left to compare. -/
theorem moveAbsNeg : Obligations.MoveAbsNeg := by
  intro s rd rs1 hs
  have hr := hs.get_eq_ofInt rs1
  refine ⟨coded _, coded _, coded _, ?_, ?_, ?_⟩
  · exact (s.commitX_eq_wrote rd _).trans (by rw [hr]; rfl)
  · have habs : BigReg.ofInt (s.xv rs1).natAbs =
        ⟨if (s.x.get rs1).sign = .neg then .pos else (s.x.get rs1).sign, (s.x.get rs1).mag⟩ := by
      rw [hr, BigReg.ofInt, Sign.of_natAbs, Int.natAbs_natCast]; rfl
    exact (s.commitX_eq_wrote rd _).trans (by rw [State.wrote, habs])
  · have hneg : BigReg.ofInt (-s.xv rs1) = ⟨(s.x.get rs1).sign.negated, (s.x.get rs1).mag⟩ := by
      rw [hr, BigReg.ofInt, Sign.of_neg, Int.natAbs_neg]; rfl
    exact (s.commitX_eq_wrote rd _).trans (by rw [State.wrote, hneg]; rfl)

/-- Settles O19, from the stored form of the register's value. -/
theorem readQueries : Obligations.ReadQueries := by
  intro s rs1 hs
  have hr := hs.get_eq_ofInt rs1
  refine ⟨coded _, coded _, coded _, ?_, ?_, ?_⟩
  · have hsign : (s.x.get rs1).sign.toInt = (s.xv rs1).sign := by rw [hr]; exact Sign.toInt_of _
    exact (s.commitRes_eq_resulted _).trans (congrArg (fun v => Host.Outcome.next (s.resulted v)) hsign.symm)
  · exact (s.commitRes_eq_resulted _).trans (by rw [hr]; rfl)
  · have hlow : BitVec.ofInt 32 (s.xv rs1 % 2 ^ 32) = BitVec.ofInt 32 (s.xv rs1) := by
      apply BitVec.eq_of_toNat_eq
      rw [BitVec.toNat_ofInt, BitVec.toNat_ofInt]
      omega
    exact (s.commitRes_eq_resulted _).trans (by rw [State.resulted, State.resulted, hlow])

/-- Settles O13: the word of NOP is 0, and its format leaves every bit unused. -/
theorem nopAndLoadImmediate : Obligations.NopAndLoadImmediate := by
  intro s rd imm
  refine ⟨coded _, congrArg _ s.commit_eq_completed, fun hcl => ?_, fun nbr c hop hc => ?_, coded _,
    s.commitX_eq_wrote rd _⟩
  · change (LastErr.mk 0 (s.cl.extractLsb' 56 8) 0).word = 0
    rw [hcl]; decide
  · have hmask : c &&& Opcode.nop.format.mask = c := BitVec.and_allOnes
    exact decode_unusedField (o := .nop) hop.symm (by rw [hmask]; exact hc)

end Sys2Proof.Machine
end

section
/-! The statement of the family 41_addsub.md. -/

namespace Sys2Proof.Machine

/-- Settles O20: the sign and magnitude case split of R504 computes a + b exactly, and both commands commit its result
under the capacity check. -/
theorem addSub : Obligations.AddSub := by
  intro s rd rs1 rs2
  exact ⟨coded _, coded _, writesOrCapacity_of_commitBounded (execAdd_eq rd rs1 rs2 s),
    writesOrCapacity_of_commitBounded (execSub_eq rd rs1 rs2 s)⟩

end Sys2Proof.Machine
end

section
/-! The statements of the family 42_multiply.md. -/

namespace Sys2Proof.Machine

/-- Settles O21: the multiplier's rows (R600) and the squarer's triangle, doubling and diagonal (R601) compute the exact
product, which both commands commit under the capacity check. -/
theorem mulSqr : Obligations.MulSqr := by
  intro s rd rs1 rs2
  have hsqr : exec (.sqr rd rs1) s = s.commitBounded rd (s.xv rs1 * s.xv rs1) := by
    rw [exec, execSqr_eq, pow_two]
  exact ⟨coded _, coded _, writesOrCapacity_of_commitBounded (execMul_eq rd rs1 rs2 s),
    writesOrCapacity_of_commitBounded hsqr⟩

/-- Settles O22: a negative exponent errs first; else square-and-multiply (R602) computes the exact power, and where the
bit length alone decides the capacity check, MAXW > 0 makes it decide as the power itself would. -/
theorem power : Obligations.Power := by
  intro s rd rs1 imm hcfg
  obtain ⟨-, -, hmaxw, -⟩ := hcfg
  have hpow := execPow_eq rd rs1 imm s (by omega)
  refine ⟨coded _, fun hneg => ?_, fun hnonneg => writesOrCapacity_of_commitBounded ?_⟩
  · rw [exec, hpow, if_pos hneg]
    exact s.err_eq_erred .domainExponent
  · rw [exec, hpow, if_neg (not_lt.2 hnonneg)]

end Sys2Proof.Machine
end

section
/-! The word of a command with one destination twice (30_encoding.md R307), and the truncated remainder (43_divide.md
R716). -/

namespace Sys2Proof

/-- ILLEGAL(4) is the only check that the word of such a command fails. -/
theorem decode_encode_sameDest {nbr : Nat} {i : Instr} (hr : ∀ r ∈ i.regs, r.val < nbr) (hd : i.sameDest = true) :
    decode nbr (encode i) = .error .sameDest := by
  obtain ⟨hop, hmask, hbuild⟩ := Laws.Encoding.statement i
  exact decode_sameDest hop.symm hmask (by rwa [hbuild]) (by rwa [hbuild])

end Sys2Proof

namespace Sys2Proof.Machine

theorem exec_divrem_nonzero {s : State} {rd rd2 rs1 rs2 : Reg} (h : s.xv rs2 ≠ 0) : exec (.divrem rd rd2 rs1 rs2) s =
    .next ((s.setX rd ((s.xv rs1).tdiv (s.xv rs2))).setX rd2 ((s.xv rs1).tmod (s.xv rs2))).commit := by
  rw [exec, execDivrem_eq, if_neg h]

theorem natAbs_tmod_lt (a : Int) {b : Int} (h : b ≠ 0) : (a.tmod b).natAbs < b.natAbs := by
  rw [Int.natAbs_tmod]
  exact Nat.mod_lt _ (Int.natAbs_pos.2 h)

theorem tmod_eq_zero_or_sign_eq (a b : Int) : a.tmod b = 0 ∨ (a.tmod b).sign = a.sign := by
  by_cases h : b ∣ a
  · exact .inl (Int.tmod_eq_zero_of_dvd h)
  · exact .inr (by rw [Int.sign_tmod, if_neg h])

end Sys2Proof.Machine
end

section
/-! The statements of the family 43_divide.md. -/

namespace Sys2Proof.Machine

/-- Settles O23: Algorithm D on the magnitudes, with the signs of R711 put back, gives the truncated quotient and
remainder (`sdiv_eq`), and a word that names one register twice passes every check but the last. -/
theorem division : Obligations.Division := by
  intro s rd rd2 rs1 rs2
  have hsame : decode 16 (encode (.divrem rd rd rs1 rs2)) = .error .sameDest :=
    decode_encode_sameDest (fun r _ => r.isLt) (decide_eq_true rfl)
  refine ⟨coded _, coded _, coded _, hsame, fun hzero => ?_, fun hdiv => ?_⟩
  · have herr : s.err .domainDivisor = .next (s.erred 3 3) := s.err_eq_erred .domainDivisor
    simp only [exec, execDiv_eq, execRem_eq, execDivrem_eq, if_pos hzero]
    exact ⟨herr, herr, herr⟩
  · simp only [exec, execDiv_eq, execRem_eq, execDivrem_eq, if_neg hdiv]
    exact ⟨s.commitX_eq_wrote rd _, s.commitX_eq_wrote rd _, State.commitX_eq_wrote _ rd2 _⟩

/-- Settles O24: with two destinations both results stand after the commit, and they are those of truncated division. -/
theorem divisionIdentity : Obligations.DivisionIdentity := by
  intro s rd rd2 rs1 rs2 hne hdiv
  refine ⟨_, exec_divrem_nonzero hdiv, rfl, ?_⟩
  simp only [State.xv_commit, State.xv_setX, if_true, if_neg hne]
  exact ⟨(Int.mul_tdiv_add_tmod _ _).symm, natAbs_tmod_lt _ hdiv, tmod_eq_zero_or_sign_eq _ _⟩

/-- Settles O25: MOD commits the remainder modulo m, which for m > 0 is the floored one (R12). -/
theorem modResidue : Obligations.Residue := by
  intro s rd rs1 rs2
  refine ⟨coded _, fun hnonpos => ?_, fun hpos => ⟨?_, Int.fmod_nonneg_of_pos _ hpos, Int.fmod_lt_of_pos _ hpos⟩⟩
  · rw [exec, execMod_eq, if_pos hnonpos]
    exact s.err_eq_erred .domainModulus
  · rw [exec, execMod_eq, if_neg (not_le.2 hpos), Int.fmod_eq_emod_of_nonneg _ hpos.le]
    exact s.commitX_eq_wrote rd _

end Sys2Proof.Machine
end

section
/-! The statement of the family 44_modpow.md. -/

namespace Sys2Proof.Machine

/-- Settles O26: the modulus is checked before the exponent (D21). Where both pass, the Montgomery path of an odd modulus
(R805) and the generic path of an even one (R806) both give the remainder of b^e modulo m (`modpow_value`), which for
m > 0 is the floored one (R12). -/
theorem modularPower : Obligations.ModularPower := by
  intro s rd rs1 rs2 rs3
  refine ⟨coded _, fun hnonpos => ?_, fun hpos => ⟨fun hneg => ?_, fun hnonneg => ?_⟩⟩
  · rw [exec, execModpow_eq, if_pos hnonpos]
    exact s.err_eq_erred .domainModulus
  · rw [exec, execModpow_eq, if_neg (not_le.2 hpos), if_pos hneg]
    exact s.err_eq_erred .domainExponent
  · rw [exec, execModpow_eq, if_neg (not_le.2 hpos), if_neg (not_lt.2 hnonneg), Int.fmod_eq_emod_of_nonneg _ hpos.le]
    exact s.commitX_eq_wrote rd _

end Sys2Proof.Machine
end

section
/-! The operators of the infinite two's-complement form in the terms of the statements (45_bitwise.md R906, R908), and the
bit length and bit count (R909, R910). -/

namespace Sys2Proof.Machine

/-- ANDNOT is AND with the complement (R906), sign by sign. -/
theorem ldiff_eq_land_lnot (a b : Int) : a.ldiff b = a.land b.lnot := by
  cases a with
  | ofNat m => cases b with
    | ofNat n => rfl
    | negSucc n => rfl
  | negSucc m => cases b with
    | ofNat n => rfl
    | negSucc n => rfl

theorem bitlen_bounds (v : Int) : -2 ^ bitlen v ≤ v ∧ v < 2 ^ bitlen v := (bitlen_le_iff v _).1 le_rfl

theorem bitlen_le_of_natAbs_lt {v : Int} {k : Nat} (h : v.natAbs < 2 ^ k) : bitlen v ≤ k := by
  have hp : ((2 ^ k : Nat) : Int) = 2 ^ k := by push_cast; rfl
  exact (bitlen_le_iff v k).2 (by omega)

theorem State.Inv.bitlen_xv_le {s : State} (h : s.Inv) (r : Reg) : bitlen (s.xv r) ≤ 32 * s.cfg.maxw :=
  bitlen_le_of_natAbs_lt (by rw [← wordBase_pow]; exact h.xv_lt r)

/-- A negative v has the complemented bits of -v - 1, so the bits of v that differ from the sign are the 1 bits there. -/
theorem bitcnt_eq_countP (v : Int) :
    bitcnt v = (List.range (bitlen v)).countP (fun j => v.testBit j != decide (v < 0)) := by
  cases v with
  | ofNat n =>
    have hbits : (fun j => (Int.ofNat n).testBit j != decide (Int.ofNat n < 0)) = n.testBit := by
      funext j
      simp [Int.testBit, Int.not_ofNat_neg]
    rw [hbits]
    exact if_pos (Int.natCast_nonneg n)
  | negSucc n =>
    have hbits : (fun j => (Int.negSucc n).testBit j != decide (Int.negSucc n < 0)) = n.testBit := by
      funext j
      simp [Int.testBit]
    have hcompl : (-Int.negSucc n - 1).toNat = n := by rw [← lnot_eq]; rfl
    rw [hbits, bitcnt, if_neg (Int.negSucc_not_nonneg n).1, hcompl]
    rfl

end Sys2Proof.Machine
end

section
/-! The statements of the family 45_bitwise.md. -/

namespace Sys2Proof.Machine

/-- Settles O28: on the words of the longer operand's two's-complement form each operator computes its integer function
(`bitwise2_eq`), which the command commits under the capacity check; OR's result is no larger than its operands allow
(`lor_fits`). -/
theorem bitwiseTwo : Obligations.BitwiseTwo := by
  intro s rd rs1 rs2
  have handnot : exec (.andnot rd rs1 rs2) s = s.commitBounded rd ((s.xv rs1).land (s.xv rs2).lnot) := by
    rw [exec, execAndnot_eq, ldiff_eq_land_lnot]
  exact ⟨coded _, coded _, coded _, coded _, writesOrCapacity_of_commitBounded (execAnd_eq rd rs1 rs2 s),
    writesOrCapacity_of_commitBounded (execOr_eq rd rs1 rs2 s),
    writesOrCapacity_of_commitBounded (execXor_eq rd rs1 rs2 s), writesOrCapacity_of_commitBounded handnot,
    fun hs => lor_fits (hs.xv_lt rs1) (hs.xv_lt rs2)⟩

/-- Settles O29: the index is checked first; else clearing bit i is AND with the complement of 2^i, also where the command
decides the outcome without forming the words (log 12, `execClrbit_eq`). -/
theorem notAndClearBit : Obligations.NotAndClearBit := by
  intro s rd rs1 imm
  refine ⟨coded _, coded _, writesOrCapacity_of_commitBounded (execNot_eq rd rs1 s), fun hneg => ?_,
    fun hnonneg => writesOrCapacity_of_commitBounded ?_⟩
  · rw [exec, execClrbit_eq, if_pos hneg]
    exact s.err_eq_erred .domainBitIndex
  · rw [exec, execClrbit_eq, if_neg (not_lt.2 hnonneg), ldiff_eq_land_lnot]

/-- Settles O30, with k the bit length: it is the least with -2^k ≤ v < 2^k (`bitlen_le_iff`). -/
theorem bitCounts : Obligations.BitCounts := by
  intro s rs1
  refine ⟨coded _, coded _, bitlen (s.xv rs1), bitlen_bounds _, fun j => (bitlen_le_iff _ j).2,
    fun hs => hs.bitlen_xv_le rs1, s.commitRes_eq_resulted _, ?_⟩
  rw [← bitcnt_eq_countP]
  exact s.commitRes_eq_resulted _

end Sys2Proof.Machine
end

section
/-! SHL and SHR by the sign of the distance (46_shift.md R1004, R1005), where a distance of 0 counts as either direction. -/

namespace Sys2Proof.Machine

variable {imm : BitVec 32}

theorem toInt_ne_min_of_nonneg (h : 0 ≤ imm.toInt) : imm.toInt ≠ -2 ^ 31 := by omega

/-- -2^31 is the one distance whose opposite is no distance (R1006). -/
theorem toInt_neg_of_ne_min (hne : imm.toInt ≠ -2 ^ 31) : (-imm).toInt = -imm.toInt :=
  BitVec.toInt_neg_of_ne_intMin fun h => hne (by rw [h]; rfl)

theorem toInt_neg_ne_min (hne : imm.toInt ≠ -2 ^ 31) : (-imm).toInt ≠ -2 ^ 31 := by
  have hlt := imm.toInt_lt
  rw [toInt_neg_of_ne_min hne]
  omega

theorem exec_shl_of_nonneg (h : 0 ≤ imm.toInt) (rd rs1 : Reg) (s : State) :
    exec (.shl rd rs1 imm) s = s.commitBounded rd (s.xv rs1 * 2 ^ imm.toInt.toNat) := by
  rw [exec, execShl_eq, if_neg (toInt_ne_min_of_nonneg h), if_pos h]

theorem exec_shr_of_nonneg (h : 0 ≤ imm.toInt) (rd rs1 : Reg) (s : State) :
    exec (.shr rd rs1 imm) s = s.commitBounded rd ((s.xv rs1).fdiv (2 ^ imm.toInt.toNat)) := by
  rw [exec, execShr_eq, if_neg (toInt_ne_min_of_nonneg h), if_pos h]

theorem exec_shl_of_nonpos (hne : imm.toInt ≠ -2 ^ 31) (h : imm.toInt ≤ 0) (rd rs1 : Reg) (s : State) :
    exec (.shl rd rs1 imm) s = s.commitBounded rd ((s.xv rs1).fdiv (2 ^ (-imm.toInt).toNat)) := by
  obtain hneg | hzero := h.lt_or_eq
  · rw [exec, execShl_eq, if_neg hne, if_neg (not_le.2 hneg)]
  · rw [exec_shl_of_nonneg hzero.ge, hzero]
    simp

theorem exec_shr_of_nonpos (hne : imm.toInt ≠ -2 ^ 31) (h : imm.toInt ≤ 0) (rd rs1 : Reg) (s : State) :
    exec (.shr rd rs1 imm) s = s.commitBounded rd (s.xv rs1 * 2 ^ (-imm.toInt).toNat) := by
  obtain hneg | hzero := h.lt_or_eq
  · rw [exec, execShr_eq, if_neg hne, if_neg (not_le.2 hneg)]
  · rw [exec_shr_of_nonneg hzero.ge, hzero]
    simp

theorem exec_shl_eq_exec_shr_neg (hne : imm.toInt ≠ -2 ^ 31) (rd rs1 : Reg) (s : State) :
    exec (.shl rd rs1 imm) s = exec (.shr rd rs1 (-imm)) s := by
  have hopp := toInt_neg_of_ne_min hne
  obtain hnonneg | hnonpos := le_total 0 imm.toInt
  · have hflip : (-imm).toInt ≤ 0 := by omega
    rw [exec_shl_of_nonneg hnonneg, exec_shr_of_nonpos (toInt_neg_ne_min hne) hflip, hopp, neg_neg]
  · have hflip : 0 ≤ (-imm).toInt := by omega
    rw [exec_shl_of_nonpos hne hnonpos, exec_shr_of_nonneg hflip, hopp]

end Sys2Proof.Machine
end

section
/-! The statements of the family 46_shift.md. -/

namespace Sys2Proof.Machine

/-- Settles O31: the limb shifter computes a·2^n and floor(a / 2^n) exactly (`sshl_eq`, `sshr_eq`), and deciding CAPACITY
from the bit length decides as the product would (`commitShl_eq`). -/
theorem shifts : Obligations.Shifts := by
  intro s rd rs1 imm
  refine ⟨coded _, coded _, fun hmin => ?_, fun hnonneg => ?_, fun ⟨hmin, hneg⟩ => ?_⟩
  · have herr : s.err .range = .next (s.erred 4 1) := s.err_eq_erred .range
    simp only [exec, execShl_eq, execShr_eq, if_pos hmin]
    exact ⟨herr, herr⟩
  · exact ⟨writesOrCapacity_of_commitBounded (exec_shl_of_nonneg hnonneg rd rs1 s),
      writesOrCapacity_of_commitBounded (exec_shr_of_nonneg hnonneg rd rs1 s)⟩
  · exact ⟨writesOrCapacity_of_commitBounded (exec_shl_of_nonpos hmin.ne' hneg.le rd rs1 s),
      writesOrCapacity_of_commitBounded (exec_shr_of_nonpos hmin.ne' hneg.le rd rs1 s)⟩

/-- Settles O32: 2^n divides the value that SHL committed, so SHR commits the old value, which fits as it did before. The
second equation is the first one at the distance -n. -/
theorem shiftInverse : Obligations.ShiftInverse := by
  intro s t rd rs1 rd2 imm hs
  refine ⟨fun hnonneg hshl hcode => ?_, fun hne => ⟨exec_shl_eq_exec_shr_neg hne rd rs1 s, ?_⟩⟩
  · rw [exec_shl_of_nonneg hnonneg] at hshl
    obtain rfl := eq_of_commitBounded hshl hcode
    have hback : (s.xv rs1 * 2 ^ imm.toInt.toNat).fdiv (2 ^ imm.toInt.toNat) = s.xv rs1 :=
      Int.mul_fdiv_cancel _ (by positivity)
    rw [exec_shr_of_nonneg hnonneg, State.xv_commit, State.xv_setX, if_pos rfl, hback, State.commitBounded_eq,
      State.commit_cfg, State.setX_cfg, if_neg (not_le.2 (hs.xv_lt rs1))]
    exact ⟨_, rfl, rfl, by rw [State.xv_commit, State.xv_setX, if_pos rfl]⟩
  · rw [exec_shl_eq_exec_shr_neg (toInt_neg_ne_min hne), neg_neg]

end Sys2Proof.Machine
end

section
/-! The statement of the family 47_compare.md. -/

namespace Sys2Proof.Machine

/-- Settles O33: the compare by signs and then by magnitudes, reversed for two negatives, is the sign of a - b
(`scmp_eq`), and equal signs with equal magnitude words are equal integers (`sameValue_eq`). -/
theorem compare : Obligations.Compare := by
  intro s rs1 rs2
  refine ⟨coded _, coded _, ?_, fun heq => ?_, fun hne => ?_⟩
  · rw [exec, execCmp_eq, State.commitRes_eq_resulted]
  · rw [exec, execEq_eq, if_pos heq, State.commitRes_eq_resulted]
  · rw [exec, execEq_eq, if_neg hne, State.commitRes_eq_resulted]

end Sys2Proof.Machine
end

section
/-! Every completion leaves one record (60_exceptions.md R1200 to R1203), and the engine always answers. -/

namespace Sys2Proof.Machine

/-! A command. -/

/-- A command ends in the record of an error its row of R1204 lists, or in the bare record of R1202. -/
theorem record_effect {i : Instr} {s t : State} (h : Effect i s t) :
    (∃ e, t = s.raise e ∧ (Bounded s → (e.code, e.sub) ∈ i.errors)) ∨
      (t.lasterr = ⟨0, Field.op s.cl, 0⟩ ∧ t.status = s.status.complete false) := by
  cases h with
  | err e he => exact .inl ⟨e, rfl, he⟩
  | nothing | res | store | reg | reg2 => exact .inr ⟨rfl, rfl⟩

theorem status_raise (s : State) (e : CmdError) :
    (s.raise e).status = s.status.complete (decide ((s.raise e).lasterr.code ≠ 0)) := by
  rw [decide_eq_true (code_raise_ne_zero s e), State.raise_status]

/-- R1203: STATUS and LASTERR agree on whether the command erred. -/
theorem status_effect {i : Instr} {s t : State} (h : Effect i s t) :
    t.status = s.status.complete (decide (t.lasterr.code ≠ 0)) := by
  obtain ⟨e, rfl, _⟩ | ⟨hlast, hstatus⟩ := record_effect h
  · exact status_raise s e
  · rw [hstatus, hlast]; rfl

/-! The engine. -/

theorem engineStep_illegal {s : State} {why : Illegal} (hr : s.rstN = true) (hb : s.status.busy = true)
    (hd : decode s.cfg.nbr s.cl = .error why) : s.engineStep = s.err (.illegal why) := by
  rw [State.engineStep, hr, hb, Bool.and_self, if_pos rfl, State.execLatch, hd]

theorem engineStep_held {s : State} (h : s.rstN = false) : s.engineStep = .next s := by
  rw [State.engineStep, h, Bool.false_and, if_neg Bool.false_ne_true]

/-- R213, R1203: a busy engine completes whatever word the latch holds. -/
theorem engineStep_completes {s : State} (hr : s.rstN = true) (hb : s.status.busy = true) :
    ∃ t, s.engineStep = .next t ∧ t.status = s.status.complete (decide (t.lasterr.code ≠ 0)) := by
  cases hd : decode s.cfg.nbr s.cl with
  | ok i =>
    obtain ⟨t, ht, heff⟩ := exec_effect i s
    exact ⟨t, (engineStep_busy hr hb hd).trans ht, status_effect heff⟩
  | error why => exact ⟨_, engineStep_illegal hr hb hd, status_raise s _⟩

/-- The engine either does nothing or completes. -/
theorem engineStep_cases (s : State) : s.engineStep = .next s ∨
    ∃ t, s.engineStep = .next t ∧ t.status = s.status.complete (decide (t.lasterr.code ≠ 0)) := by
  cases hr : s.rstN with
  | false => exact .inl (engineStep_held hr)
  | true =>
    cases hb : s.status.busy with
    | false => exact .inl (engineStep_idle hb)
    | true => exact .inr (engineStep_completes hr hb)

theorem exists_engineStep (s : State) : ∃ t, s.engineStep = .next t := by
  obtain h | ⟨t, h, _⟩ := engineStep_cases s
  · exact ⟨s, h⟩
  · exact ⟨t, h⟩

/-- A completion never clears ERR (R1203). -/
theorem err_engineStep {s t : State} (h : s.engineStep = .next t) (he : s.status.err = true) : t.status.err = true := by
  obtain h' | ⟨u, h', hu⟩ := engineStep_cases s <;> rw [h] at h' <;> cases h'
  · exact he
  · rw [hu, Status.complete_err, he, Bool.or_true]

end Sys2Proof.Machine
end

section
/-! Which host accesses clear ERR (60_exceptions.md R1203), where a step stops (70_reset_and_hazards.md R1300), and what OM
holds when rst_n has risen (R1302). -/

namespace Sys2Proof.Machine

/-- Only the aligned 32-bit access at its offset reaches a register (R110, R203). -/
theorem eq_of_target_reg {c : Config} {off : BitVec 19} {size : Size} {r : HostReg} (h : target c off size = .reg r) :
    off = BitVec.ofNat 19 r.offset ∧ size = .b32 := by
  unfold target mapOffset at h
  split at h
  · rename_i hform
    split at h
    · rename_i q hq
      cases h
      have hoff : r.offset = off.toNat := by simpa using List.find?_some hq
      rw [hoff, BitVec.ofNat_toNat, BitVec.setWidth_eq]
      exact ⟨rfl, hform.1⟩
    · split at h <;> cases h
  · cases h

/-- The host accesses R1203 lets clear ERR: a write of 1 to ERR, and a soft reset. -/
def HostReq.ClearsErr (q : HostReq) : Prop :=
  ∃ d : Word, (d.getLsbD 2 = true ∧ q = .write 0x014 .b32 d) ∨ (d.getLsbD 1 = true ∧ q = .write 0x010 .b32 d)

/-- A write to a register keeps ERR, or is one of the two that clear it. -/
theorem err_writeReg {s : State} (he : s.status.err = true) (r : HostReg) (d : Word) :
    (s.writeReg r d).status.err = true ∨ HostReq.ClearsErr (.write (BitVec.ofNat 19 r.offset) .b32 d) := by
  cases r with
  | status =>
    cases hd : d.getLsbD 2 with
    | true => exact .inr ⟨d, .inl ⟨hd, rfl⟩⟩
    | false => exact .inl (by rw [writeReg_status, he, hd]; rfl)
  | ctrl =>
    cases hd : d.getLsbD 1 with
    | true => exact .inr ⟨d, .inr ⟨hd, rfl⟩⟩
    | false => exact .inl (by rw [writeReg_ctrl_run s hd]; exact he)
  | cmdhi =>
    cases hb : s.status.busy with
    | true => exact .inl (by rw [writeReg_cmdhi_busy hb]; exact he)
    | false => exact .inl (by rw [writeReg_cmdhi_idle hb]; exact he)
  | id | version | cfg | omsize | lasterr | res | cmdlo => exact .inl he

/-- Every other host access keeps ERR. -/
theorem err_serve {s : State} (he : s.status.err = true) (q : HostReq) :
    (s.serve q).status.err = true ∨ q.ClearsErr := by
  cases q with
  | read off size =>
    left
    change (s.hostRead off size).1.status.err = true
    obtain h | h | h := hostRead_cases s off size <;> rw [h] <;> exact he
  | write off size d =>
    cases ht : target s.cfg off size with
    | reg r =>
      obtain ⟨rfl, rfl⟩ := eq_of_target_reg ht
      rw [serve_write_reg]
      exact err_writeReg he r d
    | om a =>
      cases hb : s.status.busy with
      | true => exact .inl (by rw [serve_write_om_busy ht hb]; exact he)
      | false => exact .inl (by rw [serve_write_om_idle ht hb]; exact he)
    | illegal => exact .inl (by rw [serve_write_illegal ht]; exact he)

/-- An event keeps ERR, or is a change of rst_n or one of the two host accesses. -/
theorem err_onEvent {s t : State} {e : Event} (h : s.onEvent e = .next t) (he : s.status.err = true) :
    t.status.err = true ∨ e = .rstLow ∨ (∃ om, e = .rstHigh om) ∨
      ∃ q : HostReq, q.ClearsErr ∧ (e = .host q ∨ e = .sameCycle q) := by
  cases e with
  | rstLow => exact .inr (.inl rfl)
  | rstHigh om => exact .inr (.inr (.inl ⟨om, rfl⟩))
  | complete => exact .inl (err_engineStep h he)
  | host q =>
    cases hr : s.rstN <;> simp only [State.onEvent, State.hostStep, hr] at h <;> cases h
    exact (err_serve he q).imp_right fun hq => .inr (.inr ⟨q, hq, .inl rfl⟩)
  | sameCycle q =>
    cases hr : s.rstN <;> simp only [State.onEvent, hr] at h
    · cases h
    · exact (err_serve he q).imp (err_engineStep h) fun hq => .inr (.inr ⟨q, hq, .inr rfl⟩)

/-! The stop (log 9). -/

/-- A host access while rst_n is low. -/
theorem onEvent_stops {s : State} {e : Event} {q : HostReq} (hr : s.rstN = false) (he : e = .host q ∨ e = .sameCycle q) :
    s.onEvent e = .fault .accessInReset := by
  obtain rfl | rfl := he <;> simp [State.onEvent, State.hostStep, hr]

/-- Any other event is answered. -/
theorem onEvent_cases (s : State) (e : Event) :
    (∃ t, s.onEvent e = .next t) ∨ (s.rstN = false ∧ ∃ q, e = .host q ∨ e = .sameCycle q) := by
  cases e with
  | complete => exact .inl (exists_engineStep s)
  | rstLow => exact .inl (by cases hr : s.rstN <;> simp [State.onEvent, hr])
  | rstHigh om => exact .inl (by cases hr : s.rstN <;> simp [State.onEvent, hr])
  | host q =>
    cases hr : s.rstN with
    | false => exact .inr ⟨rfl, q, .inl rfl⟩
    | true => exact .inl (by simp [State.onEvent, State.hostStep, hr])
  | sameCycle q =>
    cases hr : s.rstN with
    | false => exact .inr ⟨rfl, q, .inr rfl⟩
    | true =>
      rw [State.onEvent, if_pos hr]
      exact .inl (exists_engineStep _)

/-! Reset. -/

theorem step_of_rstHigh {s : State} {om : List (Nat × Word)} {rest : List Event} (hr : s.rstN = false)
    (h : s.agenda = .rstHigh om :: rest) : step s = .next (({ s with agenda := rest } : State).powerOn om) := by
  rw [step_of_agenda_cons h, State.onEvent, hr, if_neg Bool.false_ne_true]

theorem Status.word_zero : Status.zero.word = 0 := by decide

theorem LastErr.word_zero : LastErr.zero.word = 0 := by decide

/-! Power-on content (log 3, log 18). -/

theorem Memory.ofContents_append_singleton {omw : Nat} (l : List (Nat × Word)) {p : Nat × Word} (h : p.1 < omw) :
    Memory.ofContents omw (l ++ [p]) = Memory.writeWord (Memory.ofContents omw l) p.1 p.2 := by
  rw [Memory.ofContents, List.foldl_append, List.foldl_cons, if_pos h]; rfl

/-- Listed in order, the first words of any array stand in OM. -/
theorem Memory.readWord_ofContents_range {omw n a : Nat} (f : Nat → Word) (hn : n ≤ omw) (ha : a < n) :
    Memory.readWord (Memory.ofContents omw ((List.range n).map (fun k => (k, f k)))) a = f a := by
  induction n with
  | zero => omega
  | succ n ih =>
    rw [List.range_succ, List.map_append, List.map_singleton, Memory.ofContents_append_singleton _ (by simpa using hn),
      Memory.readWord_writeWord (Memory.ofContents_spec _ _).1]
    split
    · rename_i heq; rw [heq]
    · rename_i hne; exact ih (by omega) (by omega)

end Sys2Proof.Machine
end

section
/-! The statements of the families 60_exceptions.md and 70_reset_and_hazards.md, by tier. -/

namespace Sys2Proof.Machine

/-- Settles O11: a command leaves an error's record, which writes nothing else, or the bare one. -/
theorem commandCompletes : Obligations.CommandCompletes := by
  intro i s _
  obtain ⟨t, ht, heff⟩ := exec_effect i s
  have hstatus := status_effect heff
  refine ⟨t, ht, by rw [hstatus]; rfl, by rw [hstatus, Status.complete_done],
    by rw [hstatus, Status.complete_err, Bool.or_comm], ?_⟩
  obtain ⟨e, rfl, _⟩ | ⟨hlast, _⟩ := record_effect heff
  · exact ⟨rfl, fun hcode => absurd hcode (code_raise_ne_zero s e), fun _ => ⟨rfl, rfl, rfl⟩⟩
  · rw [hlast]
    exact ⟨rfl, fun _ => rfl, fun hcode => absurd rfl hcode⟩

/-- Settles O12: a record with a CODE is an error's, and the invariant bounds the registers (R103). -/
theorem errorTable : Obligations.ErrorTable := by
  intro i s t hs h hcode
  obtain ⟨e, rfl, he⟩ | ⟨hlast, _⟩ := record_effect (effect_of_exec h)
  · exact he hs.xv_lt
  · rw [hlast] at hcode
    exact absurd rfl hcode

/-- Settles O53: completions keep ERR, and so does every host access but the two that clear it. -/
theorem errIsSticky : Obligations.ErrIsSticky := by
  intro s t he h hclear
  have hlost : t.status.err ≠ true := by rw [hclear]; exact Bool.false_ne_true
  cases hag : s.agenda with
  | nil =>
    rw [step_of_agenda_nil hag] at h
    exact absurd (err_engineStep h he) hlost
  | cons e rest =>
    rw [step_of_agenda_cons hag] at h
    obtain hkept | hlow | hhigh | ⟨q, ⟨d, ⟨hd, rfl⟩ | ⟨hd, rfl⟩⟩, hev⟩ := err_onEvent h he
    · exact absurd hkept hlost
    · exact ⟨e, rest, rfl, .inl hlow⟩
    · exact ⟨e, rest, rfl, .inr (.inl hhigh)⟩
    · exact ⟨e, rest, rfl, .inr (.inr ⟨d, .inl ⟨hd, hev⟩⟩)⟩
    · exact ⟨e, rest, rfl, .inr (.inr ⟨d, .inr ⟨hd, hev⟩⟩)⟩

/-- Settles O54: the write to STATUS leaves BUSY, so the engine then completes in the same cycle. -/
theorem sameCycleSetWins : Obligations.SameCycleSetWins := by
  intro s d rest _ hr hb h
  obtain ⟨t, ht, hstatus⟩ := engineStep_completes
    (s := ({ s with agenda := rest } : State).serve (.write 0x014 .b32 d)) ((rstN_serve _ _).trans hr)
    (by rw [serve_write_status]; exact hb)
  refine ⟨t, ?_, by rw [hstatus]; rfl, by rw [hstatus, Status.complete_done], fun hcode => ?_⟩
  · rw [step_of_agenda_cons h, State.onEvent, if_pos hr, ht]
  · rw [hstatus, decide_eq_true hcode, Status.complete_err, Bool.true_or]

/-- Settles O57: the engine and the reset pin always answer, and so does the host's side while rst_n is high. -/
theorem onlyResetAccessStops : Obligations.OnlyResetAccessStops := by
  intro s _
  have hstops : ∀ q rest, s.rstN = false → s.agenda = .host q :: rest ∨ s.agenda = .sameCycle q :: rest →
      step s = .fault .accessInReset := by
    rintro q rest hr (hag | hag) <;> rw [step_of_agenda_cons hag]
    · exact onEvent_stops hr (.inl rfl)
    · exact onEvent_stops hr (.inr rfl)
  refine ⟨?_, hstops⟩
  cases hag : s.agenda with
  | nil =>
    rw [step_of_agenda_nil hag]
    exact .inl (exists_engineStep s)
  | cons e rest =>
    obtain hnext | ⟨hr, q, hq⟩ := onEvent_cases { s with agenda := rest } e
    · rw [step_of_agenda_cons hag]
      exact .inl hnext
    · have hcons : s.agenda = .host q :: rest ∨ s.agenda = .sameCycle q :: rest := by
        obtain rfl | rfl := hq
        · exact .inl hag
        · exact .inr hag
      exact .inr ⟨hstops q rest hr hcons, hr, q, rest, hag ▸ hcons⟩

/-- Settles O56: everything but OM is as after a soft reset, and OM holds the words listed. -/
theorem powerOn : Obligations.PowerOn := by
  intro s f rest hr h
  refine ⟨_, step_of_rstHigh hr h, rfl, fun r => ?_, rfl, rfl, Status.word_zero, LastErr.word_zero, rfl, rfl, rfl, rfl,
    fun a ha => Memory.readWord_ofContents_range f le_rfl ha⟩
  rw [State.xv, State.powerOn_x, get_replicate_zero, BigReg.toInt_zero]

/-- Settles O8: the engine raises the decoder's refusal, whatever it is. -/
theorem illegalCompletes : Obligations.IllegalCompletes := by
  intro s hr hb h
  have hillegal (why : Illegal) (hd : decode s.cfg.nbr s.cl = .error why) :
      step s = .next (s.erred (CmdError.illegal why).code (CmdError.illegal why).sub) := by
    rw [step_of_agenda_nil h, engineStep_illegal hr hb hd, State.err_eq_erred]
  exact ⟨hillegal .undefinedOpcode, hillegal .unusedField, hillegal .badRegister, hillegal .sameDest⟩

/-- Settles O40: the write resets, and the interrupt enable it carries is not read. -/
theorem softReset : Obligations.SoftReset := by
  intro s d hd
  rw [serve_write_ctrl_reset s hd]
  exact ⟨rfl, ctrlWord_eq false⟩

/-- Settles O41: the soft reset clears BUSY, so the completion that follows is not enabled. -/
theorem softResetAborts : Obligations.SoftResetAborts := by
  intro s d hd hr h
  refine ⟨{ s.softReset with agenda := [.complete], response := .ack },
    { s.softReset with agenda := [], response := .ack }, ?_, ?_, rfl, rfl, rfl, LastErr.word_zero,
    Status.word_zero, rfl⟩
  · rw [step_of_host hr h, serve_write_ctrl_reset _ hd]; rfl
  · rw [step_of_complete rfl]
    exact engineStep_idle rfl

end Sys2Proof.Machine
end
